-- ==== Sys2Proof/Word.lean ====
section
/-! DEFINITION. The one element type of the block's buffers, command words and status register: 8 bits (R47, R62, R30). -/

namespace Sys2Proof

/-- One 8-bit element: a byte of a byte sequence, or one character code (R11, R47). -/
abbrev Byte := BitVec 8

end Sys2Proof
end

