-- ==== Sys2Proof/Syntax.lean ====
section
/-! DEFINITION. The command words as syntax: one constructor per row of spec/opcode_table.json (R62 to R65). -/

namespace Sys2Proof

/-- The two codecs (R2, R16): codec number 0 and codec number 1. -/
inductive Codec where
  | base32
  | base64url
  deriving DecidableEq, Repr

/-- The three operations of the `OP` field (R62). -/
inductive Op where
  | encode
  | decode
  | validate
  deriving DecidableEq, Repr

/-- The command words (R63, R64). A command word has no operands (R65). A reserved row's arguments are the bits the row
leaves open: `hi` the ones above its fixed bit or bits, `lo` the ones below. -/
inductive Instr where
  | enc32
  | dec32
  | val32
  | enc64u
  | dec64u
  | val64u
  | reservedOp11 (hi : BitVec 6)
  | reservedBit7 (lo : BitVec 7)
  | reservedBit6 (hi : BitVec 1) (lo : BitVec 6)
  | reservedBit5 (hi : BitVec 2) (lo : BitVec 5)
  | reservedBit4 (hi : BitVec 3) (lo : BitVec 4)
  | reservedBit3 (hi : BitVec 4) (lo : BitVec 3)
  deriving DecidableEq, Repr

end Sys2Proof
end

