-- ==== Sys2Proof/WellFormed.lean ====
section
/-! DEFINITION. Which instructions stand for a word: the reserved rows of the table overlap, and a word is read as the
first row that matches it (log 8), so a row's open bits must not make an earlier row match. -/

namespace Sys2Proof

/-- The `OP` field, the two low bits, is not the reserved 11 (R62). -/
def opNotReserved {n : Nat} (lo : BitVec n) : Bool := lo.toNat % 4 != 3

/-- The instruction is the reading of its own word: no earlier row of the table matches that word (R64). -/
def Instr.wf : Instr → Bool
  | .enc32 => true
  | .dec32 => true
  | .val32 => true
  | .enc64u => true
  | .dec64u => true
  | .val64u => true
  | .reservedOp11 _ => true
  | .reservedBit7 lo => opNotReserved lo
  | .reservedBit6 hi lo => hi == 0 && opNotReserved lo
  | .reservedBit5 hi lo => hi == 0 && opNotReserved lo
  | .reservedBit4 hi lo => hi == 0 && opNotReserved lo
  | .reservedBit3 hi lo => hi == 0 && opNotReserved lo

end Sys2Proof
end

