-- ==== Sys2Proof/Decode.lean ====
section
/-! DEFINITION. From command words to instructions and back (R62 to R64; spec/opcode_table.json). -/

namespace Sys2Proof

/-- Why bytes are not decoded: there is no command word at all. Every 8-bit word has a row of the table (R64). -/
inductive DecodeReject where
  | noCommandWord
  deriving DecidableEq, Repr

/-- Does the row with this mask and pattern match the word (spec/opcode_table.json)? -/
def rowMatches (mask pattern w : Byte) : Bool := w &&& mask == pattern

/-- Reads a command word: the six commands by all eight bits (R63), then the reserved rows in the order of the table
(R64). The last row needs no test: a word that no earlier row matches has bit 3 set. -/
def decodeWord (w : Byte) : Instr :=
  if rowMatches 0xFF 0x00 w then .enc32
  else if rowMatches 0xFF 0x01 w then .dec32
  else if rowMatches 0xFF 0x02 w then .val32
  else if rowMatches 0xFF 0x04 w then .enc64u
  else if rowMatches 0xFF 0x05 w then .dec64u
  else if rowMatches 0xFF 0x06 w then .val64u
  else if rowMatches 0x03 0x03 w then .reservedOp11 (w.extractLsb' 2 6)
  else if rowMatches 0x80 0x80 w then .reservedBit7 (w.extractLsb' 0 7)
  else if rowMatches 0x40 0x40 w then .reservedBit6 (w.extractLsb' 7 1) (w.extractLsb' 0 6)
  else if rowMatches 0x20 0x20 w then .reservedBit5 (w.extractLsb' 6 2) (w.extractLsb' 0 5)
  else if rowMatches 0x10 0x10 w then .reservedBit4 (w.extractLsb' 5 3) (w.extractLsb' 0 4)
  else .reservedBit3 (w.extractLsb' 4 4) (w.extractLsb' 0 3)

/-- Decodes the first command word of a byte sequence and gives the rest; rejects by name when there is none. -/
def decode : List Byte → Except DecodeReject (Instr × List Byte)
  | [] => .error .noCommandWord
  | w :: rest => .ok (decodeWord w, rest)

/-- The `CODEC` field (R62). -/
def Codec.bits : Codec → BitVec 1
  | .base32 => 0
  | .base64url => 1

/-- The `OP` field (R62). -/
def Op.bits : Op → BitVec 2
  | .encode => 0b00
  | .decode => 0b01
  | .validate => 0b10

/-- The command word `ZERO ++ CODEC ++ OP` of R62. -/
def commandWordOf (c : Codec) (op : Op) : Byte := 0#5 ++ c.bits ++ op.bits

/-- The command word of an instruction, from the encodings of R62 to R64. -/
def encodeWord : Instr → Byte
  | .enc32 => commandWordOf .base32 .encode
  | .dec32 => commandWordOf .base32 .decode
  | .val32 => commandWordOf .base32 .validate
  | .enc64u => commandWordOf .base64url .encode
  | .dec64u => commandWordOf .base64url .decode
  | .val64u => commandWordOf .base64url .validate
  | .reservedOp11 hi => hi ++ 0b11#2
  | .reservedBit7 lo => 1#1 ++ lo
  | .reservedBit6 hi lo => hi ++ 1#1 ++ lo
  | .reservedBit5 hi lo => hi ++ 1#1 ++ lo
  | .reservedBit4 hi lo => hi ++ 1#1 ++ lo
  | .reservedBit3 hi lo => hi ++ 1#1 ++ lo

/-- The command that names a codec and an operation (R63). -/
def commandInstr : Codec → Op → Instr
  | .base32, .encode => .enc32
  | .base32, .decode => .dec32
  | .base32, .validate => .val32
  | .base64url, .encode => .enc64u
  | .base64url, .decode => .dec64u
  | .base64url, .validate => .val64u

/-- The words of an instruction: always one (R62). -/
def encode (i : Instr) : List Byte := [encodeWord i]

/-- The command word of a value written to `CMD`: its bits 7:0 (R27, D29). -/
def commandWord (v : Nat) : Byte := BitVec.ofNat 8 v

/-- The bytes of an instruction whose low `nbits` bits are `w` and whose bits above are 0: one command word (R62). -/
def layoutTableWord (nbits w : Nat) : List Byte := [commandWord (w % 2 ^ nbits)]

/-- What the decoder reads from a word numbered as spec/opcode_table.json numbers it. -/
def decodeTableWord (nbits w : Nat) : Option Instr :=
  match decode (layoutTableWord nbits w) with
  | .ok (i, _) => some i
  | .error _ => none

end Sys2Proof
end

