-- ==== Sys2Proof/Machine/Tables.lean ====
section
/-! DEFINITION. The constant tables of the symbol mapper (R16 to R24). They are definitions: nothing can change them. -/

namespace Sys2Proof.Machine

/-- `PAD`, the character `=` (R17). The character codes of this file are ASCII (R11; log 17). -/
def padChar : Byte := 0x3D

/-- The Base32 alphabet `a`–`z`, `2`–`7`, index 0 first (R16, R18). -/
def alphabet32 : List Byte :=
  [0x61, 0x62, 0x63, 0x64, 0x65, 0x66, 0x67, 0x68, 0x69, 0x6A, 0x6B, 0x6C, 0x6D, 0x6E, 0x6F, 0x70] ++
  [0x71, 0x72, 0x73, 0x74, 0x75, 0x76, 0x77, 0x78, 0x79, 0x7A, 0x32, 0x33, 0x34, 0x35, 0x36, 0x37]

/-- The Base64Url alphabet `A`–`Z`, `a`–`z`, `0`–`9`, `-`, `_`, index 0 first (R16, R19). -/
def alphabet64url : List Byte :=
  [0x41, 0x42, 0x43, 0x44, 0x45, 0x46, 0x47, 0x48, 0x49, 0x4A, 0x4B, 0x4C, 0x4D, 0x4E, 0x4F, 0x50] ++
  [0x51, 0x52, 0x53, 0x54, 0x55, 0x56, 0x57, 0x58, 0x59, 0x5A, 0x61, 0x62, 0x63, 0x64, 0x65, 0x66] ++
  [0x67, 0x68, 0x69, 0x6A, 0x6B, 0x6C, 0x6D, 0x6E, 0x6F, 0x70, 0x71, 0x72, 0x73, 0x74, 0x75, 0x76] ++
  [0x77, 0x78, 0x79, 0x7A, 0x30, 0x31, 0x32, 0x33, 0x34, 0x35, 0x36, 0x37, 0x38, 0x39, 0x2D, 0x5F]

/-- `CFG[c].k`, the group width in bits (R16). -/
def groupBits : Codec → Nat
  | .base32 => 5
  | .base64url => 6

/-- `CFG[c].B`, the block size in characters (R16). -/
def blockSize : Codec → Nat
  | .base32 => 8
  | .base64url => 4

/-- `CFG[c].alphabet` (R16). -/
def alphabet : Codec → List Byte
  | .base32 => alphabet32
  | .base64url => alphabet64url

/-- Q, the bytes a full block carries (R9): `k * B / 8`. -/
def blockBytes (c : Codec) : Nat := groupBits c * blockSize c / 8

/-- `ENC_LUT[c][g]` (R18, R19), for a group value below `2^k`; no rule reads it elsewhere. -/
def encLut (c : Codec) (g : Nat) : Byte := (alphabet c).getD g 0

/-- `DEC_LUT[c][x]`, the inverse of `ENC_LUT[c]` (R21); `none` is `NONE` (R22). -/
def decLut (c : Codec) (x : Byte) : Option Nat := (alphabet c).findIdx? (· == x)

/-- `PADSET[c]`, the pad counts a valid string may end with (R23). -/
def padSet : Codec → List Nat
  | .base32 => [0, 1, 3, 4, 6]
  | .base64url => [0, 1, 2]

end Sys2Proof.Machine
end

