-- ==== Sys2Proof/Machine/Engine.lean ====
section
/-! DEFINITION. The bit-packing engine as pure functions of a codec (R74 to R85): the architectural level. -/

namespace Sys2Proof.Machine

/-- The low `w` bits of a number, most significant first (R12, R48). -/
def bitsOf (w v : Nat) : List Bool := (List.range w).map fun j => v.testBit (w - 1 - j)

/-- The number a bit string spells, most significant bit first (R12). -/
def valueOf (bits : List Bool) : Nat := bits.foldl (fun n b => 2 * n + b.toNat) 0

/-- The bitstream `S(b)` of a byte sequence (R48). -/
def byteStream (b : List Byte) : List Bool := b.flatMap fun x => bitsOf 8 x.toNat

/-- The bitstream of a sequence of `k`-bit groups (R82). -/
def groupStream (k : Nat) (gs : List Nat) : List Bool := gs.flatMap (bitsOf k)

/-- Cuts the first `n` consecutive chunks of `w` bits from a stream, each read most significant bit first (R74, R82). -/
def chunks (w n : Nat) (s : List Bool) : List Nat := (List.range n).map fun j => valueOf ((s.drop (j * w)).take w)

/-- The number of groups of an n-byte sequence: `ceil(8n / k)` (R74). -/
def groupCount (k n : Nat) : Nat := (8 * n + k - 1) / k

/-- `PACK(k, b)`: bytes to groups; the short final chunk is right-padded with zero bits (R74). -/
def pack (k : Nat) (b : List Byte) : List Nat :=
  let n := groupCount k b.length
  chunks k n (byteStream b ++ List.replicate (n * k - 8 * b.length) false)

/-- `MAP(c, g)`: group to character (R75). -/
def mapSymbol (c : Codec) (g : Nat) : Byte := encLut c g

/-- `PADGEN(B, N)`: how many pads bring N data symbols to a multiple of B (R76). -/
def padGen (B N : Nat) : Nat := B * ((N + B - 1) / B) - N

/-- `ENCODE(c, b)`: the whole encode direction (R77). -/
def encodeBytes (c : Codec) (b : List Byte) : List Byte :=
  let g := pack (groupBits c) b
  g.map (mapSymbol c) ++ List.replicate (padGen (blockSize c) g.length) padChar

/-- `UNMAP(c, x)`: character to group (R80). -/
def unmapSymbol (c : Codec) (x : Byte) : Option Nat := decLut c x

/-- Why a string is not a valid encoding (R119). -/
inductive Cause where
  | length
  | char
  | padOrder
  | padCount
  | trailing
  deriving DecidableEq, Repr

/-- The `ERRCAUSE` code of a cause (R119). -/
def Cause.code : Cause → BitVec 3
  | .length => 1
  | .char => 2
  | .padOrder => 3
  | .padCount => 4
  | .trailing => 5

/-- What the scan of `CHECK` finds: the pad count, or the first violation and its index (R81). -/
inductive ScanResult where
  | pads (p : Nat)
  | fail (cause : Cause) (pos : Nat)
  deriving DecidableEq, Repr

/-- The scan of `CHECK` over the characters from index `i` on, with `p` pads seen so far: checks 2 and 3 (R81). -/
def scan (c : Codec) (i p : Nat) : List Byte → ScanResult
  | [] => .pads p
  | x :: xs =>
    if x = padChar then scan c (i + 1) (p + 1) xs
    else match unmapSymbol c x with
      | none => .fail .char i
      | some _ => if p > 0 then .fail .padOrder i else scan c (i + 1) p xs

/-- The result of `CHECK` (R81): `ok(D, P)` or `fail(cause, pos)`. -/
inductive CheckResult where
  | ok (d p : Nat)
  | fail (cause : Cause) (pos : Nat)
  deriving DecidableEq, Repr

/-- The number of trailing bits of a string with `d` data symbols: `(k * D) mod 8` (R81). -/
def trailingCount (c : Codec) (d : Nat) : Nat := groupBits c * d % 8

/-- `UNMAP(c, s[i])` as a number; `CHECK` reads it only where `s[i]` is a symbol (R81). -/
def symbolValue (c : Codec) (s : List Byte) (i : Nat) : Nat := (unmapSymbol c (s.getD i padChar)).getD 0

/-- `CHECK(c, s)`: the padding validator and character-set and length check (R81). -/
def checkString (c : Codec) (s : List Byte) : CheckResult :=
  let L := s.length
  if L % blockSize c ≠ 0 then .fail .length L
  else match scan c 0 0 s with
    | .fail cause pos => .fail cause pos
    | .pads p =>
      if p ∉ padSet c then .fail .padCount (L - p)
      else
        let d := L - p
        let t := trailingCount c d
        if t > 0 ∧ symbolValue c s (d - 1) % 2 ^ t ≠ 0 then .fail .trailing (d - 1)
        else .ok d p

/-- `UNPACK(k, G)`: groups to whole bytes, and the trailing bits (R82). -/
def unpack (k : Nat) (gs : List Nat) : List Byte × List Bool :=
  let w := groupStream k gs
  let n := k * gs.length / 8
  ((chunks 8 n w).map (BitVec.ofNat 8), w.drop (8 * n))

/-- The result of `DECODE` (R83): the complete byte sequence, or `InvalidEncoding(cause, pos)`. -/
inductive DecodeResult where
  | bytes (out : List Byte)
  | invalidEncoding (cause : Cause) (pos : Nat)
  deriving DecidableEq, Repr

/-- `DECODE(c, s)`: the whole decode direction (R83). -/
def decodeString (c : Codec) (s : List Byte) : DecodeResult :=
  match checkString c s with
  | .fail cause pos => .invalidEncoding cause pos
  | .ok d _ => .bytes (unpack (groupBits c) ((List.range d).map (symbolValue c s))).1

/-- `ISVALID(c, s)` (R85). -/
def isValid (c : Codec) (s : List Byte) : Bool :=
  match checkString c s with
  | .ok _ _ => true
  | .fail _ _ => false

end Sys2Proof.Machine
end

