-- ==== Sys2Proof/Config.lean ====
section
/-! DEFINITION. The parameters the spec leaves open (R10, R7, U1) and the free values it leaves open (U2 to U5). -/

namespace Sys2Proof

/-- The spec's two levels of description (R7): a command as one atomic transaction, or as a sequence of core steps. -/
inductive Level where
  | architectural
  | microStep
  deriving DecidableEq, Repr

/-- How `ERRCAUSE` and `ERRPOS` are filled after a failed decode (U1, R120): with the reference values of R119, or with
any cause in 1..5 and any position. -/
inductive ErrInfo where
  | reference
  | free
  deriving DecidableEq, Repr

/-- What an implementation fixes (R10). `State` carries one such record, and no step changes it. -/
structure Params where
  /-- `IN_CAP`: elements of the input buffer. -/
  inCap : Nat
  /-- `OUT_CAP`: elements of the output buffer. -/
  outCap : Nat
  /-- `LENW`: width in bits of `ILEN`, `OLEN`, `ERRPOS`, `IPOS`, `NPAD`. -/
  lenw : Nat
  level : Level
  errInfo : ErrInfo
  deriving DecidableEq, Repr

/-- The constraints of R10: every encode of an input that fits, fits `OBUF`; every length fits `LENW` bits. -/
def Params.ok (p : Params) : Bool :=
  decide (8 * ((p.inCap + 4) / 5) ≤ p.outCap) && decide (p.inCap ≤ 2 ^ p.lenw - 1) && decide (p.outCap ≤ 2 ^ p.lenw - 1)

namespace Config

/-- The free value of a host register read that "returns any value" (U3, U4): applied to the number of the copy and the
counter `draws`. The spec relates no two of its open values; each kind has a constant of its own, so none is tied to one of
another kind or of another copy (log 5, 14). -/
opaque freeNat : Nat → Nat → Nat

/-- The free value of a host buffer read that "returns any value" (U2, U3, U4): applied to the number of the copy and the
counter `draws`. -/
opaque freeByte : Nat → Nat → Byte

/-- The free cause of a failed decode (U1): applied to the number of the copy and the counter `draws`; used modulo 5. -/
opaque freeCause : Nat → Nat → Nat

/-- The free position of a failed decode (U1): applied to the number of the copy and the counter `draws`. -/
opaque freePos : Nat → Nat → Nat

/-- The contents of `IBUF` after a reset, "any value" (U5): applied to the number of the copy, the number of resets so far
and the index. -/
opaque ibufReset : Nat → Nat → Nat → Byte

/-- The parameters the state after reset carries. DESIGN CHOICE (log 1, 2, 6): the spec leaves all of them open. -/
def resetParams : Params :=
  { inCap := 4096, outCap := 6560, lenw := 16, level := .architectural, errInfo := .reference }

end Config

end Sys2Proof
end

