-- ==== Sys2Proof/Machine/State.lean ====
section
/-! DEFINITION. The state of one instance of the block (R15), the reasons a step could stop, and the state after reset (R45). -/

namespace Sys2Proof.Machine

/-- The states of the sequencer (R37). -/
inductive Phase where
  | idle
  | eRun
  | eFlush
  | ePad
  | dRun
  | dFinal
  deriving DecidableEq, Repr

/-- One operation of the host on the block's ports (R55, R72). -/
inductive HostOp where
  /-- `HostWrite(reg, v)`: a write of `v` to register number `reg`. -/
  | write (reg v : Nat)
  /-- `HostRead(reg)`. -/
  | read (reg : Nat)
  /-- `HostWriteIBUF(i, v)`. -/
  | writeIbuf (i : Nat) (v : Byte)
  /-- `HostReadIBUF(i)`. -/
  | readIbuf (i : Nat)
  /-- A host write to `OBUF`, which the block ignores (R52, U9). -/
  | writeObuf (i : Nat) (v : Byte)
  /-- `HostReadOBUF(i)`. -/
  | readObuf (i : Nat)
  /-- `WAIT`: `HostRead(STATUS)` repeated until bit 1, `DONE`, is 1 (R72). -/
  | waitDone
  deriving DecidableEq, Repr

/-- What can happen next (log 3): a host operation, a step of the core, or `Reset` (R136). -/
inductive Event where
  | host (op : HostOp)
  | core
  | reset
  deriving DecidableEq, Repr

/-- A buffer's determined elements: index and value, indices strictly rising. An index that is not listed holds a value
the spec leaves open (U2, U5; log 4, 5). -/
abbrev Memory := List Host.Cell

/-- The complete state of one instance (R15), its parameters (R10), and the model's own fields (log 7). -/
structure State where
  /-- The parameters (R10, R44): no step changes them (log 2). -/
  params : Params
  /-- `IBUF` (R25). -/
  ibuf : Memory
  /-- `OBUF` (R26). -/
  obuf : Memory
  /-- `ILEN` (R28), `LENW` bits. -/
  ilen : Nat
  /-- `OLEN` (R29), `LENW` bits. -/
  olen : Nat
  /-- `STATUS` (R30). -/
  status : Byte
  /-- `ERRCAUSE` (R31). -/
  errCause : BitVec 3
  /-- `ERRPOS` (R32), `LENW` bits. -/
  errPos : Nat
  /-- `PHASE` (R37). -/
  phase : Phase
  /-- `CUR` (R38). -/
  cur : BitVec 3
  /-- `IPOS` (R39), `LENW` bits. -/
  ipos : Nat
  /-- `ACC` (R40). -/
  acc : BitVec 12
  /-- `NBITS` (R41). -/
  nbits : BitVec 4
  /-- `NPAD` (R42), `LENW` bits. -/
  npad : Nat
  /-- The model's own: the events still to happen, the next one first (log 3). -/
  pending : List Event
  /-- The model's own: the value that answered the last host read. -/
  rdata : Nat
  /-- The model's own: how many free values have been drawn (log 5). -/
  draws : Nat
  /-- The model's own: how many resets there have been (log 4). -/
  resets : Nat
  /-- The model's own: which of several copies this is (R60), so that open values of two copies are unrelated. The block has
  no such register: nothing but the free values reads it, and no step changes it (log 14). -/
  copyId : Nat
  deriving DecidableEq, Repr

/-- Why a step could fault: there is no reason. Every outcome of a command, `InvalidEncoding` included, is a full next
state (R118, R121; log 12), and no state is stuck (R144). -/
inductive Fault where
  deriving DecidableEq, Repr

/-- Why a step could be refused. -/
inductive Refusal where
  /-- Raised by an arm of `exec` for an instruction without a meaning; no arm does so. Safe: the machine stops. -/
  | notModelled (mnemonic : String)
  deriving DecidableEq, Repr

/-- The state after reset (R45). `IBUF` and `OBUF` list nothing: every element holds any value (log 4, 5). The values of
`params`, `pending`, `rdata`, `draws`, `resets` and `copyId` are DESIGN CHOICE (log 2, 7, 14). -/
def State.reset : State where
  params := Config.resetParams
  ibuf := []
  obuf := []
  ilen := 0
  olen := 0
  status := 0x00
  errCause := 0
  errPos := 0
  phase := .idle
  cur := 0
  ipos := 0
  acc := 0
  nbits := 0
  npad := 0
  pending := []
  rdata := 0
  draws := 0
  resets := 0
  copyId := 0

end Sys2Proof.Machine
end

