-- ==== Sys2Proof/Machine/Flags.lean ====
section
/-! DEFINITION. The fields of `STATUS` (R30). -/

namespace Sys2Proof.Machine

/-- The flags of `STATUS` (R30); bits 7:5 are reserved and read as 0. -/
inductive Flag where
  | busy
  | done
  | err
  | valid
  | illcmd
  deriving DecidableEq, Repr

/-- The flag's bit number (R30). -/
def Flag.bit : Flag → Nat
  | .busy => 0
  | .done => 1
  | .err => 2
  | .valid => 3
  | .illcmd => 4

/-- `STATUS.f`. -/
def getFlag (w : Byte) (f : Flag) : Bool := w.getLsbD f.bit

/-- `STATUS.f <- 1`. -/
def setFlag (w : Byte) (f : Flag) : Byte := w ||| (1#8 <<< f.bit)

/-- `STATUS.f <- 0`. -/
def clearFlag (w : Byte) (f : Flag) : Byte := w &&& ~~~(1#8 <<< f.bit)

/-- `STATUS <- {BUSY, DONE, ERR, VALID, ILLCMD}`, the reserved bits 0 (R30). -/
def statusWord (busy done err valid illcmd : Bool) : Byte :=
  0#3 ++ BitVec.ofBool illcmd ++ BitVec.ofBool valid ++ BitVec.ofBool err ++ BitVec.ofBool done ++ BitVec.ofBool busy

/-- `STATUS.BUSY = 1`: a command is running (R30). -/
def State.busy (s : State) : Bool := getFlag s.status .busy

/-- `STATUS.DONE = 1` (R30). -/
def State.done (s : State) : Bool := getFlag s.status .done

end Sys2Proof.Machine
end

