-- ==== Sys2Proof/Machine/Ops.lean ====
section
/-! DEFINITION. The shared operations on buffers and registers: buffer accesses, the command-start clear, completion, the
refusal of a command, and taking the exception `InvalidEncoding`. -/

namespace Sys2Proof.Machine

/-- The element at index `i`, or `none` where the spec leaves its value open. -/
def Memory.readByte : Memory → Nat → Option Byte
  | [], _ => none
  | (a, v) :: m, i => if a = i then some v else Memory.readByte m i

/-- Stores `v` at index `i`, keeping the indices strictly rising. -/
def Memory.writeByte : Memory → Nat → Byte → Memory
  | [], i, v => [(i, v)]
  | (a, w) :: m, i, v =>
    if i < a then (i, v) :: (a, w) :: m
    else if i = a then (i, v) :: m
    else (a, w) :: Memory.writeByte m i v

/-- Stores a sequence at the indices from `i` on, in ascending order (R54). -/
def Memory.writeSeq (m : Memory) (i : Nat) : List Byte → Memory
  | [] => m
  | v :: vs => Memory.writeSeq (Memory.writeByte m i v) (i + 1) vs

/-- The canonical form: indices strictly rising (log 4). -/
def Memory.wf : Memory → Bool
  | [] => true
  | [_] => true
  | (a, _) :: (b, w) :: m => decide (a < b) && Memory.wf ((b, w) :: m)

/-- The command-start clear of R33. -/
def State.clear (s : State) : State :=
  { s with olen := 0, status := 0x00, errCause := 0, errPos := 0, ipos := 0, acc := 0, nbits := 0, npad := 0 }

/-- `COMPLETE` (R101): `STATUS.BUSY <- 0; STATUS.DONE <- 1; PHASE <- IDLE`. -/
def State.complete (s : State) : State :=
  { s with status := setFlag (clearFlag s.status .busy) .done, phase := .idle }

/-- The refusal of a `CMD` write after the clear (R123): `STATUS.ILLCMD <- 1; STATUS.DONE <- 1`, nothing else. -/
def State.refuseIllcmd (s : State) : State :=
  { s with status := setFlag (setFlag s.status .illcmd) .done }

/-- `emit(v)` of 40_bitpack_engine.md section 6: `OBUF[OLEN] <- v; OLEN <- OLEN + 1`. -/
def State.emit (s : State) (v : Byte) : State :=
  { s with obuf := Memory.writeByte s.obuf s.olen v, olen := s.olen + 1 }

/-- Draws one free value: advances the model's counter (log 5). -/
def State.draw (s : State) : State := { s with draws := s.draws + 1 }

/-- `ERRCAUSE <- cause; ERRPOS <- pos` (R119), or any cause in 1..5 and any position where the parameters leave the
advisory registers free (R120, U1; log 6). The two free values are tied to no other: they have constants of their own, and
`draws` moves on (log 5). -/
def State.saveErrInfo (s : State) (cause : Cause) (pos : Nat) : State :=
  match s.params.errInfo with
  | .reference => { s with errCause := cause.code, errPos := pos }
  | .free =>
    { s.draw with
      errCause := BitVec.ofNat 3 (1 + Config.freeCause s.copyId s.draws % 5)
      errPos := Config.freePos s.copyId s.draws % 2 ^ s.params.lenw }

/-- Taking the exception `InvalidEncoding` (R121; at the micro-step level R100): no output, the cause and the position are
saved, `ERR` is set, and the command is complete. There is no vector, no saved status and no return operation (R121,
R124): the next accepted `CMD` write clears what was saved. -/
def State.raiseInvalidEncoding (s : State) (cause : Cause) (pos : Nat) : State :=
  let s := s.saveErrInfo cause pos
  State.complete { s with olen := 0, status := setFlag s.status .err }

/-- What stands for a return from the exception (R124): nothing is restored, the next accepted `CMD` write clears the
saved registers and goes on. It is the command-start clear. -/
def State.leaveException (s : State) : State := s.clear

/-- The effect of `Reset` (R136): registers 0, `PHASE = IDLE`, every element of both buffers any value. The host's own
further operations stay (log 3). -/
def State.applyReset (s : State) : State :=
  { s with
    ilen := 0, olen := 0, status := 0x00, errCause := 0, errPos := 0, phase := .idle, cur := 0, ipos := 0, acc := 0,
    nbits := 0, npad := 0, ibuf := [], obuf := [], resets := s.resets + 1 }

end Sys2Proof.Machine
end

