-- ==== Sys2Proof/Machine/Operands.lean ====
section
/-! DEFINITION. The implicit operands of a command (R65): `in = IBUF[0..ILEN)`, and the fields of `CUR` (R38). -/

namespace Sys2Proof.Machine

/-- `IBUF[i]`: the stored element, or the open value it has held since the last reset (R25, U5; log 4), one for each copy,
reset and index (log 14). -/
def State.ibufAt (s : State) (i : Nat) : Byte := (Memory.readByte s.ibuf i).getD (Config.ibufReset s.copyId s.resets i)

/-- `in = IBUF[0..ILEN)` (R104, R108). -/
def State.input (s : State) : List Byte := (List.range s.ilen).map s.ibufAt

/-- `OBUF[0..OLEN)`, the result sequence (R26). -/
def State.result (s : State) : List (Option Byte) := (List.range s.olen).map (Memory.readByte s.obuf)

/-- The value latched in `CUR`: the three low bits of the command word (R38). -/
def curOf (c : Codec) (op : Op) : BitVec 3 := c.bits ++ op.bits

/-- `c = CUR[2]` (R38). -/
def State.codec (s : State) : Codec := if s.cur.getLsbD 2 then .base64url else .base32

/-- `op = CUR[1:0]` (R38). -/
def State.opBits (s : State) : BitVec 2 := s.cur.extractLsb' 0 2

end Sys2Proof.Machine
end

