-- ==== Sys2Proof/Machine/Micro.lean ====
section
/-! DEFINITION. The micro-step datapath (R94 to R101): the start of a command and the core's steps. -/

namespace Sys2Proof.Machine

/-- `FAIL(cause, pos)` (R100): a decode takes `InvalidEncoding`; a validate only completes. -/
def State.failCheck (s : State) (cause : Cause) (pos : Nat) : State :=
  if s.opBits = Op.decode.bits then s.raiseInvalidEncoding cause pos else s.complete

/-- `START` of an accepted command word, after the clear and past the refusal (R94). -/
def State.start (s : State) (c : Codec) (op : Op) : State :=
  let s := { s with cur := curOf c op }
  match op with
  | .encode => { s with status := setFlag s.status .busy, phase := .eRun }
  | .decode | .validate =>
    if s.ilen % blockSize c ≠ 0 then s.failCheck .length s.ilen
    else { s with status := setFlag s.status .busy, phase := .dRun }

/-- The loop of `E_RUN`: while `NBITS >= k`, emit the top group of `ACC` (R95). `NBITS` has 4 bits and k is at least 5, so
three rounds are every round the loop can take (log 16). -/
def State.drain : Nat → State → State
  | 0, s => s
  | n + 1, s =>
    let k := groupBits s.codec
    let left := s.nbits.toNat - k
    if s.nbits.toNat ≥ k then
      let s1 := s.emit (encLut s.codec ((s.acc.toNat >>> left) % 2 ^ k))
      State.drain n { s1 with nbits := BitVec.ofNat 4 left, acc := BitVec.ofNat 12 (s.acc.toNat % 2 ^ left) }
    else s

/-- Step `E_RUN` (R95): consume one byte, or find the end of the input. -/
def State.stepERun (s : State) : State :=
  if s.ipos < s.ilen then
    State.drain 3
      { s with
        acc := (s.acc <<< 8) ||| (s.ibufAt s.ipos).zeroExtend 12
        nbits := s.nbits + 8
        ipos := s.ipos + 1 }
  else { s with phase := .eFlush }

/-- Step `E_FLUSH` (R96): the short final chunk, right-padded with zero bits. -/
def State.stepEFlush (s : State) : State :=
  let k := groupBits s.codec
  if s.nbits.toNat > 0 then
    let s1 := s.emit (encLut s.codec ((s.acc.toNat <<< (k - s.nbits.toNat)) % 2 ^ k))
    { s1 with nbits := 0, acc := 0, phase := .ePad }
  else { s with phase := .ePad }

/-- Step `E_PAD` (R97): append a pad, or complete. -/
def State.stepEPad (s : State) : State :=
  if s.olen % blockSize s.codec ≠ 0 then s.emit padChar else s.complete

/-- The part of `D_RUN` that takes a data symbol's value into `ACC` and extracts a whole byte, which only a decode writes
(R98). -/
def State.takeSymbol (s : State) (v : Nat) : State :=
  let k := groupBits s.codec
  let acc := (s.acc <<< k) ||| BitVec.ofNat 12 v
  let nbits := s.nbits.toNat + k
  if nbits ≥ 8 then
    let left := nbits - 8
    let s1 := if s.opBits = Op.decode.bits then s.emit (BitVec.ofNat 8 (acc.toNat >>> left)) else s
    { s1 with acc := BitVec.ofNat 12 (acc.toNat % 2 ^ left), nbits := BitVec.ofNat 4 left, ipos := s.ipos + 1 }
  else { s with acc := acc, nbits := BitVec.ofNat 4 nbits, ipos := s.ipos + 1 }

/-- Step `D_RUN` (R98): consume one character, or find the end of the input. -/
def State.stepDRun (s : State) : State :=
  if s.ipos < s.ilen then
    let x := s.ibufAt s.ipos
    if x = padChar then { s with npad := s.npad + 1, ipos := s.ipos + 1 }
    else match decLut s.codec x with
      | none => s.failCheck .char s.ipos
      | some v => if s.npad > 0 then s.failCheck .padOrder s.ipos else s.takeSymbol v
  else { s with phase := .dFinal }

/-- Step `D_FINAL` (R99): the padding validator and the trailing-bits check. -/
def State.stepDFinal (s : State) : State :=
  if s.npad ∉ padSet s.codec then s.failCheck .padCount (s.ilen - s.npad)
  else if s.acc ≠ 0 then s.failCheck .trailing (s.ilen - s.npad - 1)
  else if s.opBits = Op.validate.bits then State.complete { s with status := setFlag s.status .valid }
  else s.complete

/-- One step of the core: the step its `PHASE` enables; `IDLE` enables none (40_bitpack_engine.md section 6). -/
def State.coreStep (s : State) : State :=
  match s.phase with
  | .idle => s
  | .eRun => s.stepERun
  | .eFlush => s.stepEFlush
  | .ePad => s.stepEPad
  | .dRun => s.stepDRun
  | .dFinal => s.stepDFinal

end Sys2Proof.Machine
end

