-- ==== Sys2Proof/Machine/Command.lean ====
section
/-! DEFINITION. What a write to `CMD` does (R27, R33, R94, R104, R108, R123, R126): shared by the meanings of all commands. -/

namespace Sys2Proof.Machine

/-- The architectural effect of an encode command after the clear (R105, R109). -/
def State.archEncode (s : State) (c : Codec) : State :=
  let out := encodeBytes c s.input
  { s with
    obuf := Memory.writeSeq s.obuf 0 out, olen := out.length
    status := statusWord false true false false false, phase := .idle }

/-- The architectural effect of a decode command after the clear (R106, R110). -/
def State.archDecode (s : State) (c : Codec) : State :=
  match decodeString c s.input with
  | .invalidEncoding cause pos => s.raiseInvalidEncoding cause pos
  | .bytes out =>
    { s with
      obuf := Memory.writeSeq s.obuf 0 out, olen := out.length
      status := statusWord false true false false false, phase := .idle }

/-- The architectural effect of a validate command after the clear (R107, R111). -/
def State.archValidate (s : State) (c : Codec) : State :=
  { s with status := statusWord false true false (isValid c s.input) false, phase := .idle }

/-- A command as one atomic transaction (R7, R105 to R111); `CUR` is latched as at the micro-step level (log 9). -/
def State.archCommand (s : State) (c : Codec) (op : Op) : State :=
  let s := { s with cur := curOf c op }
  match op with
  | .encode => s.archEncode c
  | .decode => s.archDecode c
  | .validate => s.archValidate c

/-- A `CMD` write of one of the six commands: ignored while `BUSY = 1` (R138); else the clear (R33), the refusal of an
over-long input (R123), and the command at the level of description the parameters choose (R7; log 1). -/
def State.runCommand (s : State) (c : Codec) (op : Op) : State :=
  if s.busy then s
  else
    let s := s.clear
    if s.ilen > s.params.inCap then s.refuseIllcmd
    else match s.params.level with
      | .architectural => s.archCommand c op
      | .microStep => s.start c op

/-- A `CMD` write of a reserved word: ignored while `BUSY = 1` (R138); else the clear and the refusal (R123). -/
def State.runReserved (s : State) : State :=
  if s.busy then s else s.clear.refuseIllcmd

end Sys2Proof.Machine
end

