-- ==== Sys2Proof/Machine/Base32.lean ====
section
/-! DEFINITION. The Base32 commands (41_base32.md). -/

namespace Sys2Proof.Machine

/-- `ENC32`, command word 0x00 (R105). -/
def execEnc32 (s : State) : Host.Outcome State Fault Refusal := .next (s.runCommand .base32 .encode)

/-- `DEC32`, command word 0x01 (R106). -/
def execDec32 (s : State) : Host.Outcome State Fault Refusal := .next (s.runCommand .base32 .decode)

/-- `VAL32`, command word 0x02 (R107). -/
def execVal32 (s : State) : Host.Outcome State Fault Refusal := .next (s.runCommand .base32 .validate)

end Sys2Proof.Machine
end

