-- ==== Sys2Proof/Machine/Base64Url.lean ====
section
/-! DEFINITION. The Base64-URL commands (42_base64url.md). -/

namespace Sys2Proof.Machine

/-- `ENC64U`, command word 0x04 (R109). -/
def execEnc64u (s : State) : Host.Outcome State Fault Refusal := .next (s.runCommand .base64url .encode)

/-- `DEC64U`, command word 0x05 (R110). -/
def execDec64u (s : State) : Host.Outcome State Fault Refusal := .next (s.runCommand .base64url .decode)

/-- `VAL64U`, command word 0x06 (R111). -/
def execVal64u (s : State) : Host.Outcome State Fault Refusal := .next (s.runCommand .base64url .validate)

end Sys2Proof.Machine
end

