-- ==== Sys2Proof/Machine/Reserved.lean ====
section
/-! DEFINITION. The reserved command words (R64): each is refused with `ILLCMD` (R123), whatever its open bits. -/

namespace Sys2Proof.Machine

/-- `RESERVED_OP11`: `OP` = 11 (R64, R123). -/
def execReservedOp11 (_hi : BitVec 6) (s : State) : Host.Outcome State Fault Refusal := .next s.runReserved

/-- `RESERVED_BIT7`: bit 7 of `ZERO` set (R64, R123). -/
def execReservedBit7 (_lo : BitVec 7) (s : State) : Host.Outcome State Fault Refusal := .next s.runReserved

/-- `RESERVED_BIT6`: bit 6 of `ZERO` set (R64, R123). -/
def execReservedBit6 (_hi : BitVec 1) (_lo : BitVec 6) (s : State) : Host.Outcome State Fault Refusal := .next s.runReserved

/-- `RESERVED_BIT5`: bit 5 of `ZERO` set (R64, R123). -/
def execReservedBit5 (_hi : BitVec 2) (_lo : BitVec 5) (s : State) : Host.Outcome State Fault Refusal := .next s.runReserved

/-- `RESERVED_BIT4`: bit 4 of `ZERO` set (R64, R123). -/
def execReservedBit4 (_hi : BitVec 3) (_lo : BitVec 4) (s : State) : Host.Outcome State Fault Refusal := .next s.runReserved

/-- `RESERVED_BIT3`: bit 3 of `ZERO` set (R64, R123). -/
def execReservedBit3 (_hi : BitVec 4) (_lo : BitVec 3) (s : State) : Host.Outcome State Fault Refusal := .next s.runReserved

end Sys2Proof.Machine
end

