-- ==== Sys2Proof/Machine/Dispatch.lean ====
section
/-! DEFINITION. The effect of a command word written to `CMD`: one arm per row of spec/opcode_table.json. -/

namespace Sys2Proof.Machine

def exec (i : Instr) (s : State) : Host.Outcome State Fault Refusal :=
  match i with
  | .enc32 => Sys2Proof.Machine.execEnc32 s
  | .dec32 => Sys2Proof.Machine.execDec32 s
  | .val32 => Sys2Proof.Machine.execVal32 s
  | .enc64u => Sys2Proof.Machine.execEnc64u s
  | .dec64u => Sys2Proof.Machine.execDec64u s
  | .val64u => Sys2Proof.Machine.execVal64u s
  | .reservedOp11 hi => Sys2Proof.Machine.execReservedOp11 hi s
  | .reservedBit7 lo => Sys2Proof.Machine.execReservedBit7 lo s
  | .reservedBit6 hi lo => Sys2Proof.Machine.execReservedBit6 hi lo s
  | .reservedBit5 hi lo => Sys2Proof.Machine.execReservedBit5 hi lo s
  | .reservedBit4 hi lo => Sys2Proof.Machine.execReservedBit4 hi lo s
  | .reservedBit3 hi lo => Sys2Proof.Machine.execReservedBit3 hi lo s

end Sys2Proof.Machine
end

