-- ==== Sys2Proof/Machine/HostPort.lean ====
section
/-! DEFINITION. The host's ports (R46, R55): register and buffer reads and writes, `WAIT`, and what each event does. -/

namespace Sys2Proof.Machine

/-- The register numbers of R55. -/
def regCmd : Nat := 0
def regStatus : Nat := 1
def regIlen : Nat := 2
def regOlen : Nat := 3
def regErrCause : Nat := 4
def regErrPos : Nat := 5

/-- The read port answers `v`. A read changes nothing of the block (R52). -/
def State.answer (s : State) (v : Nat) : State := { s with rdata := v }

/-- The read port answers any value below `bound` (U3; log 5). -/
def State.answerAnyBelow (s : State) (bound : Nat) : State := s.draw.answer (Config.freeNat s.copyId s.draws % bound)

/-- A register whose value the host may read only while no command runs (R139): any value of its width while `BUSY = 1`. -/
def State.answerResult (s : State) (width v : Nat) : State :=
  if s.busy then s.answerAnyBelow (2 ^ width) else s.answer v

/-- `HostRead(reg)` (R55, R27 to R32, R139); a register number above 5 answers any value (U4). -/
def State.hostRead (s : State) (reg : Nat) : State :=
  if reg = regCmd then s.answer 0
  else if reg = regStatus then s.answer s.status.toNat
  else if reg = regIlen then s.answer s.ilen
  else if reg = regOlen then s.answerResult s.params.lenw s.olen
  else if reg = regErrCause then s.answerResult 3 s.errCause.toNat
  else if reg = regErrPos then s.answerResult s.params.lenw s.errPos
  else s.draw.answer (Config.freeNat s.copyId s.draws)

/-- `HostReadIBUF(i)`: the stored value, also while a command runs (R139); any value outside the buffer (U4). -/
def State.hostReadIbuf (s : State) (i : Nat) : State :=
  if i < s.params.inCap then s.answer (s.ibufAt i).toNat else s.draw.answer (Config.freeByte s.copyId s.draws).toNat

/-- `HostReadOBUF(i)`: the result element for `i < OLEN` (R26); any value while `BUSY = 1` (R139), at or above `OLEN`
(U2) and outside the buffer (U4). -/
def State.hostReadObuf (s : State) (i : Nat) : State :=
  if s.busy || decide (i ≥ s.olen) || decide (i ≥ s.params.outCap) then s.draw.answer (Config.freeByte s.copyId s.draws).toNat
  else match Memory.readByte s.obuf i with
    | some v => s.answer v.toNat
    | none => s.draw.answer (Config.freeByte s.copyId s.draws).toNat

/-- `HostWrite(reg, v)` for a register other than `CMD`: only `ILEN` is writable (R28, R52, U9), not while `BUSY = 1`
(R138); the port carries `LENW` bits (R144). A register number above 5 is ignored (U4). -/
def State.hostWriteReg (s : State) (reg v : Nat) : State :=
  if reg = regIlen ∧ ¬ s.busy then { s with ilen := v % 2 ^ s.params.lenw } else s

/-- `HostWriteIBUF(i, v)`: ignored while `BUSY = 1` (R138) and outside the buffer (U4). -/
def State.hostWriteIbuf (s : State) (i : Nat) (v : Byte) : State :=
  if i < s.params.inCap ∧ ¬ s.busy then { s with ibuf := Memory.writeByte s.ibuf i v } else s

/-- A host write to `OBUF` is ignored at all times (R52, U9). -/
def State.hostWriteObuf (s : State) (_i : Nat) (_v : Byte) : State := s

/-- One poll of `WAIT` (R72), taken when `WAIT` is the first pending event: it reads `STATUS`; when it reads `DONE = 1` the
wait is over, else it stays first and the core moves, which is the fairness of R145 (log 15). -/
def State.pollDone (s : State) (rest : List Event) : State :=
  if s.done then { s.answer s.status.toNat with pending := rest }
  else (s.answer s.status.toNat).coreStep

/-- One host operation, the first of `pending`; `rest` are the events after it. A `CMD` write runs the command word in its
bits 7:0 (R27). -/
def State.hostOp (s : State) (op : HostOp) (rest : List Event) : Host.Outcome State Fault Refusal :=
  let s' := { s with pending := rest }
  match op with
  | .write reg v => if reg = regCmd then exec (decodeWord (commandWord v)) s' else .next (s'.hostWriteReg reg v)
  | .read reg => .next (s'.hostRead reg)
  | .writeIbuf i v => .next (s'.hostWriteIbuf i v)
  | .readIbuf i => .next (s'.hostReadIbuf i)
  | .writeObuf i v => .next (s'.hostWriteObuf i v)
  | .readObuf i => .next (s'.hostReadObuf i)
  | .waitDone => .next (s.pollDone rest)

/-- The next event: the first pending one; with none pending the core moves (log 3). -/
def State.nextEvent (s : State) : Host.Outcome State Fault Refusal :=
  match s.pending with
  | [] => .next s.coreStep
  | .core :: rest => .next { s with pending := rest }.coreStep
  | .reset :: rest => .next { s with pending := rest }.applyReset
  | .host op :: rest => s.hostOp op rest

/-- Ends a running command where it stands, so that a `CMD` write is accepted; an idle block is unchanged. Used only to
place a command word (log 13). -/
def State.idleForWord (s : State) : State := if s.busy then s.complete else s

/-- `s` about to run the command word whose low `nbits` bits are `w`: a `CMD` write of it is the next event (log 13). -/
def State.placeWord (s : State) (nbits w : Nat) : State :=
  { s.idleForWord with pending := .host (.write regCmd (w % 2 ^ nbits)) :: s.pending }

end Sys2Proof.Machine
end

