-- ==== Sys2Proof/Machine/Step.lean ====
section
/-! DEFINITION. One step of the machine: the next event (log 3). A command word is fetched from the host's `CMD` write (R27,
R35). -/

namespace Sys2Proof.Machine

/-- One step: the first pending event, or a core step where none is pending. -/
def step (s : State) : Host.Outcome State Fault Refusal := s.nextEvent

/-- `s` with a `CMD` write of the word as its next event, accepted because no command runs (log 13). -/
def State.withFetchWord (s : State) (nbits w : Nat) : State := s.placeWord nbits w

end Sys2Proof.Machine
end

