-- ==== Sys2Proof/Machine/Notation.lean ====
section
/-! DEFINITION. The host notation of 30_encoding.md section 3: the pseudo-operations and their expansions (R72, R73). -/

namespace Sys2Proof.Machine

/-- The code of a character that fits one element; a wider character has none and must not be truncated (R11, D3). -/
def charCode (ch : Char) : Option Byte := if ch.toNat < 256 then some (BitVec.ofNat 8 ch.toNat) else none

/-- The codes of a text, where every character has one. -/
def textCodes (text : String) : Option (List Byte) := text.toList.mapM charCode

/-- `WRI i, v` for the elements of a sequence, indices ascending from `i`. -/
def writeElements (i : Nat) : List Byte → List HostOp
  | [] => []
  | v :: vs => .writeIbuf i v :: writeElements (i + 1) vs

/-- `LOADX`: the bytes to `IBUF[0..n)`, then `WR ILEN, n` (R73). -/
def loadBytes (b : List Byte) : List HostOp := writeElements 0 b ++ [.write regIlen b.length]

/-- `LOAD "text"` (R73). -/
def loadText (text : String) : Option (List HostOp) := (textCodes text).map loadBytes

/-- `RUN w`: `WR CMD, w` then `WAIT` (R73). -/
def runWord (w : Byte) : List HostOp := [.write regCmd w.toNat, .waitDone]

/-- `READOUT`, given the value `n` that `RD OLEN` answers (R73). -/
def readOut (n : Nat) : List HostOp := .read regOlen :: (List.range n).map .readObuf

/-- `COPYBACK`, given the values the read-out answers (R73): the result becomes the next input. -/
def copyBack (values : List Byte) : List HostOp := readOut values.length ++ loadBytes values

end Sys2Proof.Machine
end

