-- ==== Sys2Proof/Machine/System.lean ====
section
/-! DEFINITION. `NUM_INSTANCES` independent copies of the block (R60): a list of states that share nothing. Each copy has a
number of its own, so that the open values of two copies are unrelated (log 14). -/

namespace Sys2Proof.Machine

/-- `n` copies after reset, numbered in order. -/
def resetCopies (n : Nat) : List State := (List.range n).map fun i => { State.reset with copyId := i }

/-- One step of the instance at index `n`; an index without an instance changes nothing. -/
def stepInstance (n : Nat) (sys : List State) : Host.Outcome (List State) Fault Refusal :=
  match sys[n]? with
  | none => .next sys
  | some s =>
    match step s with
    | .next s' => .next (sys.set n s')
    | .fault r => .fault r
    | .refused r => .refused r

end Sys2Proof.Machine
end

