-- ==== Sys2Proof/Safety.lean ====
section
/-! DEFINITION. The terms claims are stated in: the invariant of every reachable state, the agreement of the two levels of
description, the step counts, and what makes a string a valid encoding. -/

namespace Sys2Proof.Machine

/-- The outcome registers of a state hold one of the six combinations of R30, with the values of `OLEN`, `ERRCAUSE` and
`ERRPOS` that go with it (R29, R31, R32, R112, R121, R123), and `BUSY = 1` exactly while `PHASE` is not `IDLE` (R37). -/
def State.OutcomeOk (s : State) : Prop :=
  (s.status = 0x01 ∧ s.phase ≠ .idle ∧ s.errCause = 0 ∧ s.errPos = 0) ∨
  (s.phase = .idle ∧
    ((s.status = 0x00 ∧ s.olen = 0 ∧ s.errCause = 0 ∧ s.errPos = 0) ∨
     (s.status = 0x02 ∧ s.errCause = 0 ∧ s.errPos = 0) ∨
     (s.status = 0x06 ∧ s.olen = 0 ∧ 1 ≤ s.errCause.toNat ∧ s.errCause.toNat ≤ 5) ∨
     (s.status = 0x0A ∧ s.olen = 0 ∧ s.errCause = 0 ∧ s.errPos = 0) ∨
     (s.status = 0x12 ∧ s.olen = 0 ∧ s.errCause = 0 ∧ s.errPos = 0)))

/-- What every running command keeps: its input fits, and `ACC`, `IPOS`, `NPAD` are in range (R39, R40, R42, R123). -/
def State.ScanOk (s : State) : Prop :=
  s.ilen ≤ s.params.inCap ∧ s.ipos ≤ s.ilen ∧ s.npad ≤ s.ipos ∧ s.acc.toNat < 2 ^ s.nbits.toNat

/-- A running encode has emitted every whole group of the bits it has read and holds the rest (R95, R41). -/
def State.EncodeRunOk (s : State) : Prop :=
  s.ScanOk ∧ s.opBits = Op.encode.bits ∧
    groupBits s.codec * s.olen + s.nbits.toNat = 8 * s.ipos ∧ s.nbits.toNat < groupBits s.codec

/-- A running decode has emitted every whole byte of the symbols it has read, a validate none (R98, R41). -/
def State.DecodeRunOk (s : State) : Prop :=
  s.ScanOk ∧ s.ilen % blockSize s.codec = 0 ∧ s.nbits.toNat ≤ 7 ∧
    ((s.opBits = Op.decode.bits ∧ 8 * s.olen + s.nbits.toNat = groupBits s.codec * (s.ipos - s.npad)) ∨
     (s.opBits = Op.validate.bits ∧ s.olen = 0 ∧ s.nbits.toNat = groupBits s.codec * (s.ipos - s.npad) % 8))

/-- What holds of the datapath in each phase (R94 to R99); in `IDLE` nothing (U15). -/
def State.DatapathOk (s : State) : Prop :=
  match s.phase with
  | .idle => True
  | .eRun => s.EncodeRunOk
  | .eFlush => s.EncodeRunOk ∧ s.ipos = s.ilen
  | .ePad =>
    s.ScanOk ∧ s.opBits = Op.encode.bits ∧ s.ipos = s.ilen ∧ s.nbits = 0 ∧
      groupCount (groupBits s.codec) s.ilen ≤ s.olen ∧
      s.olen ≤ blockSize s.codec * ((s.ilen + blockBytes s.codec - 1) / blockBytes s.codec)
  | .dRun => s.DecodeRunOk
  | .dFinal => s.DecodeRunOk ∧ s.ipos = s.ilen

/-- The invariant of the machine: parameters within R10, both buffers in canonical form and within their capacity (R53),
every `LENW`-bit register within its width (R28, R29, R32, R39, R42, R86), a determined result sequence (R26), one of the
six outcomes (R30), and the datapath as its phase says (R37 to R42). -/
structure State.Inv (s : State) : Prop where
  params_ok : s.params.ok = true
  ibuf_wf : Memory.wf s.ibuf = true
  obuf_wf : Memory.wf s.obuf = true
  ibuf_in : ∀ cell ∈ s.ibuf, cell.1 < s.params.inCap
  obuf_in : ∀ cell ∈ s.obuf, cell.1 < s.params.outCap
  ilen_width : s.ilen < 2 ^ s.params.lenw
  errPos_width : s.errPos < 2 ^ s.params.lenw
  ipos_width : s.ipos < 2 ^ s.params.lenw
  npad_width : s.npad < 2 ^ s.params.lenw
  olen_le : s.olen ≤ s.params.outCap
  result_determined : ∀ i < s.olen, (Memory.readByte s.obuf i).isSome
  outcome_ok : s.OutcomeOk
  datapath_ok : s.DatapathOk

/-- The same state at the other level of description (R7). -/
def State.atLevel (s : State) (l : Level) : State := { s with params := { s.params with level := l } }

/-- A state without what no host can observe of an idle block (R43, U2, U15): the level, the datapath registers and the
stored `OBUF` elements, of which `State.result` keeps those below `OLEN`. -/
def State.scrub (s : State) : State :=
  { s.atLevel .architectural with obuf := [], cur := 0, ipos := 0, acc := 0, nbits := 0, npad := 0 }

/-- Two states a host cannot tell apart while idle: `OBUF[0..OLEN)`, `STATUS`, `OLEN`, `ERRCAUSE`, `ERRPOS` and everything
else it can read agree (R102). -/
def State.SameResults (a b : State) : Prop := a.scrub = b.scrub ∧ a.result = b.result

/-- The number of core steps after the start of an encode of n bytes: `n + P + 3` (R103). -/
def encodeSteps (c : Codec) (n : Nat) : Nat := n + padGen (blockSize c) (groupCount (groupBits c) n) + 3

/-- The number of core steps after the start of a decode or a validate of `str` (R103). -/
def scanSteps (c : Codec) (str : List Byte) : Nat :=
  if str.length % blockSize c ≠ 0 then 0
  else match scan c 0 0 str with
    | .fail _ i => i + 1
    | .pads _ => str.length + 2

/-- The character at index `i` is a symbol of the codec (R14). -/
def symbolAt (c : Codec) (str : List Byte) (i : Nat) : Prop := ∃ x, str[i]? = some x ∧ (decLut c x).isSome

/-- The character at index `i` is the pad character. -/
def padAt (str : List Byte) (i : Nat) : Prop := str[i]? = some padChar

/-- Index `i` violates check 2: its character is neither a pad nor a symbol (R119). -/
def charViolation (c : Codec) (str : List Byte) (i : Nat) : Prop := i < str.length ∧ ¬ padAt str i ∧ ¬ symbolAt c str i

/-- Index `i` violates check 3: it is a symbol with a pad below it (R119). -/
def padOrderViolation (c : Codec) (str : List Byte) (i : Nat) : Prop := symbolAt c str i ∧ ∃ j < i, padAt str j

/-- No index below `n` violates check 2 or 3. -/
def cleanBelow (c : Codec) (str : List Byte) (n : Nat) : Prop :=
  ∀ i < n, ¬ charViolation c str i ∧ ¬ padOrderViolation c str i

/-- A valid encoding, said of the string's shape alone (R66): D symbols, then P pads; the length a multiple of B; P a pad
count an encoder produces; the trailing bits of the last symbol 0. -/
def ValidShape (c : Codec) (str : List Byte) : Prop :=
  ∃ d p, str.length = d + p ∧ str.length % blockSize c = 0 ∧ p ∈ padSet c ∧
    (∀ i < d, symbolAt c str i) ∧ (∀ i, d ≤ i → i < d + p → padAt str i) ∧
    (0 < d → symbolValue c str (d - 1) % 2 ^ trailingCount c d = 0)

end Sys2Proof.Machine
end

