-- ==== Sys2Proof/Certificates/Slice0/Obligations.lean ====
section
/-! DEFINITION. The statements for the provers; OBLIGATIONS.json lists them in this order. -/

open Sys2Proof Sys2Proof.Machine

/-! ### Command words -/

/-- Reading the words of a well-formed instruction gives it back, with what follows it left over (R62 to R64). -/
def Obligations.DecodeOfEncodeIsTheInstruction : Prop :=
  ∀ (i : Instr) (rest : List Byte), i.wf = true → decode (encode i ++ rest) = .ok (i, rest)

/-- Each of the 256 words is the word of the instruction it decodes to, which is well-formed: no bit of a word is lost. -/
def Obligations.EncodeOfDecodeIsTheWord : Prop :=
  ∀ w : Byte, encodeWord (decodeWord w) = w ∧ (decodeWord w).wf = true

/-- R63: the exact word that selects each of the six commands. -/
def Obligations.SixWordsSelectTheSixCommands : Prop :=
  ∀ w : Byte,
    (decodeWord w = .enc32 ↔ w = 0x00) ∧ (decodeWord w = .dec32 ↔ w = 0x01) ∧ (decodeWord w = .val32 ↔ w = 0x02) ∧
    (decodeWord w = .enc64u ↔ w = 0x04) ∧ (decodeWord w = .dec64u ↔ w = 0x05) ∧ (decodeWord w = .val64u ↔ w = 0x06)

/-! ### A step, and when a command runs -/

/-- When the next event is a `CMD` write, the step is `exec` of the word in its low 8 bits, at the state with that event
taken (R27; that an event list stands for the host is the model's choice, log 3). -/
def Obligations.StepRunsTheWrittenCommand : Prop :=
  ∀ (s : State) (v : Nat) (rest : List Event), s.pending = .host (.write 0 v) :: rest →
    step s = exec (decodeWord (BitVec.ofNat 8 v)) { s with pending := rest }

/-- A placed command word is what the very next step runs: on an idle block at the state itself, on a busy block at the
state whose running command is ended (log 13). -/
def Obligations.StepRunsThePlacedWord : Prop :=
  ∀ (s : State) (w : Nat),
    (s.busy = false → step (s.withFetchWord 8 w) = exec (decodeWord (BitVec.ofNat 8 w)) s) ∧
    (∃ t, step (s.withFetchWord 8 w) = exec (decodeWord (BitVec.ofNat 8 w)) t ∧ t.busy = false ∧
      { t with status := s.status, phase := s.phase } = s)

/-- R118, R144: there is no hang and no stop; from every state, reachable or not, a step answers a next state. -/
def Obligations.EveryStepAnswersNext : Prop :=
  ∀ s : State, ∃ t, step s = .next t

/-- R123: an accepted `CMD` write of a word that is no command, or of any word while `ILEN > IN_CAP`, is refused: the clear,
`DONE` and `ILLCMD`, and nothing else changes. -/
def Obligations.RefusedCommandWrites : Prop :=
  ∀ (s : State) (w : Byte), s.busy = false →
    (w ∉ [0x00#8, 0x01#8, 0x02#8, 0x04#8, 0x05#8, 0x06#8] ∨ s.ilen > s.params.inCap) →
    exec (decodeWord w) s = .next
      { s with olen := 0, status := 0x12, errCause := 0, errPos := 0, ipos := 0, acc := 0, nbits := 0, npad := 0 }

/-- Every form of every reserved row completes as refused when the block is idle (R123), and changes nothing when a command
runs (R138). -/
def Obligations.ReservedRowsAreRefused : Prop :=
  ∀ s : State,
    let t : State :=
      if s.busy then s
      else { s with olen := 0, status := 0x12, errCause := 0, errPos := 0, ipos := 0, acc := 0, nbits := 0, npad := 0 }
    (∀ hi, exec (.reservedOp11 hi) s = .next t) ∧
    (∀ lo, exec (.reservedBit7 lo) s = .next t) ∧
    (∀ hi lo, exec (.reservedBit6 hi lo) s = .next t) ∧
    (∀ hi lo, exec (.reservedBit5 hi lo) s = .next t) ∧
    (∀ hi lo, exec (.reservedBit4 hi lo) s = .next t) ∧
    (∀ hi lo, exec (.reservedBit3 hi lo) s = .next t)

/-! ### The six commands, architectural level -/

/-- R105: the result of `ENC32`. -/
def Obligations.Enc32Result : Prop :=
  ∀ s : State, s.busy = false → s.ilen ≤ s.params.inCap → s.params.level = .architectural →
    ∃ t, exec .enc32 s = .next t ∧ t.result = (encodeBytes .base32 s.input).map some ∧ t.olen = 8 * ((s.ilen + 4) / 5) ∧
      t.status = 0x02 ∧ t.errCause = 0 ∧ t.errPos = 0 ∧ t.phase = .idle ∧ t.ibuf = s.ibuf ∧ t.ilen = s.ilen

/-- R109: the result of `ENC64U`. -/
def Obligations.Enc64uResult : Prop :=
  ∀ s : State, s.busy = false → s.ilen ≤ s.params.inCap → s.params.level = .architectural →
    ∃ t, exec .enc64u s = .next t ∧ t.result = (encodeBytes .base64url s.input).map some ∧ t.olen = 4 * ((s.ilen + 2) / 3) ∧
      t.status = 0x02 ∧ t.errCause = 0 ∧ t.errPos = 0 ∧ t.phase = .idle ∧ t.ibuf = s.ibuf ∧ t.ilen = s.ilen

/-- R106, R121: the result of `DEC32`: the decoded bytes, `5 * D div 8` of them, or the exception `InvalidEncoding` with no
output. The values of `ERRCAUSE` and `ERRPOS` are the reference ones where the parameters choose them (R120). -/
def Obligations.Dec32Result : Prop :=
  ∀ s : State, s.busy = false → s.ilen ≤ s.params.inCap → s.params.level = .architectural →
    ∃ t, exec .dec32 s = .next t ∧ t.phase = .idle ∧ t.ibuf = s.ibuf ∧ t.ilen = s.ilen ∧
      (∀ d p, checkString .base32 s.input = .ok d p →
        ∃ out, decodeString .base32 s.input = .bytes out ∧ t.result = out.map some ∧ t.olen = 5 * d / 8 ∧
          d = s.ilen - p ∧ t.status = 0x02 ∧ t.errCause = 0 ∧ t.errPos = 0) ∧
      (∀ cause pos, checkString .base32 s.input = .fail cause pos →
        t.olen = 0 ∧ t.status = 0x06 ∧ 1 ≤ t.errCause.toNat ∧ t.errCause.toNat ≤ 5 ∧
          (s.params.errInfo = .reference → t.errCause = cause.code ∧ t.errPos = pos))

/-- R110, R121: the result of `DEC64U`; as for `DEC32`, with `6 * D div 8` bytes. -/
def Obligations.Dec64uResult : Prop :=
  ∀ s : State, s.busy = false → s.ilen ≤ s.params.inCap → s.params.level = .architectural →
    ∃ t, exec .dec64u s = .next t ∧ t.phase = .idle ∧ t.ibuf = s.ibuf ∧ t.ilen = s.ilen ∧
      (∀ d p, checkString .base64url s.input = .ok d p →
        ∃ out, decodeString .base64url s.input = .bytes out ∧ t.result = out.map some ∧ t.olen = 6 * d / 8 ∧
          d = s.ilen - p ∧ t.status = 0x02 ∧ t.errCause = 0 ∧ t.errPos = 0) ∧
      (∀ cause pos, checkString .base64url s.input = .fail cause pos →
        t.olen = 0 ∧ t.status = 0x06 ∧ 1 ≤ t.errCause.toNat ∧ t.errCause.toNat ≤ 5 ∧
          (s.params.errInfo = .reference → t.errCause = cause.code ∧ t.errPos = pos))

/-- R107, R115: the result of `VAL32`: the answer in `STATUS.VALID`, no output, `OBUF` not written. -/
def Obligations.Val32Result : Prop :=
  ∀ s : State, s.busy = false → s.ilen ≤ s.params.inCap → s.params.level = .architectural →
    ∃ t, exec .val32 s = .next t ∧ t.status = (if isValid .base32 s.input then 0x0A else 0x02) ∧ t.olen = 0 ∧
      t.errCause = 0 ∧ t.errPos = 0 ∧ t.phase = .idle ∧ t.obuf = s.obuf ∧ t.ibuf = s.ibuf ∧ t.ilen = s.ilen

/-- R111, R115: the result of `VAL64U`. -/
def Obligations.Val64uResult : Prop :=
  ∀ s : State, s.busy = false → s.ilen ≤ s.params.inCap → s.params.level = .architectural →
    ∃ t, exec .val64u s = .next t ∧ t.status = (if isValid .base64url s.input then 0x0A else 0x02) ∧ t.olen = 0 ∧
      t.errCause = 0 ∧ t.errPos = 0 ∧ t.phase = .idle ∧ t.obuf = s.obuf ∧ t.ibuf = s.ibuf ∧ t.ilen = s.ilen

/-- R114: a validate answers 1 exactly for the strings the decode of the same codec takes without the exception. -/
def Obligations.ValidateAgreesWithDecode : Prop :=
  ∀ (c : Codec) (s : State), s.busy = false → s.ilen ≤ s.params.inCap → s.params.level = .architectural →
    ∃ v d, exec (commandInstr c .validate) s = .next v ∧ exec (commandInstr c .decode) s = .next d ∧
      (getFlag v.status .valid = true ↔ getFlag d.status .err = false)

/-! ### What a command leaves unchanged, both levels -/

/-- The frame of the encodes and the validates: only `OLEN`, `STATUS`, the error registers, `PHASE` and the datapath
registers may change, and in `OBUF` only elements below the new `OLEN`. That the stored elements at and above `OLEN`
keep their value is the model's choice (log 5): no host read shows them. -/
def Obligations.EncodeAndValidateFrame : Prop :=
  ∀ (c : Codec) (op : Op) (s t : State), op ≠ .decode → exec (commandInstr c op) s = .next t →
    { t with
      obuf := s.obuf, olen := s.olen, status := s.status, errCause := s.errCause, errPos := s.errPos, phase := s.phase
      cur := s.cur, ipos := s.ipos, acc := s.acc, nbits := s.nbits, npad := s.npad } = s ∧
    (s.busy = true → t = s) ∧
    (s.busy = false → ∀ a, t.olen ≤ a → Memory.readByte t.obuf a = Memory.readByte s.obuf a) ∧
    (op = .validate → t.obuf = s.obuf)

/-- The frame of the decodes: as for the encodes; the model's counter of free values moves only where the parameters leave
the advisory registers free (log 6). -/
def Obligations.DecodeFrame : Prop :=
  ∀ (c : Codec) (s t : State), exec (commandInstr c .decode) s = .next t →
    { t with
      obuf := s.obuf, olen := s.olen, status := s.status, errCause := s.errCause, errPos := s.errPos, phase := s.phase
      cur := s.cur, ipos := s.ipos, acc := s.acc, nbits := s.nbits, npad := s.npad, draws := s.draws } = s ∧
    (s.params.errInfo = .reference → t.draws = s.draws) ∧
    (s.busy = true → t = s) ∧
    (s.busy = false → ∀ a, t.olen ≤ a → Memory.readByte t.obuf a = Memory.readByte s.obuf a)

/-- R146, R33, R141: what a command leaves visible is a function of the command word, `ILEN` and `IBUF[0..ILEN)`: two idle
blocks that agree on these end alike, whatever their buffers hold beyond `ILEN`, their earlier results, their datapath, and
whichever copies they are. The advisory registers agree where the parameters choose the reference, or where both blocks draw
the same free values (log 6). -/
def Obligations.ResultDependsOnlyOnTheInput : Prop :=
  ∀ (i : Instr) (s₁ s₂ : State), s₁.busy = false → s₂.busy = false →
    s₁.params = s₂.params → s₁.params.level = .architectural →
    s₁.ilen = s₂.ilen → s₁.input = s₂.input →
    ∃ t₁ t₂, exec i s₁ = .next t₁ ∧ exec i s₂ = .next t₂ ∧ t₁.status = t₂.status ∧ t₁.olen = t₂.olen ∧
      t₁.result = t₂.result ∧
      (s₁.params.errInfo = .reference ∨ (s₁.copyId = s₂.copyId ∧ s₁.draws = s₂.draws) →
        t₁.errCause = t₂.errCause ∧ t₁.errPos = t₂.errPos)

/-! ### The micro-step level -/

/-- R94: the start of a command at the micro-step level. -/
def Obligations.CommandStart : Prop :=
  ∀ (c : Codec) (op : Op) (s : State), s.busy = false → s.params.level = .microStep →
    let z : State :=
      { s with olen := 0, status := 0, errCause := 0, errPos := 0, ipos := 0, acc := 0, nbits := 0, npad := 0 }
    (s.ilen > s.params.inCap → exec (commandInstr c op) s = .next { z with status := 0x12 }) ∧
    (s.ilen ≤ s.params.inCap →
      (op = .encode → exec (commandInstr c op) s = .next { z with cur := curOf c op, status := 0x01, phase := .eRun }) ∧
      (op ≠ .encode → s.ilen % blockSize c = 0 →
        exec (commandInstr c op) s = .next { z with cur := curOf c op, status := 0x01, phase := .dRun }) ∧
      (op = .validate → s.ilen % blockSize c ≠ 0 →
        exec (commandInstr c op) s = .next { z with cur := curOf c op, status := 0x02, phase := .idle }) ∧
      (op = .decode → s.ilen % blockSize c ≠ 0 →
        ∃ t, exec (commandInstr c op) s = .next t ∧ t.status = 0x06 ∧ t.phase = .idle ∧ t.olen = 0 ∧
          1 ≤ t.errCause.toNat ∧ t.errCause.toNat ≤ 5 ∧
          (s.params.errInfo = .reference → t.errCause = 1 ∧ t.errPos = s.ilen)))

/-- R95: step `E_RUN` appends the next byte to the window and emits its whole groups, most significant first. -/
def Obligations.ERunStep : Prop :=
  ∀ s : State, s.Inv → s.phase = .eRun → s.pending = [] →
    let k := groupBits s.codec
    let total := s.nbits.toNat + 8
    let window := s.acc.toNat * 256 + (s.ibufAt s.ipos).toNat
    let m := total / k
    (s.ipos = s.ilen → step s = .next { s with phase := .eFlush }) ∧
    (s.ipos < s.ilen →
      ∃ t, step s = .next t ∧ t.ipos = s.ipos + 1 ∧ t.olen = s.olen + m ∧ t.nbits.toNat = total % k ∧
        t.acc.toNat = window % 2 ^ (total % k) ∧
        (∀ j < m, Memory.readByte t.obuf (s.olen + j) = some (encLut s.codec (window / 2 ^ (total - k * (j + 1)) % 2 ^ k))) ∧
        (∀ a, a < s.olen ∨ s.olen + m ≤ a → Memory.readByte t.obuf a = Memory.readByte s.obuf a) ∧
        { t with ipos := s.ipos, olen := s.olen, nbits := s.nbits, acc := s.acc, obuf := s.obuf } = s)

/-- R96: step `E_FLUSH` emits the short final chunk, right-padded with zero bits. -/
def Obligations.EFlushStep : Prop :=
  ∀ s : State, s.phase = .eFlush → s.pending = [] →
    (s.nbits = 0 → step s = .next { s with phase := .ePad }) ∧
    (s.nbits ≠ 0 →
      ∃ t, step s = .next t ∧ t.olen = s.olen + 1 ∧
        Memory.readByte t.obuf s.olen =
          some (encLut s.codec (s.acc.toNat * 2 ^ (groupBits s.codec - s.nbits.toNat) % 2 ^ groupBits s.codec)) ∧
        (∀ a, a ≠ s.olen → Memory.readByte t.obuf a = Memory.readByte s.obuf a) ∧
        { t with obuf := s.obuf, olen := s.olen } = { s with nbits := 0, acc := 0, phase := .ePad })

/-- R97, R101: step `E_PAD` appends one pad while `OLEN` is no multiple of the block size, and else completes. -/
def Obligations.EPadStep : Prop :=
  ∀ s : State, s.Inv → s.phase = .ePad → s.pending = [] →
    (s.olen % blockSize s.codec = 0 → step s = .next { s with status := 0x02, phase := .idle }) ∧
    (s.olen % blockSize s.codec ≠ 0 →
      ∃ t, step s = .next t ∧ t.olen = s.olen + 1 ∧ Memory.readByte t.obuf s.olen = some 0x3D ∧
        (∀ a, a ≠ s.olen → Memory.readByte t.obuf a = Memory.readByte s.obuf a) ∧
        { t with obuf := s.obuf, olen := s.olen } = s)

/-- R98: step `D_RUN` counts a pad, takes a symbol, or fails; a decode writes each whole byte, a validate none. The next
state of a failing decode is in `FailingStepEndsTheCommand`. -/
def Obligations.DRunStep : Prop :=
  ∀ s : State, s.Inv → s.phase = .dRun → s.pending = [] →
    let k := groupBits s.codec
    let x := s.ibufAt s.ipos
    (s.ipos = s.ilen → step s = .next { s with phase := .dFinal }) ∧
    (s.ipos < s.ilen → x = 0x3D → step s = .next { s with npad := s.npad + 1, ipos := s.ipos + 1 }) ∧
    (s.ipos < s.ilen → x ≠ 0x3D → ∀ v, decLut s.codec x = some v → s.npad = 0 →
      let total := s.nbits.toNat + k
      let window := s.acc.toNat * 2 ^ k + v
      (total < 8 → ∃ t, step s = .next t ∧ t.acc.toNat = window ∧ t.nbits.toNat = total ∧
        { t with acc := s.acc, nbits := s.nbits } = { s with ipos := s.ipos + 1 }) ∧
      (8 ≤ total → ∃ t, step s = .next t ∧ t.acc.toNat = window % 2 ^ (total - 8) ∧ t.nbits.toNat = total - 8 ∧
        (s.opBits = Op.decode.bits → t.olen = s.olen + 1 ∧
          Memory.readByte t.obuf s.olen = some (BitVec.ofNat 8 (window / 2 ^ (total - 8))) ∧
          ∀ a, a ≠ s.olen → Memory.readByte t.obuf a = Memory.readByte s.obuf a) ∧
        (s.opBits = Op.validate.bits → t.olen = s.olen ∧ t.obuf = s.obuf) ∧
        { t with acc := s.acc, nbits := s.nbits, olen := s.olen, obuf := s.obuf } = { s with ipos := s.ipos + 1 }))

/-- R99: step `D_FINAL` of a string that passes the padding and trailing-bits checks completes, a validate with the answer
1. -/
def Obligations.DFinalStep : Prop :=
  ∀ s : State, s.Inv → s.phase = .dFinal → s.pending = [] → s.npad ∈ padSet s.codec → s.acc = 0 →
    (s.opBits = Op.decode.bits → step s = .next { s with status := 0x02, phase := .idle }) ∧
    (s.opBits = Op.validate.bits → step s = .next { s with status := 0x0A, phase := .idle })

/-- R98, R99, R100: the four failing conditions of the scan and of `D_FINAL` each end the command: a decode with the
exception and no output (and the reference cause and position where the parameters choose them), a validate with the
answer 0. -/
def Obligations.FailingStepEndsTheCommand : Prop :=
  ∀ (s : State) (cause : Cause) (pos : Nat), s.Inv → s.pending = [] →
    ((s.phase = .dRun ∧ s.ipos < s.ilen ∧ s.ibufAt s.ipos ≠ 0x3D ∧ pos = s.ipos ∧
        ((decLut s.codec (s.ibufAt s.ipos) = none ∧ cause = .char) ∨
         ((decLut s.codec (s.ibufAt s.ipos)).isSome ∧ 0 < s.npad ∧ cause = .padOrder))) ∨
     (s.phase = .dFinal ∧ s.npad ∉ padSet s.codec ∧ cause = .padCount ∧ pos = s.ilen - s.npad) ∨
     (s.phase = .dFinal ∧ s.npad ∈ padSet s.codec ∧ s.acc ≠ 0 ∧ cause = .trailing ∧ pos = s.ilen - s.npad - 1)) →
    (s.opBits = Op.validate.bits → step s = .next { s with status := 0x02, phase := .idle }) ∧
    (s.opBits = Op.decode.bits →
      ∃ t, step s = .next t ∧ 1 ≤ t.errCause.toNat ∧ t.errCause.toNat ≤ 5 ∧
        (s.params.errInfo = .reference → t.errCause = cause.code ∧ t.errPos = pos ∧ t.draws = s.draws) ∧
        { t with errCause := s.errCause, errPos := s.errPos, draws := s.draws } =
          { s with olen := 0, status := 0x06, phase := .idle })

/-- R102, R103 for the encodes: from any idle state the micro-steps take exactly `n + P + 3` steps to `DONE = 1`, are busy
until then, and end in the architectural result. -/
def Obligations.EncodeMicroStepsRefineTheArchitecture : Prop :=
  ∀ (c : Codec) (s : State), s.busy = false → s.params.level = .microStep → s.pending = [] → s.ilen ≤ s.params.inCap →
    ∃ a m₀ m, exec (commandInstr c .encode) (s.atLevel .architectural) = .next a ∧
      exec (commandInstr c .encode) s = .next m₀ ∧
      Sys2Proof.core.run (encodeSteps c s.ilen) m₀ = .next m ∧ m.done = true ∧ m.SameResults a ∧
      ∀ j < encodeSteps c s.ilen, ∃ u : State, Sys2Proof.core.run j m₀ = .next u ∧ u.busy = true

/-- R102, R103 for the decodes and validates, valid strings and invalid ones, with the step count of each case. -/
def Obligations.DecodeMicroStepsRefineTheArchitecture : Prop :=
  ∀ (c : Codec) (op : Op) (s : State), op ≠ .encode → s.busy = false → s.params.level = .microStep → s.pending = [] →
    s.ilen ≤ s.params.inCap →
    ∃ a m₀ m, exec (commandInstr c op) (s.atLevel .architectural) = .next a ∧
      exec (commandInstr c op) s = .next m₀ ∧
      Sys2Proof.core.run (scanSteps c s.input) m₀ = .next m ∧ m.done = true ∧ m.SameResults a ∧
      ∀ j < scanSteps c s.input, ∃ u : State, Sys2Proof.core.run j m₀ = .next u ∧ u.busy = true

/-! ### Invariants and bounded termination -/

/-- The state after reset satisfies the invariant. -/
def Obligations.ResetSatisfiesInv : Prop := State.reset.Inv

/-- Every step from a state that satisfies the invariant, whatever the event, ends in one that does: the six outcomes of
R30, `BUSY` with `PHASE` (R37), the ranges of the datapath registers (R39 to R42), the bounds of both buffers (R53), the
widths of the length registers (R86), no output with a failure (R121). -/
def Obligations.StepKeepsInv : Prop :=
  ∀ s t : State, s.Inv → step s = .next t → t.Inv

/-- R145a: with no event pending, a running command reaches `DONE = 1` within `ILEN + 10` steps, from any point of it. -/
def Obligations.RunningCommandCompletes : Prop :=
  ∀ s : State, s.Inv → s.busy = true → s.pending = [] →
    ∃ n ≤ s.ilen + 10, ∃ t : State, Sys2Proof.core.run n s = .next t ∧ t.busy = false ∧ t.done = true

/-- R72, R145b: a host that waits while a command runs reads `DONE = 1` within `ILEN + 11` steps, and its later operations
follow. That the core moves between two polls is the model's reading of fairness (log 15). -/
def Obligations.WaitEndsWithDone : Prop :=
  ∀ (s : State) (rest : List Event), s.Inv → s.busy = true → s.pending = .host .waitDone :: rest →
    ∃ n ≤ s.ilen + 11, ∃ t : State, Sys2Proof.core.run n s = .next t ∧ t.pending = rest ∧ t.done = true ∧
      t.rdata = t.status.toNat

/-! ### Reset and the host's ports -/

/-- R45: the state after reset. -/
def Obligations.ResetState : Prop :=
  State.reset.ilen = 0 ∧ State.reset.olen = 0 ∧ State.reset.status = 0x00 ∧ State.reset.errCause = 0 ∧
    State.reset.errPos = 0 ∧ State.reset.phase = .idle ∧ State.reset.cur = 0 ∧ State.reset.ipos = 0 ∧
    State.reset.acc = 0 ∧ State.reset.nbits = 0 ∧ State.reset.npad = 0 ∧
    (∀ i, Memory.readByte State.reset.ibuf i = none ∧ Memory.readByte State.reset.obuf i = none)

/-- `Reset` (R136), at any moment, also while a command runs. The buffers list no element: each holds any value. That the
later events, the read port's answer, the counter of free values and the copy's number stay, and the count of resets grows,
is the model's choice (log 3, 7, 14), and so is that the parameters stay (log 2). -/
def Obligations.ResetEvent : Prop :=
  ∀ (s : State) (rest : List Event), s.pending = .reset :: rest →
    step s = .next
      { State.reset with
        params := s.params, pending := rest, rdata := s.rdata, draws := s.draws, resets := s.resets + 1
        copyId := s.copyId }

/-- R138: while `BUSY = 1` a host write to `CMD`, `ILEN` or any `IBUF` element changes nothing; a write to another register
or to `OBUF` changes nothing at any time. -/
def Obligations.IgnoredHostWrites : Prop :=
  ∀ (s : State) (rest : List Event),
    (∀ reg v, s.pending = .host (.write reg v) :: rest → s.busy = true ∨ (reg ≠ 0 ∧ reg ≠ 2) →
      step s = .next { s with pending := rest }) ∧
    (∀ i v, s.pending = .host (.writeIbuf i v) :: rest → s.busy = true ∨ s.params.inCap ≤ i →
      step s = .next { s with pending := rest }) ∧
    (∀ i v, s.pending = .host (.writeObuf i v) :: rest → step s = .next { s with pending := rest })

/-- R28, R25: an idle block takes a write to `ILEN` (the port carries `LENW` bits, R144) and to an `IBUF` element, and
nothing else changes. -/
def Obligations.AcceptedHostWrites : Prop :=
  ∀ (s : State) (rest : List Event), s.busy = false →
    (∀ v, s.pending = .host (.write 2 v) :: rest →
      step s = .next { s with pending := rest, ilen := v % 2 ^ s.params.lenw }) ∧
    (∀ i v, s.pending = .host (.writeIbuf i v) :: rest → i < s.params.inCap →
      ∃ t, step s = .next t ∧ t.ibufAt i = v ∧ (∀ j, j ≠ i → t.ibufAt j = s.ibufAt j) ∧
        { t with ibuf := s.ibuf } = { s with pending := rest })

/-- R52: no host read has a side effect: only the read port's answer and the model's counter of free values change. -/
def Obligations.HostReadsHaveNoSideEffect : Prop :=
  ∀ (s : State) (op : HostOp) (rest : List Event), s.pending = .host op :: rest →
    (∃ i, op = .read i ∨ op = .readIbuf i ∨ op = .readObuf i) →
    ∃ t, step s = .next t ∧ { t with rdata := s.rdata, draws := s.draws } = { s with pending := rest }

/-- R55, R139: what a host read answers: the registers by number, the stored `IBUF` element also while a command runs, the
result registers and the `OBUF` elements below `OLEN` while none runs. -/
def Obligations.HostReadAnswers : Prop :=
  ∀ (s : State) (rest : List Event),
    (∀ r, s.pending = .host (.read r) :: rest →
      ∃ t, step s = .next t ∧ (r = 0 → t.rdata = 0) ∧ (r = 1 → t.rdata = s.status.toNat) ∧ (r = 2 → t.rdata = s.ilen) ∧
        (s.busy = false → (r = 3 → t.rdata = s.olen) ∧ (r = 4 → t.rdata = s.errCause.toNat) ∧
          (r = 5 → t.rdata = s.errPos))) ∧
    (∀ i, s.pending = .host (.readIbuf i) :: rest → i < s.params.inCap →
      ∃ t, step s = .next t ∧ t.rdata = (s.ibufAt i).toNat) ∧
    (∀ i v, s.pending = .host (.readObuf i) :: rest → s.busy = false → i < s.olen → i < s.params.outCap →
      Memory.readByte s.obuf i = some v → ∃ t, step s = .next t ∧ t.rdata = v.toNat)

/-- R57, R134: an idle block is still. With no event pending, and at a core event, nothing changes; no host operation but a
`CMD` write changes the results. -/
def Obligations.IdleBlockKeepsItsResults : Prop :=
  ∀ (s : State) (rest : List Event), s.busy = false → s.phase = .idle →
    (s.pending = [] → step s = .next s) ∧
    (s.pending = .core :: rest → step s = .next { s with pending := rest }) ∧
    (∀ op, s.pending = .host op :: rest → (∀ v, op ≠ .write 0 v) →
      ∃ t, step s = .next t ∧ t.olen = s.olen ∧ t.status = s.status ∧ t.errCause = s.errCause ∧ t.errPos = s.errPos ∧
        t.obuf = s.obuf ∧ t.phase = .idle)

/-- R138, R139, R57: no host operation disturbs a running command: all but `WAIT` leave the whole block as it is, and `WAIT`
lets the core take its own next step. -/
def Obligations.HostCannotDisturbARunningCommand : Prop :=
  ∀ (s : State) (op : HostOp) (rest : List Event), s.Inv → s.busy = true → s.pending = .host op :: rest →
    (op ≠ .waitDone →
      ∃ t, step s = .next t ∧ { t with rdata := s.rdata, draws := s.draws } = { s with pending := rest }) ∧
    (op = .waitDone →
      ∃ t u, step s = .next t ∧ step { s with pending := [] } = .next u ∧
        { t with rdata := s.rdata, pending := [] } = { u with rdata := s.rdata, pending := [] })

/-- R60: instances share nothing: a step of one leaves every other as it is, and steps of two instances commute. -/
def Obligations.InstancesAreIndependent : Prop :=
  ∀ (n m : Nat) (sys : List State), n ≠ m →
    ∃ sn sm snm, stepInstance n sys = .next sn ∧ stepInstance m sys = .next sm ∧ stepInstance m sn = .next snm ∧
      stepInstance n sm = .next snm ∧ sn.length = sys.length ∧ ∀ j, j ≠ n → sn[j]? = sys[j]?

/-! ### The engine's laws -/

/-- R18, R19: the code of every symbol, Base32 `a`–`z`, `2`–`7`, Base64Url `A`–`Z`, `a`–`z`, `0`–`9`, `-`, `_`; R20, R21:
the alphabets are injective and without the pad character, and the inverse table is their inverse on all 256 codes. -/
def Obligations.AlphabetTablesAreInverse : Prop :=
  (∀ g < 32, (encLut .base32 g).toNat = if g < 26 then 0x61 + g else 0x32 + (g - 26)) ∧
  (∀ g < 64, (encLut .base64url g).toNat =
    if g < 26 then 0x41 + g
    else if g < 52 then 0x61 + (g - 26)
    else if g < 62 then 0x30 + (g - 52)
    else if g = 62 then 0x2D
    else 0x5F) ∧
  ∀ (c : Codec) (x : Byte),
    (∀ g < 2 ^ groupBits c, encLut c g ≠ 0x3D ∧ (encLut c g = x ↔ decLut c x = some g)) ∧
    (∀ g, decLut c x = some g → g < 2 ^ groupBits c)

/-- R87: decoding an encoding gives the bytes back, for every byte sequence and both codecs. -/
def Obligations.DecodeOfEncodeIsTheBytes : Prop :=
  ∀ (c : Codec) (b : List Byte), decodeString c (encodeBytes c b) = .bytes b

/-- R88: encoding what a string decodes to gives the string back: every valid string is canonical. -/
def Obligations.EncodeOfDecodeIsTheString : Prop :=
  ∀ (c : Codec) (str b : List Byte), decodeString c str = .bytes b → encodeBytes c b = str

/-- R78: the encoded length, the data-symbol count and the pad count, by the byte count modulo 5 or 3. -/
def Obligations.EncodedLengthAndPads : Prop :=
  ∀ (c : Codec) (b : List Byte),
    (encodeBytes c b).length = blockSize c * ((b.length + blockBytes c - 1) / blockBytes c) ∧
    ∃ syms pads, encodeBytes c b = syms ++ List.replicate pads padChar ∧ padChar ∉ syms ∧
      syms.length = (8 * b.length + groupBits c - 1) / groupBits c ∧
      (c = .base32 → pads = [0, 6, 4, 3, 1].getD (b.length % 5) 0) ∧ (c = .base64url → pads = [0, 2, 1].getD (b.length % 3) 0)

/-- R84: the decoded length, and that it never exceeds the string's. -/
def Obligations.DecodedLength : Prop :=
  ∀ (c : Codec) (str b : List Byte) (d p : Nat), checkString c str = .ok d p → decodeString c str = .bytes b →
    b.length = groupBits c * d / 8 ∧ d + p = str.length ∧ b.length ≤ str.length ∧
    b.length = blockBytes c * (d / blockSize c) +
      (match c with
       | .base32 => [0, 0, 1, 0, 2, 3, 0, 4].getD (d % 8) 0
       | .base64url => [0, 0, 1, 2].getD (d % 4) 0)

/-- R90: every character of an encoding is one of its codec's 33 or 65, written here as code ranges; `+` and `/`, outside
both, make any string invalid. -/
def Obligations.EncodingUsesOnlyItsAlphabet : Prop :=
  (∀ (b : List Byte), ∀ x ∈ encodeBytes .base32 b,
    (0x61 ≤ x.toNat ∧ x.toNat ≤ 0x7A) ∨ (0x32 ≤ x.toNat ∧ x.toNat ≤ 0x37) ∨ x = 0x3D) ∧
  (∀ (b : List Byte), ∀ x ∈ encodeBytes .base64url b,
    (0x41 ≤ x.toNat ∧ x.toNat ≤ 0x5A) ∨ (0x61 ≤ x.toNat ∧ x.toNat ≤ 0x7A) ∨ (0x30 ≤ x.toNat ∧ x.toNat ≤ 0x39) ∨
      x = 0x2D ∨ x = 0x5F ∨ x = 0x3D) ∧
  (∀ (c : Codec) (str : List Byte), 0x2B ∈ str ∨ 0x2F ∈ str → isValid c str = false)

/-- R66: a string passes `CHECK` exactly when it has the shape of a valid encoding. -/
def Obligations.CheckAcceptsExactlyTheValidShapes : Prop :=
  ∀ (c : Codec) (str : List Byte), isValid c str = true ↔ ValidShape c str

/-- R119: which cause and position `CHECK` reports, condition by condition, and when it accepts; with the codes. -/
def Obligations.CheckReportsTheFirstViolation : Prop :=
  (Cause.length.code = 1 ∧ Cause.char.code = 2 ∧ Cause.padOrder.code = 3 ∧ Cause.padCount.code = 4 ∧
    Cause.trailing.code = 5) ∧
  ∀ (c : Codec) (str : List Byte) (pos : Nat),
    let L := str.length
    let P := str.count padChar
    let D := L - P
    let T := groupBits c * D % 8
    let clean := L % blockSize c = 0 ∧ cleanBelow c str L
    (checkString c str = .fail .length pos ↔ L % blockSize c ≠ 0 ∧ pos = L) ∧
    (checkString c str = .fail .char pos ↔ L % blockSize c = 0 ∧ cleanBelow c str pos ∧ charViolation c str pos) ∧
    (checkString c str = .fail .padOrder pos ↔
      L % blockSize c = 0 ∧ cleanBelow c str pos ∧ padOrderViolation c str pos) ∧
    (checkString c str = .fail .padCount pos ↔ clean ∧ P ∉ padSet c ∧ pos = D) ∧
    (checkString c str = .fail .trailing pos ↔
      clean ∧ P ∈ padSet c ∧ 0 < T ∧ symbolValue c str (D - 1) % 2 ^ T ≠ 0 ∧ pos = D - 1) ∧
    (checkString c str = .ok D P ↔
      clean ∧ P ∈ padSet c ∧ (0 < T → symbolValue c str (D - 1) % 2 ^ T = 0))

/-- R68: the bit layout of a Base32 block, full and short, and its inverse. -/
def Obligations.Base32BlockLayout : Prop :=
  (∀ b0 b1 b2 b3 b4 : Byte,
    let sym (v : BitVec 5) : Byte := encLut .base32 v.toNat
    let g0 : BitVec 5 := b0.extractLsb' 3 5
    let g1 (x : Byte) : BitVec 5 := b0.extractLsb' 0 3 ++ x.extractLsb' 6 2
    let g2 : BitVec 5 := b1.extractLsb' 1 5
    let g3 (x : Byte) : BitVec 5 := b1.extractLsb' 0 1 ++ x.extractLsb' 4 4
    let g4 (x : Byte) : BitVec 5 := b2.extractLsb' 0 4 ++ x.extractLsb' 7 1
    let g5 : BitVec 5 := b3.extractLsb' 2 5
    let g6 (x : Byte) : BitVec 5 := b3.extractLsb' 0 2 ++ x.extractLsb' 5 3
    let g7 : BitVec 5 := b4.extractLsb' 0 5
    encodeBytes .base32 [b0, b1, b2, b3, b4] =
      [sym g0, sym (g1 b1), sym g2, sym (g3 b2), sym (g4 b3), sym g5, sym (g6 b4), sym g7] ∧
    encodeBytes .base32 [b0, b1, b2, b3] =
      [sym g0, sym (g1 b1), sym g2, sym (g3 b2), sym (g4 b3), sym g5, sym (g6 0), 0x3D] ∧
    encodeBytes .base32 [b0, b1, b2] = [sym g0, sym (g1 b1), sym g2, sym (g3 b2), sym (g4 0), 0x3D, 0x3D, 0x3D] ∧
    encodeBytes .base32 [b0, b1] = [sym g0, sym (g1 b1), sym g2, sym (g3 0), 0x3D, 0x3D, 0x3D, 0x3D] ∧
    encodeBytes .base32 [b0] = [sym g0, sym (g1 0), 0x3D, 0x3D, 0x3D, 0x3D, 0x3D, 0x3D]) ∧
  (∀ g0 g1 g2 g3 g4 g5 g6 g7 : BitVec 5,
    let byte0 : Byte := g0 ++ g1.extractLsb' 2 3
    let byte1 : Byte := g1.extractLsb' 0 2 ++ g2 ++ g3.extractLsb' 4 1
    let byte2 : Byte := g3.extractLsb' 0 4 ++ g4.extractLsb' 1 4
    let byte3 : Byte := g4.extractLsb' 0 1 ++ g5 ++ g6.extractLsb' 3 2
    let byte4 : Byte := g6.extractLsb' 0 3 ++ g7
    decodeString .base32 ([g0, g1, g2, g3, g4, g5, g6, g7].map fun g => encLut .base32 g.toNat) =
      .bytes [byte0, byte1, byte2, byte3, byte4])

/-- R69: the bit layout of a Base64Url block, full and short, and its inverse. -/
def Obligations.Base64UrlBlockLayout : Prop :=
  (∀ b0 b1 b2 : Byte,
    let sym (v : BitVec 6) : Byte := encLut .base64url v.toNat
    let g0 : BitVec 6 := b0.extractLsb' 2 6
    let g1 (x : Byte) : BitVec 6 := b0.extractLsb' 0 2 ++ x.extractLsb' 4 4
    let g2 (x : Byte) : BitVec 6 := b1.extractLsb' 0 4 ++ x.extractLsb' 6 2
    let g3 : BitVec 6 := b2.extractLsb' 0 6
    encodeBytes .base64url [b0, b1, b2] = [sym g0, sym (g1 b1), sym (g2 b2), sym g3] ∧
    encodeBytes .base64url [b0, b1] = [sym g0, sym (g1 b1), sym (g2 0), 0x3D] ∧
    encodeBytes .base64url [b0] = [sym g0, sym (g1 0), 0x3D, 0x3D]) ∧
  (∀ g0 g1 g2 g3 : BitVec 6,
    let byte0 : Byte := g0 ++ g1.extractLsb' 4 2
    let byte1 : Byte := g1.extractLsb' 0 4 ++ g2.extractLsb' 2 4
    let byte2 : Byte := g2.extractLsb' 0 2 ++ g3
    decodeString .base64url ([g0, g1, g2, g3].map fun g => encLut .base64url g.toNat) = .bytes [byte0, byte1, byte2])

/-- R140: a byte sequence may be encoded in pieces cut at multiples of Q bytes, and a string decoded in pieces cut at
multiples of B characters. -/
def Obligations.PiecesCutAtBlocksJoin : Prop :=
  ∀ (c : Codec) (x y : List Byte),
    (x.length % blockBytes c = 0 → encodeBytes c (x ++ y) = encodeBytes c x ++ encodeBytes c y) ∧
    (∀ out, x.length % blockSize c = 0 → decodeString c (x ++ y) = .bytes out →
      ∃ u v, decodeString c x = .bytes u ∧ decodeString c y = .bytes v ∧ out = u ++ v)

/-! ### Copies and their open values -/

/-- No step of any instance changes the numbers of the copies or their parameters, so copies that start with numbers of
their own, as after reset, keep unrelated open values (R60, R132, R44; that a copy has a number is the model's choice, log
14, and that the parameters stand in State, log 2). -/
def Obligations.CopiesStayDistinct : Prop :=
  (∀ n : Nat, ((resetCopies n).map State.copyId).Nodup) ∧
  ∀ (n : Nat) (sys sys' : List State), stepInstance n sys = .next sys' →
    sys'.map State.copyId = sys.map State.copyId ∧ sys'.map State.params = sys.map State.params
end

