-- ==== Sys2Proof/Laws/Bits.lean ====
section
/-! SUPPORT. Bit strings and the numbers they spell; cutting a stream into chunks. -/

namespace Sys2Proof.Machine

@[simp] theorem bitsOf_length (w v : Nat) : (bitsOf w v).length = w := by simp [bitsOf]

@[simp] theorem valueOf_nil : valueOf [] = 0 := rfl

/-- The value of a concatenation: the first part is the more significant one (R12). -/
theorem valueOf_append (a b : List Bool) : valueOf (a ++ b) = valueOf a * 2 ^ b.length + valueOf b := by
  have key : ∀ (l : List Bool) (n : Nat),
      l.foldl (fun n b => 2 * n + b.toNat) n = n * 2 ^ l.length + l.foldl (fun n b => 2 * n + b.toNat) 0 := by
    intro l
    induction l with
    | nil => simp
    | cons x l ih =>
      intro n
      simp only [List.foldl_cons, List.length_cons]
      rw [ih, ih (2 * 0 + x.toNat), pow_succ]
      ring
  rw [valueOf, List.foldl_append, key b]
  rfl

theorem valueOf_cons (x : Bool) (l : List Bool) : valueOf (x :: l) = x.toNat * 2 ^ l.length + valueOf l := by
  have := valueOf_append [x] l
  simpa [valueOf] using this

theorem valueOf_lt (l : List Bool) : valueOf l < 2 ^ l.length := by
  induction l with
  | nil => simp
  | cons x l ih =>
    rw [valueOf_cons, List.length_cons, pow_succ]
    have := Bool.toNat_le x
    nlinarith

@[simp] theorem valueOf_replicate_false (n : Nat) : valueOf (List.replicate n false) = 0 := by
  induction n with
  | zero => rfl
  | succ n ih => simp [List.replicate_succ, valueOf_cons, ih]

theorem bitsOf_succ (w v : Nat) : bitsOf (w + 1) v = v.testBit w :: bitsOf w v := by
  simp only [bitsOf, List.range_succ_eq_map, List.map_cons, List.map_map]
  congr 1
  apply List.map_congr_left
  intro j hj
  simp only [Function.comp]
  congr 1
  omega

/-- A number read back from its low `w` bits. -/
@[simp] theorem valueOf_bitsOf (w v : Nat) : valueOf (bitsOf w v) = v % 2 ^ w := by
  induction w with
  | zero => simp [bitsOf, valueOf, Nat.mod_one]
  | succ w ih =>
    rw [bitsOf_succ, valueOf_cons, bitsOf_length, ih, Nat.toNat_testBit, Nat.mod_pow_succ, Nat.mul_comm, Nat.add_comm]

/-- A bit string read back from the number it spells. -/
@[simp] theorem bitsOf_valueOf (l : List Bool) : bitsOf l.length (valueOf l) = l := by
  induction l with
  | nil => rfl
  | cons x l ih =>
    have hlt := valueOf_lt l
    rw [List.length_cons, bitsOf_succ, valueOf_cons]
    have hhead : (x.toNat * 2 ^ l.length + valueOf l).testBit l.length = x := by
      rw [Nat.mul_comm, Nat.testBit_two_pow_mul_add _ hlt]
      cases x <;> simp
    have htail : bitsOf l.length (x.toNat * 2 ^ l.length + valueOf l) = bitsOf l.length (valueOf l) := by
      unfold bitsOf
      apply List.map_congr_left
      intro j hj
      have hj' := List.mem_range.mp hj
      rw [Nat.mul_comm, Nat.testBit_two_pow_mul_add _ hlt, if_pos (by omega)]
    rw [hhead, htail, ih]

theorem bitsOf_inj {w a b : Nat} (ha : a < 2 ^ w) (hb : b < 2 ^ w) (h : bitsOf w a = bitsOf w b) : a = b := by
  have := congrArg valueOf h
  simpa [Nat.mod_eq_of_lt ha, Nat.mod_eq_of_lt hb] using this

@[simp] theorem byteStream_length (b : List Byte) : (byteStream b).length = 8 * b.length := by
  induction b with
  | nil => rfl
  | cons x b ih =>
    rw [byteStream, List.flatMap_cons, List.length_append, ← byteStream, ih, bitsOf_length, List.length_cons]
    omega

@[simp] theorem groupStream_length (k : Nat) (gs : List Nat) : (groupStream k gs).length = k * gs.length := by
  induction gs with
  | nil => rfl
  | cons x gs ih =>
    rw [groupStream, List.flatMap_cons, List.length_append, ← groupStream, ih, bitsOf_length, List.length_cons]
    ring

@[simp] theorem byteStream_append (a b : List Byte) : byteStream (a ++ b) = byteStream a ++ byteStream b := by
  simp [byteStream]

@[simp] theorem groupStream_append (k : Nat) (a b : List Nat) :
    groupStream k (a ++ b) = groupStream k a ++ groupStream k b := by
  simp [groupStream]

@[simp] theorem chunks_length (w n : Nat) (s : List Bool) : (chunks w n s).length = n := by simp [chunks]

theorem chunks_zero (w : Nat) (s : List Bool) : chunks w 0 s = [] := rfl

/-- Cutting chunks one by one from the front. -/
theorem chunks_succ (w n : Nat) (s : List Bool) : chunks w (n + 1) s = valueOf (s.take w) :: chunks w n (s.drop w) := by
  simp only [chunks, List.range_succ_eq_map, List.map_cons, List.map_map, Nat.zero_mul, List.drop_zero]
  congr 1
  apply List.map_congr_left
  intro j _
  simp only [Function.comp, List.drop_drop]
  congr 3
  rw [Nat.succ_mul, Nat.add_comm]

theorem chunks_lt {w n : Nat} {s : List Bool} {g : Nat} (h : g ∈ chunks w n s) : g < 2 ^ w := by
  obtain ⟨j, -, rfl⟩ := List.mem_map.mp h
  refine lt_of_lt_of_le (valueOf_lt _) (Nat.pow_le_pow_right (by decide) ?_)
  exact List.length_take_le _ _

/-- A stream of whole chunks is the stream of the groups cut from it. -/
theorem groupStream_chunks {w n : Nat} {s : List Bool} (h : s.length = n * w) : groupStream w (chunks w n s) = s := by
  induction n generalizing s with
  | zero =>
    have : s = [] := List.eq_nil_of_length_eq_zero (by simpa using h)
    subst this
    rfl
  | succ n ih =>
    have hw : (s.take w).length = w := by
      rw [List.length_take, h, Nat.succ_mul]
      omega
    have hd : (s.drop w).length = n * w := by
      rw [List.length_drop, h, Nat.succ_mul]
      omega
    rw [chunks_succ, groupStream, List.flatMap_cons, ← groupStream, ih hd]
    have := bitsOf_valueOf (s.take w)
    rw [hw] at this
    rw [this, List.take_append_drop]

/-- Cutting the stream of groups that fit gives the groups back, whatever follows. -/
theorem chunks_groupStream {w : Nat} (gs : List Nat) (tail : List Bool) (h : ∀ g ∈ gs, g < 2 ^ w) :
    chunks w gs.length (groupStream w gs ++ tail) = gs := by
  induction gs with
  | nil => rfl
  | cons g gs ih =>
    have hg : g < 2 ^ w := h g (by simp)
    rw [List.length_cons, chunks_succ, groupStream, List.flatMap_cons, ← groupStream, List.append_assoc]
    rw [List.take_append_of_le_length (by simp), List.take_of_length_le (by simp), valueOf_bitsOf, Nat.mod_eq_of_lt hg]
    rw [List.drop_append_of_le_length (by simp), List.drop_of_length_le (by simp), List.nil_append]
    rw [ih fun x hx => h x (by simp [hx])]

/-- The byte stream is the stream of 8-bit groups. -/
theorem byteStream_eq_groupStream (b : List Byte) : byteStream b = groupStream 8 (b.map BitVec.toNat) := by
  simp [byteStream, groupStream, List.flatMap_map]

/-- Reading bytes back from their stream. -/
theorem bytes_of_byteStream (b : List Byte) (tail : List Bool) :
    (chunks 8 b.length (byteStream b ++ tail)).map (BitVec.ofNat 8) = b := by
  have h : ∀ g ∈ b.map BitVec.toNat, g < 2 ^ 8 := by
    intro g hg
    obtain ⟨x, -, rfl⟩ := List.mem_map.mp hg
    exact x.isLt
  have key := chunks_groupStream (b.map BitVec.toNat) tail h
  rw [List.length_map, ← byteStream_eq_groupStream] at key
  rw [key, List.map_map]
  exact (List.map_congr_left fun x _ => by simp).trans (List.map_id b)

end Sys2Proof.Machine
end

