-- ==== Sys2Proof/Laws/Engine.lean ====
section
/-! SUPPORT. The tables and the engine's functions: one lemma for what each gives. -/

namespace Sys2Proof.Machine

theorem groupBits_cases (c : Codec) : groupBits c = 5 ∨ groupBits c = 6 := by cases c <;> simp [groupBits]

theorem groupBits_pos (c : Codec) : 0 < groupBits c := by cases c <;> decide

@[simp] theorem blockBytes_base32 : blockBytes .base32 = 5 := by decide

@[simp] theorem blockBytes_base64url : blockBytes .base64url = 3 := by decide

theorem alphabet_length (c : Codec) : (alphabet c).length = 2 ^ groupBits c := by cases c <;> decide

/-- No symbol is the pad character (R20). -/
theorem encLut_ne_pad (c : Codec) {g : Nat} (h : g < 2 ^ groupBits c) : encLut c g ≠ padChar := by
  revert g
  cases c <;> decide

/-- The inverse table undoes the symbol table (R80). -/
theorem decLut_encLut (c : Codec) {g : Nat} (h : g < 2 ^ groupBits c) : decLut c (encLut c g) = some g := by
  revert g
  cases c <;> decide

/-- What the inverse table finds is a group value, and the symbol table leads back (R21). -/
theorem decLut_eq_some {c : Codec} {x : Byte} {g : Nat} (h : decLut c x = some g) :
    g < 2 ^ groupBits c ∧ encLut c g = x := by
  have hg := List.findIdx?_eq_some_iff_getElem.mp h
  obtain ⟨hlt, hx, -⟩ := hg
  refine ⟨by rw [← alphabet_length]; exact hlt, ?_⟩
  rw [encLut, List.getD_eq_getElem _ _ hlt]
  simpa using hx

@[simp] theorem decLut_pad (c : Codec) : decLut c padChar = none := by cases c <;> decide

theorem padSet_lt_blockSize {c : Codec} {p : Nat} (h : p ∈ padSet c) : p < blockSize c := by
  revert p
  cases c <;> decide

@[simp] theorem pack_length (k : Nat) (b : List Byte) : (pack k b).length = groupCount k b.length := by simp [pack]

theorem pack_lt {k : Nat} {b : List Byte} {g : Nat} (h : g ∈ pack k b) : g < 2 ^ k := chunks_lt h

/-- The groups of a byte sequence are its stream and the zero bits that fill the last chunk (R74). -/
theorem groupStream_pack {k : Nat} (hk : 0 < k) (b : List Byte) :
    groupStream k (pack k b) = byteStream b ++ List.replicate (groupCount k b.length * k - 8 * b.length) false := by
  refine groupStream_chunks ?_
  have h : 8 * b.length ≤ groupCount k b.length * k := by
    have h1 := Nat.div_add_mod (8 * b.length + k - 1) k
    have h2 := Nat.mod_lt (8 * b.length + k - 1) hk
    unfold groupCount
    rw [Nat.mul_comm (_ / k) k]
    omega
  simp only [List.length_append, byteStream_length, List.length_replicate]
  omega

/-- `UNPACK` undoes `PACK` (R87): the whole bytes are the bytes packed. -/
theorem unpack_pack {k : Nat} (hk : 0 < k) (hk8 : k ≤ 8) (b : List Byte) : (unpack k (pack k b)).1 = b := by
  unfold unpack
  have hn : k * (pack k b).length / 8 = b.length := by
    rw [pack_length, groupCount]
    have h1 := Nat.div_add_mod (8 * b.length + k - 1) k
    have h2 := Nat.mod_lt (8 * b.length + k - 1) hk
    omega
  simp only [hn, groupStream_pack hk]
  exact bytes_of_byteStream b _

@[simp] theorem encodeBytes_nil (c : Codec) : encodeBytes c [] = [] := by cases c <;> decide

theorem encodeBytes_length (c : Codec) (b : List Byte) :
    (encodeBytes c b).length =
      groupCount (groupBits c) b.length + padGen (blockSize c) (groupCount (groupBits c) b.length) := by
  simp [encodeBytes]

/-- The number of characters of an encoding (R78). -/
theorem encodeBytes_length_eq (c : Codec) (b : List Byte) :
    (encodeBytes c b).length = blockSize c * ((b.length + blockBytes c - 1) / blockBytes c) := by
  rw [encodeBytes_length]
  cases c <;> simp only [groupCount, padGen, groupBits, blockSize, blockBytes_base32, blockBytes_base64url] <;> omega

/-- The scan over a run of symbols goes past them when no pad came before. -/
theorem scan_symbols {c : Codec} (syms rest : List Byte) (i : Nat)
    (h : ∀ x ∈ syms, x ≠ padChar ∧ (decLut c x).isSome) : scan c i 0 (syms ++ rest) = scan c (i + syms.length) 0 rest := by
  induction syms generalizing i with
  | nil => rfl
  | cons x syms ih =>
    have hx := h x (by simp)
    obtain ⟨g, hg⟩ := Option.isSome_iff_exists.mp hx.2
    rw [List.cons_append, scan, if_neg hx.1, unmapSymbol, hg]
    simp only [gt_iff_lt, lt_irrefl, if_false]
    rw [ih _ fun y hy => h y (by simp [hy]), List.length_cons]
    congr 1
    omega

/-- The scan over pads counts them. -/
theorem scan_pads (c : Codec) (i p n : Nat) : scan c i p (List.replicate n padChar) = .pads (p + n) := by
  induction n generalizing i p with
  | zero => rfl
  | succ n ih =>
    rw [List.replicate_succ, scan, if_pos rfl, ih]
    congr 1
    omega

/-- A scan that reports pads has read symbols only, then pads only (R81, checks 2 and 3). -/
theorem scan_eq_pads {c : Codec} {i p q : Nat} {str : List Byte} (h : scan c i p str = .pads q) :
    ∃ syms, str = syms ++ List.replicate (q - p) padChar ∧ p ≤ q ∧ (0 < p → syms = []) ∧
      ∀ x ∈ syms, x ≠ padChar ∧ (decLut c x).isSome := by
  induction str generalizing i p with
  | nil =>
    simp only [scan, ScanResult.pads.injEq] at h
    subst h
    exact ⟨[], by simp, le_refl _, fun _ => rfl, by simp⟩
  | cons x str ih =>
    rw [scan] at h
    split at h
    · rename_i hx
      subst hx
      obtain ⟨syms, rfl, hle, hnil, -⟩ := ih h
      have hs := hnil (by omega)
      subst hs
      refine ⟨[], ?_, by omega, fun _ => rfl, by simp⟩
      have : q - p = (q - (p + 1)) + 1 := by omega
      rw [this, List.replicate_succ]
      simp
    · rename_i hx
      cases hd : decLut c x with
      | none => simp [unmapSymbol, hd] at h
      | some g =>
        simp only [unmapSymbol, hd] at h
        split at h
        · cases h
        · rename_i hp
          obtain ⟨syms, rfl, hle, hnil, hall⟩ := ih h
          refine ⟨x :: syms, rfl, hle, fun h0 => absurd h0 hp, ?_⟩
          intro y hy
          rcases List.mem_cons.mp hy with rfl | hy
          · exact ⟨hx, by simp [hd]⟩
          · exact hall y hy

/-- A validate accepts exactly what `CHECK` accepts (R85). -/
theorem isValid_eq_true {c : Codec} {str : List Byte} : isValid c str = true ↔ ∃ d p, checkString c str = .ok d p := by
  unfold isValid
  split
  · rename_i d p h
    exact ⟨fun _ => ⟨d, p, h⟩, fun _ => rfl⟩
  · rename_i cause pos h
    exact ⟨nofun, fun ⟨d, p, h'⟩ => by rw [h] at h'; cases h'⟩

/-- A decode gives bytes exactly when `CHECK` accepts (R83, R89). -/
theorem decodeString_eq_bytes {c : Codec} {str out : List Byte} :
    decodeString c str = .bytes out ↔
      ∃ d p, checkString c str = .ok d p ∧ out = (unpack (groupBits c) ((List.range d).map (symbolValue c str))).1 := by
  unfold decodeString
  split
  · rename_i cause pos h
    exact ⟨nofun, fun ⟨d, p, h', _⟩ => by rw [h] at h'; cases h'⟩
  · rename_i d p h
    rw [h]
    constructor
    · intro e
      exact ⟨d, p, rfl, (DecodeResult.bytes.inj e).symm⟩
    · rintro ⟨d', p', e, rfl⟩
      cases e
      rfl

/-- What `CHECK` has found when it accepts (R81): every one of its five checks passed. -/
theorem checkString_eq_ok {c : Codec} {str : List Byte} {d p : Nat} :
    checkString c str = .ok d p ↔
      str.length % blockSize c = 0 ∧ scan c 0 0 str = .pads p ∧ p ∈ padSet c ∧ d = str.length - p ∧
        (0 < trailingCount c d → symbolValue c str (d - 1) % 2 ^ trailingCount c d = 0) := by
  unfold checkString
  simp only
  constructor
  · intro h
    split at h
    · cases h
    · rename_i hl
      split at h
      · cases h
      · rename_i q hq
        split at h
        · cases h
        · rename_i hp
          split at h
          · cases h
          · rename_i ht
            cases h
            refine ⟨by omega, hq, by simpa using hp, rfl, fun h0 => ?_⟩
            by_contra hne
            exact ht ⟨h0, hne⟩
  · rintro ⟨hl, hs, hp, rfl, ht⟩
    rw [if_neg (by omega), hs]
    simp only
    rw [if_neg (by simpa using hp), if_neg]
    rintro ⟨h0, hne⟩
    exact hne (ht h0)

end Sys2Proof.Machine
end

