-- ==== Sys2Proof/Laws/Flags.lean ====
section
/-! SUPPORT. The six values of STATUS, flag by flag, and what setting and clearing one flag does (R30). -/

namespace Sys2Proof.Machine

theorem getFlag_setFlag (w : Byte) (f g : Flag) : getFlag (setFlag w f) g = (decide (f = g) || getFlag w g) := by
  revert w
  cases f <;> cases g <;> decide

theorem getFlag_clearFlag (w : Byte) (f g : Flag) : getFlag (clearFlag w f) g = (!decide (f = g) && getFlag w g) := by
  revert w
  cases f <;> cases g <;> decide

theorem getFlag_statusWord (b d e v i : Bool) :
    getFlag (statusWord b d e v i) .busy = b ∧ getFlag (statusWord b d e v i) .done = d ∧
      getFlag (statusWord b d e v i) .err = e ∧ getFlag (statusWord b d e v i) .valid = v ∧
      getFlag (statusWord b d e v i) .illcmd = i := by
  revert b d e v i
  decide

/-- `COMPLETE` from `BUSY` alone leaves `DONE` alone. -/
@[simp] theorem complete_busyWord : setFlag (clearFlag 1#8 .busy) .done = 2#8 := by decide

/-- `COMPLETE` from the cleared word leaves `DONE` alone. -/
@[simp] theorem complete_clearWord : setFlag (clearFlag 0#8 .busy) .done = 2#8 := by decide

/-- `ERR` and then `COMPLETE`, from `BUSY` alone. -/
@[simp] theorem fail_busyWord : setFlag (clearFlag (setFlag 1#8 .err) .busy) .done = 6#8 := by decide

/-- `ERR` and then `COMPLETE`, from the cleared word. -/
@[simp] theorem fail_clearWord : setFlag (clearFlag (setFlag 0#8 .err) .busy) .done = 6#8 := by decide

/-- `VALID` and then `COMPLETE`, from `BUSY` alone. -/
@[simp] theorem valid_busyWord : setFlag (clearFlag (setFlag 1#8 .valid) .busy) .done = 10#8 := by decide

/-- The refusal of a `CMD` write, from the cleared word. -/
@[simp] theorem refuse_clearWord : setFlag (setFlag 0#8 .illcmd) .done = 18#8 := by decide

/-- `BUSY` set in the cleared word. -/
@[simp] theorem busy_clearWord : setFlag 0#8 .busy = 1#8 := by decide

@[simp] theorem statusWord_done : statusWord false true false false false = 2#8 := by decide

@[simp] theorem statusWord_valid (b : Bool) : statusWord false true false b false = if b then 10#8 else 2#8 := by
  cases b <;> decide

end Sys2Proof.Machine
end

