-- ==== Sys2Proof/Laws/Memory.lean ====
section
/-! SUPPORT. The laws of the buffers: a read after a write, and that every operation keeps the canonical form and the bounds. -/

namespace Sys2Proof.Machine

theorem Memory.readByte_writeByte_same (m : Memory) (i : Nat) (v : Byte) :
    Memory.readByte (Memory.writeByte m i v) i = some v := by
  induction m with
  | nil => simp [Memory.writeByte, Memory.readByte]
  | cons cell m ih =>
    obtain ⟨a, w⟩ := cell
    unfold Memory.writeByte
    split
    · simp [Memory.readByte]
    · split
      · simp [Memory.readByte]
      · rename_i h
        have : a ≠ i := fun e => h e.symm
        simp [Memory.readByte, this, ih]

theorem Memory.readByte_writeByte_other (m : Memory) {i j : Nat} (v : Byte) (h : j ≠ i) :
    Memory.readByte (Memory.writeByte m i v) j = Memory.readByte m j := by
  have hij : i ≠ j := fun e => h e.symm
  induction m with
  | nil => simp [Memory.writeByte, Memory.readByte, hij]
  | cons cell m ih =>
    obtain ⟨a, w⟩ := cell
    unfold Memory.writeByte
    split
    · simp [Memory.readByte, hij]
    · split
      · rename_i e
        subst e
        simp [Memory.readByte, hij]
      · by_cases ha : a = j <;> simp [Memory.readByte, ha, ih]

theorem Memory.readByte_writeByte (m : Memory) (i j : Nat) (v : Byte) :
    Memory.readByte (Memory.writeByte m i v) j = if j = i then some v else Memory.readByte m j := by
  split
  · rename_i h
    subst h
    exact Memory.readByte_writeByte_same m _ v
  · rename_i h
    exact Memory.readByte_writeByte_other m v h

/-- What a write leaves in a buffer: the written cell, and cells that were there. -/
theorem Memory.mem_writeByte {m : Memory} {i : Nat} {v : Byte} {cell : Host.Cell}
    (h : cell ∈ Memory.writeByte m i v) : cell = (i, v) ∨ cell ∈ m := by
  induction m with
  | nil => simpa [Memory.writeByte] using h
  | cons c m ih =>
    obtain ⟨a, w⟩ := c
    unfold Memory.writeByte at h
    split at h
    · simpa using h
    · split at h
      · simp only [List.mem_cons] at h ⊢
        tauto
      · simp only [List.mem_cons] at h ⊢
        rcases h with h | h
        · exact .inr (.inl h)
        · rcases ih h with h | h <;> tauto

/-- The canonical form, said of every pair of neighbours at once. -/
theorem Memory.wf_iff_sorted (m : Memory) : Memory.wf m = true ↔ (m.map Prod.fst).SortedLT := by
  rw [List.sortedLT_iff_pairwise]
  induction m with
  | nil => simp [Memory.wf]
  | cons c m ih =>
    cases m with
    | nil => simp [Memory.wf]
    | cons d m =>
      obtain ⟨a, w⟩ := c
      obtain ⟨b, x⟩ := d
      simp only [Memory.wf, Bool.and_eq_true, decide_eq_true_eq, ih]
      simp only [List.map_cons, List.pairwise_cons, List.mem_cons, forall_eq_or_imp]
      constructor
      · rintro ⟨hab, hb, hm⟩
        exact ⟨⟨hab, fun y hy => lt_trans hab (hb y hy)⟩, hb, hm⟩
      · rintro ⟨⟨hab, -⟩, hb, hm⟩
        exact ⟨hab, hb, hm⟩

theorem Memory.wf_writeByte {m : Memory} (i : Nat) (v : Byte) (h : Memory.wf m = true) :
    Memory.wf (Memory.writeByte m i v) = true := by
  rw [Memory.wf_iff_sorted, List.sortedLT_iff_pairwise] at h ⊢
  induction m with
  | nil => simp [Memory.writeByte]
  | cons c m ih =>
    obtain ⟨a, w⟩ := c
    simp only [List.map_cons, List.pairwise_cons] at h
    unfold Memory.writeByte
    split
    · rename_i hia
      simp only [List.map_cons, List.pairwise_cons, List.mem_cons, forall_eq_or_imp]
      exact ⟨⟨hia, fun y hy => lt_trans hia (h.1 y hy)⟩, h⟩
    · split
      · rename_i e
        subst e
        simpa using h
      · rename_i h1 h2
        simp only [List.map_cons, List.pairwise_cons]
        refine ⟨?_, ih h.2⟩
        intro y hy
        obtain ⟨cell, hc, rfl⟩ := List.mem_map.mp hy
        rcases Memory.mem_writeByte hc with rfl | hc
        · show a < i
          omega
        · exact h.1 _ (List.mem_map.mpr ⟨cell, hc, rfl⟩)

theorem Memory.readByte_eq_none_of_lt {m : Memory} {i : Nat} (h : ∀ cell ∈ m, i < cell.1) :
    Memory.readByte m i = none := by
  induction m with
  | nil => rfl
  | cons c m ih =>
    obtain ⟨a, w⟩ := c
    have ha : i < a := h (a, w) (by simp)
    rw [Memory.readByte, if_neg (by omega)]
    exact ih fun cell hc => h cell (by simp [hc])

/-- Two buffers in canonical form that read alike everywhere are equal data. -/
theorem Memory.eq_of_readByte_eq {m m' : Memory} (h : Memory.wf m = true) (h' : Memory.wf m' = true)
    (e : ∀ i, Memory.readByte m i = Memory.readByte m' i) : m = m' := by
  rw [Memory.wf_iff_sorted, List.sortedLT_iff_pairwise] at h h'
  induction m generalizing m' with
  | nil =>
    cases m' with
    | nil => rfl
    | cons c m' =>
      have := e c.1
      simp [Memory.readByte] at this
  | cons c m ih =>
    obtain ⟨a, w⟩ := c
    cases m' with
    | nil =>
      have := e a
      simp [Memory.readByte] at this
    | cons d m' =>
      obtain ⟨b, x⟩ := d
      simp only [List.map_cons, List.pairwise_cons] at h h'
      have below : ∀ {n : Memory} {k : Nat}, (∀ y ∈ n.map Prod.fst, k < y) → Memory.readByte n k = none := fun hn =>
        Memory.readByte_eq_none_of_lt fun cell hc => hn _ (List.mem_map.mpr ⟨cell, hc, rfl⟩)
      have hab : a = b := by
        rcases lt_trichotomy a b with hlt | rfl | hlt
        · have := e a
          rw [Memory.readByte, if_pos rfl, Memory.readByte, if_neg (by omega),
            below fun y hy => lt_trans hlt (h'.1 y hy)] at this
          cases this
        · rfl
        · have := e b
          rw [Memory.readByte, if_neg (by omega), below fun y hy => lt_trans hlt (h.1 y hy), Memory.readByte,
            if_pos rfl] at this
          cases this
      subst hab
      have hwx : w = x := by
        have := e a
        simpa [Memory.readByte] using this
      subst hwx
      congr 1
      refine ih h.2 h'.2 fun i => ?_
      by_cases hi : a = i
      · subst hi
        rw [below h.1, below h'.1]
      · have := e i
        simpa [Memory.readByte, hi] using this

theorem Memory.wf_writeSeq {m : Memory} (i : Nat) (vs : List Byte) (h : Memory.wf m = true) :
    Memory.wf (Memory.writeSeq m i vs) = true := by
  induction vs generalizing m i with
  | nil => exact h
  | cons v vs ih => exact ih _ (Memory.wf_writeByte i v h)

/-- What a sequence of writes leaves at each index: the sequence's elements at its own indices, the old elements
elsewhere. -/
theorem Memory.readByte_writeSeq (m : Memory) (i : Nat) (vs : List Byte) (j : Nat) :
    Memory.readByte (Memory.writeSeq m i vs) j =
      if i ≤ j ∧ j < i + vs.length then vs[j - i]? else Memory.readByte m j := by
  induction vs generalizing m i with
  | nil =>
    have : ¬ (i ≤ j ∧ j < i + ([] : List Byte).length) := by
      simp only [List.length_nil]
      omega
    rw [if_neg this, Memory.writeSeq]
  | cons v vs ih =>
    simp only [Memory.writeSeq, ih, Memory.readByte_writeByte, List.length_cons]
    by_cases hj : j = i
    · subst hj
      rw [if_neg (by omega), if_pos rfl, if_pos (by omega)]
      simp
    · by_cases hr : i + 1 ≤ j ∧ j < i + 1 + vs.length
      · rw [if_pos hr, if_pos (by omega)]
        have : j - i = (j - (i + 1)) + 1 := by omega
        rw [this, List.getElem?_cons_succ]
      · rw [if_neg hr, if_neg hj, if_neg (by omega)]

theorem Memory.mem_writeSeq {m : Memory} {i : Nat} {vs : List Byte} {cell : Host.Cell}
    (h : cell ∈ Memory.writeSeq m i vs) : (i ≤ cell.1 ∧ cell.1 < i + vs.length) ∨ cell ∈ m := by
  induction vs generalizing m i with
  | nil => exact .inr h
  | cons v vs ih =>
    rcases ih h with h | h
    · left
      simp only [List.length_cons]
      omega
    · rcases Memory.mem_writeByte h with rfl | h
      · left
        simp only [List.length_cons]
        omega
      · exact .inr h

end Sys2Proof.Machine
end

