-- ==== Sys2Proof/Laws/State.lean ====
section
/-! SUPPORT. One lemma per field per shared update of State, each true by unfolding, so that no later proof unfolds a record
update. -/

namespace Sys2Proof.Machine

variable (s : State)

/-! ### `State.clear` -/

@[simp] theorem State.clear_params : s.clear.params = s.params := rfl
@[simp] theorem State.clear_ibuf : s.clear.ibuf = s.ibuf := rfl
@[simp] theorem State.clear_obuf : s.clear.obuf = s.obuf := rfl
@[simp] theorem State.clear_ilen : s.clear.ilen = s.ilen := rfl
@[simp] theorem State.clear_olen : s.clear.olen = 0 := rfl
@[simp] theorem State.clear_status : s.clear.status = 0x00 := rfl
@[simp] theorem State.clear_errCause : s.clear.errCause = 0 := rfl
@[simp] theorem State.clear_errPos : s.clear.errPos = 0 := rfl
@[simp] theorem State.clear_phase : s.clear.phase = s.phase := rfl
@[simp] theorem State.clear_cur : s.clear.cur = s.cur := rfl
@[simp] theorem State.clear_ipos : s.clear.ipos = 0 := rfl
@[simp] theorem State.clear_acc : s.clear.acc = 0 := rfl
@[simp] theorem State.clear_nbits : s.clear.nbits = 0 := rfl
@[simp] theorem State.clear_npad : s.clear.npad = 0 := rfl
@[simp] theorem State.clear_pending : s.clear.pending = s.pending := rfl
@[simp] theorem State.clear_rdata : s.clear.rdata = s.rdata := rfl
@[simp] theorem State.clear_draws : s.clear.draws = s.draws := rfl
@[simp] theorem State.clear_resets : s.clear.resets = s.resets := rfl
@[simp] theorem State.clear_copyId : s.clear.copyId = s.copyId := rfl

/-! ### `State.complete` -/

@[simp] theorem State.complete_params : s.complete.params = s.params := rfl
@[simp] theorem State.complete_ibuf : s.complete.ibuf = s.ibuf := rfl
@[simp] theorem State.complete_obuf : s.complete.obuf = s.obuf := rfl
@[simp] theorem State.complete_ilen : s.complete.ilen = s.ilen := rfl
@[simp] theorem State.complete_olen : s.complete.olen = s.olen := rfl
@[simp] theorem State.complete_status : s.complete.status = setFlag (clearFlag s.status .busy) .done := rfl
@[simp] theorem State.complete_errCause : s.complete.errCause = s.errCause := rfl
@[simp] theorem State.complete_errPos : s.complete.errPos = s.errPos := rfl
@[simp] theorem State.complete_phase : s.complete.phase = .idle := rfl
@[simp] theorem State.complete_cur : s.complete.cur = s.cur := rfl
@[simp] theorem State.complete_ipos : s.complete.ipos = s.ipos := rfl
@[simp] theorem State.complete_acc : s.complete.acc = s.acc := rfl
@[simp] theorem State.complete_nbits : s.complete.nbits = s.nbits := rfl
@[simp] theorem State.complete_npad : s.complete.npad = s.npad := rfl
@[simp] theorem State.complete_pending : s.complete.pending = s.pending := rfl
@[simp] theorem State.complete_rdata : s.complete.rdata = s.rdata := rfl
@[simp] theorem State.complete_draws : s.complete.draws = s.draws := rfl
@[simp] theorem State.complete_resets : s.complete.resets = s.resets := rfl
@[simp] theorem State.complete_copyId : s.complete.copyId = s.copyId := rfl

/-! ### `State.refuseIllcmd` -/

@[simp] theorem State.refuseIllcmd_params : s.refuseIllcmd.params = s.params := rfl
@[simp] theorem State.refuseIllcmd_ibuf : s.refuseIllcmd.ibuf = s.ibuf := rfl
@[simp] theorem State.refuseIllcmd_obuf : s.refuseIllcmd.obuf = s.obuf := rfl
@[simp] theorem State.refuseIllcmd_ilen : s.refuseIllcmd.ilen = s.ilen := rfl
@[simp] theorem State.refuseIllcmd_olen : s.refuseIllcmd.olen = s.olen := rfl
@[simp] theorem State.refuseIllcmd_status : s.refuseIllcmd.status = setFlag (setFlag s.status .illcmd) .done := rfl
@[simp] theorem State.refuseIllcmd_errCause : s.refuseIllcmd.errCause = s.errCause := rfl
@[simp] theorem State.refuseIllcmd_errPos : s.refuseIllcmd.errPos = s.errPos := rfl
@[simp] theorem State.refuseIllcmd_phase : s.refuseIllcmd.phase = s.phase := rfl
@[simp] theorem State.refuseIllcmd_cur : s.refuseIllcmd.cur = s.cur := rfl
@[simp] theorem State.refuseIllcmd_ipos : s.refuseIllcmd.ipos = s.ipos := rfl
@[simp] theorem State.refuseIllcmd_acc : s.refuseIllcmd.acc = s.acc := rfl
@[simp] theorem State.refuseIllcmd_nbits : s.refuseIllcmd.nbits = s.nbits := rfl
@[simp] theorem State.refuseIllcmd_npad : s.refuseIllcmd.npad = s.npad := rfl
@[simp] theorem State.refuseIllcmd_pending : s.refuseIllcmd.pending = s.pending := rfl
@[simp] theorem State.refuseIllcmd_rdata : s.refuseIllcmd.rdata = s.rdata := rfl
@[simp] theorem State.refuseIllcmd_draws : s.refuseIllcmd.draws = s.draws := rfl
@[simp] theorem State.refuseIllcmd_resets : s.refuseIllcmd.resets = s.resets := rfl
@[simp] theorem State.refuseIllcmd_copyId : s.refuseIllcmd.copyId = s.copyId := rfl

/-! ### `State.emit` -/

@[simp] theorem State.emit_params (v : Byte) : (s.emit v).params = s.params := rfl
@[simp] theorem State.emit_ibuf (v : Byte) : (s.emit v).ibuf = s.ibuf := rfl
@[simp] theorem State.emit_obuf (v : Byte) : (s.emit v).obuf = Memory.writeByte s.obuf s.olen v := rfl
@[simp] theorem State.emit_ilen (v : Byte) : (s.emit v).ilen = s.ilen := rfl
@[simp] theorem State.emit_olen (v : Byte) : (s.emit v).olen = s.olen + 1 := rfl
@[simp] theorem State.emit_status (v : Byte) : (s.emit v).status = s.status := rfl
@[simp] theorem State.emit_errCause (v : Byte) : (s.emit v).errCause = s.errCause := rfl
@[simp] theorem State.emit_errPos (v : Byte) : (s.emit v).errPos = s.errPos := rfl
@[simp] theorem State.emit_phase (v : Byte) : (s.emit v).phase = s.phase := rfl
@[simp] theorem State.emit_cur (v : Byte) : (s.emit v).cur = s.cur := rfl
@[simp] theorem State.emit_ipos (v : Byte) : (s.emit v).ipos = s.ipos := rfl
@[simp] theorem State.emit_acc (v : Byte) : (s.emit v).acc = s.acc := rfl
@[simp] theorem State.emit_nbits (v : Byte) : (s.emit v).nbits = s.nbits := rfl
@[simp] theorem State.emit_npad (v : Byte) : (s.emit v).npad = s.npad := rfl
@[simp] theorem State.emit_pending (v : Byte) : (s.emit v).pending = s.pending := rfl
@[simp] theorem State.emit_rdata (v : Byte) : (s.emit v).rdata = s.rdata := rfl
@[simp] theorem State.emit_draws (v : Byte) : (s.emit v).draws = s.draws := rfl
@[simp] theorem State.emit_resets (v : Byte) : (s.emit v).resets = s.resets := rfl
@[simp] theorem State.emit_copyId (v : Byte) : (s.emit v).copyId = s.copyId := rfl

/-! ### `State.draw` -/

@[simp] theorem State.draw_params : s.draw.params = s.params := rfl
@[simp] theorem State.draw_ibuf : s.draw.ibuf = s.ibuf := rfl
@[simp] theorem State.draw_obuf : s.draw.obuf = s.obuf := rfl
@[simp] theorem State.draw_ilen : s.draw.ilen = s.ilen := rfl
@[simp] theorem State.draw_olen : s.draw.olen = s.olen := rfl
@[simp] theorem State.draw_status : s.draw.status = s.status := rfl
@[simp] theorem State.draw_errCause : s.draw.errCause = s.errCause := rfl
@[simp] theorem State.draw_errPos : s.draw.errPos = s.errPos := rfl
@[simp] theorem State.draw_phase : s.draw.phase = s.phase := rfl
@[simp] theorem State.draw_cur : s.draw.cur = s.cur := rfl
@[simp] theorem State.draw_ipos : s.draw.ipos = s.ipos := rfl
@[simp] theorem State.draw_acc : s.draw.acc = s.acc := rfl
@[simp] theorem State.draw_nbits : s.draw.nbits = s.nbits := rfl
@[simp] theorem State.draw_npad : s.draw.npad = s.npad := rfl
@[simp] theorem State.draw_pending : s.draw.pending = s.pending := rfl
@[simp] theorem State.draw_rdata : s.draw.rdata = s.rdata := rfl
@[simp] theorem State.draw_draws : s.draw.draws = s.draws + 1 := rfl
@[simp] theorem State.draw_resets : s.draw.resets = s.resets := rfl
@[simp] theorem State.draw_copyId : s.draw.copyId = s.copyId := rfl

/-! ### `State.answer` -/

@[simp] theorem State.answer_params (v : Nat) : (s.answer v).params = s.params := rfl
@[simp] theorem State.answer_ibuf (v : Nat) : (s.answer v).ibuf = s.ibuf := rfl
@[simp] theorem State.answer_obuf (v : Nat) : (s.answer v).obuf = s.obuf := rfl
@[simp] theorem State.answer_ilen (v : Nat) : (s.answer v).ilen = s.ilen := rfl
@[simp] theorem State.answer_olen (v : Nat) : (s.answer v).olen = s.olen := rfl
@[simp] theorem State.answer_status (v : Nat) : (s.answer v).status = s.status := rfl
@[simp] theorem State.answer_errCause (v : Nat) : (s.answer v).errCause = s.errCause := rfl
@[simp] theorem State.answer_errPos (v : Nat) : (s.answer v).errPos = s.errPos := rfl
@[simp] theorem State.answer_phase (v : Nat) : (s.answer v).phase = s.phase := rfl
@[simp] theorem State.answer_cur (v : Nat) : (s.answer v).cur = s.cur := rfl
@[simp] theorem State.answer_ipos (v : Nat) : (s.answer v).ipos = s.ipos := rfl
@[simp] theorem State.answer_acc (v : Nat) : (s.answer v).acc = s.acc := rfl
@[simp] theorem State.answer_nbits (v : Nat) : (s.answer v).nbits = s.nbits := rfl
@[simp] theorem State.answer_npad (v : Nat) : (s.answer v).npad = s.npad := rfl
@[simp] theorem State.answer_pending (v : Nat) : (s.answer v).pending = s.pending := rfl
@[simp] theorem State.answer_rdata (v : Nat) : (s.answer v).rdata = v := rfl
@[simp] theorem State.answer_draws (v : Nat) : (s.answer v).draws = s.draws := rfl
@[simp] theorem State.answer_resets (v : Nat) : (s.answer v).resets = s.resets := rfl
@[simp] theorem State.answer_copyId (v : Nat) : (s.answer v).copyId = s.copyId := rfl

/-! ### `State.atLevel` -/

@[simp] theorem State.atLevel_params (l : Level) : (s.atLevel l).params = { s.params with level := l } := rfl
@[simp] theorem State.atLevel_ibuf (l : Level) : (s.atLevel l).ibuf = s.ibuf := rfl
@[simp] theorem State.atLevel_obuf (l : Level) : (s.atLevel l).obuf = s.obuf := rfl
@[simp] theorem State.atLevel_ilen (l : Level) : (s.atLevel l).ilen = s.ilen := rfl
@[simp] theorem State.atLevel_olen (l : Level) : (s.atLevel l).olen = s.olen := rfl
@[simp] theorem State.atLevel_status (l : Level) : (s.atLevel l).status = s.status := rfl
@[simp] theorem State.atLevel_errCause (l : Level) : (s.atLevel l).errCause = s.errCause := rfl
@[simp] theorem State.atLevel_errPos (l : Level) : (s.atLevel l).errPos = s.errPos := rfl
@[simp] theorem State.atLevel_phase (l : Level) : (s.atLevel l).phase = s.phase := rfl
@[simp] theorem State.atLevel_cur (l : Level) : (s.atLevel l).cur = s.cur := rfl
@[simp] theorem State.atLevel_ipos (l : Level) : (s.atLevel l).ipos = s.ipos := rfl
@[simp] theorem State.atLevel_acc (l : Level) : (s.atLevel l).acc = s.acc := rfl
@[simp] theorem State.atLevel_nbits (l : Level) : (s.atLevel l).nbits = s.nbits := rfl
@[simp] theorem State.atLevel_npad (l : Level) : (s.atLevel l).npad = s.npad := rfl
@[simp] theorem State.atLevel_pending (l : Level) : (s.atLevel l).pending = s.pending := rfl
@[simp] theorem State.atLevel_rdata (l : Level) : (s.atLevel l).rdata = s.rdata := rfl
@[simp] theorem State.atLevel_draws (l : Level) : (s.atLevel l).draws = s.draws := rfl
@[simp] theorem State.atLevel_resets (l : Level) : (s.atLevel l).resets = s.resets := rfl
@[simp] theorem State.atLevel_copyId (l : Level) : (s.atLevel l).copyId = s.copyId := rfl

/-! ### `State.applyReset` -/

@[simp] theorem State.applyReset_params : s.applyReset.params = s.params := rfl
@[simp] theorem State.applyReset_ibuf : s.applyReset.ibuf = [] := rfl
@[simp] theorem State.applyReset_obuf : s.applyReset.obuf = [] := rfl
@[simp] theorem State.applyReset_ilen : s.applyReset.ilen = 0 := rfl
@[simp] theorem State.applyReset_olen : s.applyReset.olen = 0 := rfl
@[simp] theorem State.applyReset_status : s.applyReset.status = 0x00 := rfl
@[simp] theorem State.applyReset_errCause : s.applyReset.errCause = 0 := rfl
@[simp] theorem State.applyReset_errPos : s.applyReset.errPos = 0 := rfl
@[simp] theorem State.applyReset_phase : s.applyReset.phase = .idle := rfl
@[simp] theorem State.applyReset_cur : s.applyReset.cur = 0 := rfl
@[simp] theorem State.applyReset_ipos : s.applyReset.ipos = 0 := rfl
@[simp] theorem State.applyReset_acc : s.applyReset.acc = 0 := rfl
@[simp] theorem State.applyReset_nbits : s.applyReset.nbits = 0 := rfl
@[simp] theorem State.applyReset_npad : s.applyReset.npad = 0 := rfl
@[simp] theorem State.applyReset_pending : s.applyReset.pending = s.pending := rfl
@[simp] theorem State.applyReset_rdata : s.applyReset.rdata = s.rdata := rfl
@[simp] theorem State.applyReset_draws : s.applyReset.draws = s.draws := rfl
@[simp] theorem State.applyReset_resets : s.applyReset.resets = s.resets + 1 := rfl
@[simp] theorem State.applyReset_copyId : s.applyReset.copyId = s.copyId := rfl

end Sys2Proof.Machine
end

