-- ==== Sys2Proof/Laws/Ops.lean ====
section
/-! SUPPORT. Everything each shared operation can do, said once. -/

namespace Sys2Proof.Machine

theorem Cause.code_range (cause : Cause) : 1 ≤ cause.code.toNat ∧ cause.code.toNat ≤ 5 := by cases cause <;> decide

/-- What saving the error information can do: a cause in 1..5 and a position of the register's width; the reference values
where the parameters choose them (R119, R120). -/
theorem State.saveErrInfo_spec (s : State) (cause : Cause) (pos : Nat) :
    ∃ (ec : BitVec 3) (ep dr : Nat), s.saveErrInfo cause pos = { s with errCause := ec, errPos := ep, draws := dr } ∧
      1 ≤ ec.toNat ∧ ec.toNat ≤ 5 ∧ (pos < 2 ^ s.params.lenw → ep < 2 ^ s.params.lenw) ∧
      (s.params.errInfo = .reference → ec = cause.code ∧ ep = pos ∧ dr = s.draws) := by
  unfold State.saveErrInfo
  split
  · exact ⟨cause.code, pos, s.draws, rfl, cause.code_range.1, cause.code_range.2, id, fun _ => ⟨rfl, rfl, rfl⟩⟩
  · rename_i h
    refine ⟨_, _, _, rfl, ?_, ?_, fun _ => Nat.mod_lt _ (by positivity), fun h' => by rw [h] at h'; cases h'⟩
    · rw [BitVec.toNat_ofNat]
      omega
    · rw [BitVec.toNat_ofNat]
      omega

/-- Taking `InvalidEncoding` (R121): no output, `ERR` set in the status, complete, the error information saved; nothing else
changes. -/
theorem State.raiseInvalidEncoding_spec (s : State) (cause : Cause) (pos : Nat) :
    ∃ (ec : BitVec 3) (ep dr : Nat), s.raiseInvalidEncoding cause pos =
        { s with
          errCause := ec, errPos := ep, draws := dr, olen := 0
          status := setFlag (clearFlag (setFlag s.status .err) .busy) .done, phase := .idle } ∧
      1 ≤ ec.toNat ∧ ec.toNat ≤ 5 ∧ (pos < 2 ^ s.params.lenw → ep < 2 ^ s.params.lenw) ∧
      (s.params.errInfo = .reference → ec = cause.code ∧ ep = pos ∧ dr = s.draws) := by
  obtain ⟨ec, ep, dr, h, rest⟩ := s.saveErrInfo_spec cause pos
  refine ⟨ec, ep, dr, ?_, rest⟩
  simp only [State.raiseInvalidEncoding, h, State.complete]

/-- `FAIL` in a decode (R100). -/
theorem State.failCheck_decode {s : State} (cause : Cause) (pos : Nat) (h : s.opBits = Op.decode.bits) :
    s.failCheck cause pos = s.raiseInvalidEncoding cause pos := if_pos h

/-- `FAIL` in a validate (R100). -/
theorem State.failCheck_validate {s : State} (cause : Cause) (pos : Nat) (h : s.opBits = Op.validate.bits) :
    s.failCheck cause pos = s.complete := by
  refine if_neg fun h' => ?_
  rw [h] at h'
  exact absurd h' (by decide)

/-- The codec that a command latches in `CUR` is its own (R38). -/
theorem State.codec_of_cur {s : State} {c : Codec} {op : Op} (h : s.cur = curOf c op) : s.codec = c := by
  rw [State.codec, h]
  cases c <;> cases op <;> decide

/-- The operation that a command latches in `CUR` is its own (R38). -/
theorem State.opBits_of_cur {s : State} {c : Codec} {op : Op} (h : s.cur = curOf c op) : s.opBits = op.bits := by
  rw [State.opBits, h]
  cases c <;> cases op <;> decide

@[simp] theorem State.input_length (s : State) : s.input.length = s.ilen := by simp [State.input]

@[simp] theorem State.result_length (s : State) : s.result.length = s.olen := by simp [State.result]

/-- The input a command works on is element by element what `IBUF` holds. -/
theorem State.input_getElem? {s : State} {i : Nat} (h : i < s.ilen) : s.input[i]? = some (s.ibufAt i) := by
  simp [State.input, h]

theorem State.runCommand_busy {s : State} (c : Codec) (op : Op) (h : s.busy = true) : s.runCommand c op = s := by
  rw [State.runCommand, if_pos h]

theorem State.runCommand_long {s : State} (c : Codec) (op : Op) (h : s.busy = false) (hl : s.params.inCap < s.ilen) :
    s.runCommand c op = s.clear.refuseIllcmd := by
  rw [State.runCommand, if_neg (by simp [h])]
  exact if_pos hl

theorem State.runCommand_architectural {s : State} (c : Codec) (op : Op) (h : s.busy = false)
    (hl : s.ilen ≤ s.params.inCap) (hv : s.params.level = .architectural) :
    s.runCommand c op = s.clear.archCommand c op := by
  rw [State.runCommand, if_neg (by simp [h])]
  simp only [State.clear_ilen, State.clear_params, hv]
  exact if_neg (by omega)

theorem State.runCommand_microStep {s : State} (c : Codec) (op : Op) (h : s.busy = false)
    (hl : s.ilen ≤ s.params.inCap) (hv : s.params.level = .microStep) :
    s.runCommand c op = s.clear.start c op := by
  rw [State.runCommand, if_neg (by simp [h])]
  simp only [State.clear_ilen, State.clear_params, hv]
  exact if_neg (by omega)

/-- The result sequence that writing `out` from index 0 leaves (R105, R106). -/
theorem State.result_writeSeq (s : State) (out : List Byte) (h : s.obuf = Memory.writeSeq m 0 out)
    (hl : s.olen = out.length) : s.result = out.map some := by
  apply List.ext_getElem?
  intro i
  simp only [State.result, h, hl, List.getElem?_map]
  by_cases hi : i < out.length
  · rw [List.getElem?_range hi]
    simp [Memory.readByte_writeSeq, hi]
  · rw [List.getElem?_eq_none (by simpa using hi), List.getElem?_eq_none (by simpa using hi)]
    rfl

end Sys2Proof.Machine
end

