-- ==== Sys2Proof/Laws/Step.lean ====
section
/-! SUPPORT. What a step can do, event by event, and what the core's steps leave alone. -/

namespace Sys2Proof.Machine

/-- The meaning of a command word is the command it names. -/
theorem exec_commandInstr (c : Codec) (op : Op) (s : State) : exec (commandInstr c op) s = .next (s.runCommand c op) := by
  cases c <;> cases op <;> rfl

/-- What `exec` can do: run one of the six commands, or refuse a reserved word. -/
theorem exec_cases (i : Instr) (s : State) :
    (∃ c op, i = commandInstr c op ∧ exec i s = .next (s.runCommand c op)) ∨ exec i s = .next s.runReserved := by
  cases i with
  | enc32 => exact .inl ⟨.base32, .encode, rfl, rfl⟩
  | dec32 => exact .inl ⟨.base32, .decode, rfl, rfl⟩
  | val32 => exact .inl ⟨.base32, .validate, rfl, rfl⟩
  | enc64u => exact .inl ⟨.base64url, .encode, rfl, rfl⟩
  | dec64u => exact .inl ⟨.base64url, .decode, rfl, rfl⟩
  | val64u => exact .inl ⟨.base64url, .validate, rfl, rfl⟩
  | reservedOp11 => exact .inr rfl
  | reservedBit7 => exact .inr rfl
  | reservedBit6 => exact .inr rfl
  | reservedBit5 => exact .inr rfl
  | reservedBit4 => exact .inr rfl
  | reservedBit3 => exact .inr rfl

theorem step_of_pending_nil {s : State} (h : s.pending = []) : step s = .next s.coreStep := by
  simp [step, State.nextEvent, h]

theorem step_of_pending_core {s : State} {rest : List Event} (h : s.pending = .core :: rest) :
    step s = .next { s with pending := rest }.coreStep := by simp [step, State.nextEvent, h]

theorem step_of_pending_reset {s : State} {rest : List Event} (h : s.pending = .reset :: rest) :
    step s = .next { s with pending := rest }.applyReset := by simp [step, State.nextEvent, h]

theorem step_of_pending_host {s : State} {op : HostOp} {rest : List Event} (h : s.pending = .host op :: rest) :
    step s = s.hostOp op rest := by simp [step, State.nextEvent, h]

/-- The fields a step of the core never touches (R25, R38, R54). -/
structure CoreFrame (s t : State) : Prop where
  params : t.params = s.params
  ibuf : t.ibuf = s.ibuf
  ilen : t.ilen = s.ilen
  cur : t.cur = s.cur
  pending : t.pending = s.pending
  rdata : t.rdata = s.rdata
  resets : t.resets = s.resets
  copyId : t.copyId = s.copyId

theorem CoreFrame.refl (s : State) : CoreFrame s s := ⟨rfl, rfl, rfl, rfl, rfl, rfl, rfl, rfl⟩

theorem CoreFrame.trans {s t u : State} (h : CoreFrame s t) (h' : CoreFrame t u) : CoreFrame s u :=
  ⟨h'.params.trans h.params, h'.ibuf.trans h.ibuf, h'.ilen.trans h.ilen, h'.cur.trans h.cur,
    h'.pending.trans h.pending, h'.rdata.trans h.rdata, h'.resets.trans h.resets, h'.copyId.trans h.copyId⟩

theorem CoreFrame.raiseInvalidEncoding (s : State) (cause : Cause) (pos : Nat) :
    CoreFrame s (s.raiseInvalidEncoding cause pos) := by
  obtain ⟨ec, ep, dr, h, -⟩ := s.raiseInvalidEncoding_spec cause pos
  rw [h]
  exact ⟨rfl, rfl, rfl, rfl, rfl, rfl, rfl, rfl⟩

theorem CoreFrame.failCheck (s : State) (cause : Cause) (pos : Nat) : CoreFrame s (s.failCheck cause pos) := by
  unfold State.failCheck
  split
  · exact CoreFrame.raiseInvalidEncoding s cause pos
  · exact ⟨rfl, rfl, rfl, rfl, rfl, rfl, rfl, rfl⟩

theorem CoreFrame.drain (n : Nat) (s : State) : CoreFrame s (State.drain n s) := by
  induction n generalizing s with
  | zero => exact CoreFrame.refl s
  | succ n ih =>
    unfold State.drain
    simp only
    split
    · refine CoreFrame.trans ?_ (ih _)
      exact ⟨rfl, rfl, rfl, rfl, rfl, rfl, rfl, rfl⟩
    · exact CoreFrame.refl s

theorem CoreFrame.takeSymbol (s : State) (v : Nat) : CoreFrame s (s.takeSymbol v) := by
  unfold State.takeSymbol
  simp only
  split
  · split <;> exact ⟨rfl, rfl, rfl, rfl, rfl, rfl, rfl, rfl⟩
  · exact ⟨rfl, rfl, rfl, rfl, rfl, rfl, rfl, rfl⟩

/-- No step of the core touches the parameters, the input, the latched command or the host's events. -/
theorem CoreFrame.coreStep (s : State) : CoreFrame s s.coreStep := by
  unfold State.coreStep
  split
  · exact CoreFrame.refl s
  · unfold State.stepERun
    split
    · refine CoreFrame.trans ?_ (CoreFrame.drain 3 _)
      exact ⟨rfl, rfl, rfl, rfl, rfl, rfl, rfl, rfl⟩
    · exact ⟨rfl, rfl, rfl, rfl, rfl, rfl, rfl, rfl⟩
  · unfold State.stepEFlush
    simp only
    split <;> exact ⟨rfl, rfl, rfl, rfl, rfl, rfl, rfl, rfl⟩
  · unfold State.stepEPad
    split <;> exact ⟨rfl, rfl, rfl, rfl, rfl, rfl, rfl, rfl⟩
  · unfold State.stepDRun
    simp only
    split
    · split
      · exact ⟨rfl, rfl, rfl, rfl, rfl, rfl, rfl, rfl⟩
      · split
        · exact CoreFrame.failCheck s _ _
        · split
          · exact CoreFrame.failCheck s _ _
          · exact CoreFrame.takeSymbol s _
    · exact ⟨rfl, rfl, rfl, rfl, rfl, rfl, rfl, rfl⟩
  · unfold State.stepDFinal
    split
    · exact CoreFrame.failCheck s _ _
    · split
      · exact CoreFrame.failCheck s _ _
      · split <;> exact ⟨rfl, rfl, rfl, rfl, rfl, rfl, rfl, rfl⟩

/-- An idle core does nothing. -/
theorem State.coreStep_of_idle {s : State} (h : s.phase = .idle) : s.coreStep = s := by simp [State.coreStep, h]

/-- What a core step computes does not depend on the host's events or on its read port: both may be changed before it or
after it. -/
theorem State.raiseInvalidEncoding_setHost (s : State) (p : List Event) (r : Nat) (cause : Cause) (pos : Nat) :
    { s with pending := p, rdata := r }.raiseInvalidEncoding cause pos =
      { s.raiseInvalidEncoding cause pos with pending := p, rdata := r } := by
  simp only [State.raiseInvalidEncoding, State.saveErrInfo, State.complete, State.draw]
  cases s.params.errInfo <;> rfl

theorem State.failCheck_setHost (s : State) (p : List Event) (r : Nat) (cause : Cause) (pos : Nat) :
    { s with pending := p, rdata := r }.failCheck cause pos = { s.failCheck cause pos with pending := p, rdata := r } := by
  have h : { s with pending := p, rdata := r }.opBits = s.opBits := rfl
  unfold State.failCheck
  rw [h]
  split
  · exact s.raiseInvalidEncoding_setHost p r cause pos
  · rfl

theorem State.drain_setHost (n : Nat) (s : State) (p : List Event) (r : Nat) :
    State.drain n { s with pending := p, rdata := r } = { State.drain n s with pending := p, rdata := r } := by
  induction n generalizing s with
  | zero => rfl
  | succ n ih =>
    have hc : { s with pending := p, rdata := r }.codec = s.codec := rfl
    unfold State.drain
    simp only [hc]
    split
    · exact ih { s.emit (encLut s.codec ((s.acc.toNat >>> (s.nbits.toNat - groupBits s.codec)) % 2 ^ groupBits s.codec)) with
        nbits := BitVec.ofNat 4 (s.nbits.toNat - groupBits s.codec)
        acc := BitVec.ofNat 12 (s.acc.toNat % 2 ^ (s.nbits.toNat - groupBits s.codec)) }
    · rfl

theorem State.coreStep_setHost (s : State) (p : List Event) (r : Nat) :
    { s with pending := p, rdata := r }.coreStep = { s.coreStep with pending := p, rdata := r } := by
  have hc : { s with pending := p, rdata := r }.codec = s.codec := rfl
  have hi : { s with pending := p, rdata := r }.ibufAt = s.ibufAt := rfl
  have ho : { s with pending := p, rdata := r }.opBits = s.opBits := rfl
  unfold State.coreStep
  simp only
  split
  · rfl
  · unfold State.stepERun
    simp only [hi]
    split
    · exact State.drain_setHost 3 { s with
        acc := (s.acc <<< 8) ||| (s.ibufAt s.ipos).zeroExtend 12, nbits := s.nbits + 8, ipos := s.ipos + 1 } p r
    · rfl
  · unfold State.stepEFlush
    simp only [hc]
    split <;> rfl
  · unfold State.stepEPad
    simp only [hc]
    split <;> rfl
  · unfold State.stepDRun
    simp only [hc, hi]
    split
    · split
      · rfl
      · split
        · exact s.failCheck_setHost p r _ _
        · split
          · exact s.failCheck_setHost p r _ _
          · unfold State.takeSymbol
            simp only [hc, ho]
            split
            · split <;> rfl
            · rfl
    · rfl
  · unfold State.stepDFinal
    simp only [hc, ho]
    split
    · exact s.failCheck_setHost p r _ _
    · split
      · exact s.failCheck_setHost p r _ _
      · split <;> rfl

end Sys2Proof.Machine
end

