-- ==== Sys2Proof/Laws/Micro.lean ====
section
/-! SUPPORT. What the datapath computes, in numbers: the window of `E_RUN` and of `D_RUN` never overflows, and the loop of
`E_RUN` emits its whole groups (R95, R98, R41, R86). -/

namespace Sys2Proof.Machine

/-- Keeping the low bits of the low bits. -/
theorem mod_two_pow_mod {n a b : Nat} (h : b ≤ a) : n % 2 ^ a % 2 ^ b = n % 2 ^ b :=
  Nat.mod_mod_of_dvd _ (pow_dvd_pow 2 h)

/-- A field cut from the low bits is the field cut from the whole, when it lies inside them. -/
theorem mod_div_mod {n a b k : Nat} (h : b + k ≤ a) : n % 2 ^ a / 2 ^ b % 2 ^ k = n / 2 ^ b % 2 ^ k := by
  have ha : 2 ^ a = 2 ^ b * 2 ^ (a - b) := by
    rw [← pow_add]
    congr 1
    omega
  rw [ha, Nat.mod_mul_right_div_self]
  exact mod_two_pow_mod (by omega)

/-- Appending `v` below the bits of `a`. -/
theorem mul_two_pow_or {a v k : Nat} (h : v < 2 ^ k) : a * 2 ^ k ||| v = a * 2 ^ k + v := by
  rw [Nat.mul_comm, Nat.two_pow_add_eq_or_of_lt h]

/-- `ACC` after a byte is appended: no overflow of its 12 bits (R41). -/
theorem acc_append_byte {acc : BitVec 12} {n : Nat} (x : Byte) (h : acc.toNat < 2 ^ n) (hn : n ≤ 4) :
    ((acc <<< 8) ||| x.zeroExtend 12).toNat = acc.toNat * 256 + x.toNat := by
  have hx := x.isLt
  have ha : acc.toNat < 16 := lt_of_lt_of_le h (by
    calc 2 ^ n ≤ 2 ^ 4 := Nat.pow_le_pow_right (by decide) hn
      _ = 16 := by norm_num)
  rw [BitVec.toNat_or, BitVec.toNat_shiftLeft, BitVec.toNat_setWidth, Nat.shiftLeft_eq]
  rw [Nat.mod_eq_of_lt (by omega : x.toNat < 2 ^ 12), Nat.mod_eq_of_lt (by omega : acc.toNat * 2 ^ 8 < 2 ^ 12)]
  exact mul_two_pow_or hx

/-- `ACC` after a symbol value is appended: no overflow of its 12 bits (R41). -/
theorem acc_append_symbol {acc : BitVec 12} {n k v : Nat} (hv : v < 2 ^ k) (h : acc.toNat < 2 ^ n) (hn : n + k ≤ 12) :
    ((acc <<< k) ||| BitVec.ofNat 12 v).toNat = acc.toNat * 2 ^ k + v := by
  have hpow : 2 ^ n * 2 ^ k ≤ 2 ^ 12 := by
    rw [← pow_add]
    exact Nat.pow_le_pow_right (by decide) hn
  have hk : 2 ^ k ≤ 2 ^ 12 := Nat.pow_le_pow_right (by decide) (by omega)
  have hmul : acc.toNat * 2 ^ k < 2 ^ 12 := lt_of_lt_of_le (Nat.mul_lt_mul_of_pos_right h (by positivity)) hpow
  rw [BitVec.toNat_or, BitVec.toNat_shiftLeft, BitVec.toNat_ofNat, Nat.shiftLeft_eq, Nat.mod_eq_of_lt hmul,
    Nat.mod_eq_of_lt (lt_of_lt_of_le hv hk), mul_two_pow_or hv]

/-- The window is below `2^(n+k)` when its parts are in range. -/
theorem window_lt {a v n k : Nat} (ha : a < 2 ^ n) (hv : v < 2 ^ k) : a * 2 ^ k + v < 2 ^ (n + k) := by
  rw [pow_add]
  calc a * 2 ^ k + v < a * 2 ^ k + 2 ^ k := by omega
    _ = (a + 1) * 2 ^ k := by ring
    _ ≤ 2 ^ n * 2 ^ k := Nat.mul_le_mul_right _ ha

theorem State.emit_codec (s : State) (v : Byte) : (s.emit v).codec = s.codec := rfl

/-- One round of the loop of `E_RUN`. -/
theorem State.drain_succ (n : Nat) (s : State) :
    State.drain (n + 1) s =
      if s.nbits.toNat ≥ groupBits s.codec then
        State.drain n
          { s.emit (encLut s.codec ((s.acc.toNat >>> (s.nbits.toNat - groupBits s.codec)) % 2 ^ groupBits s.codec)) with
            nbits := BitVec.ofNat 4 (s.nbits.toNat - groupBits s.codec)
            acc := BitVec.ofNat 12 (s.acc.toNat % 2 ^ (s.nbits.toNat - groupBits s.codec)) }
      else s := rfl

/-- The loop of `E_RUN`, when it has the rounds it needs: it emits the `NBITS div k` whole groups of `ACC`, most significant
first, at the indices from `OLEN` on, keeps the rest, and touches nothing else (R95). -/
theorem State.drain_spec (n : Nat) (s : State) (hn : s.nbits.toNat / groupBits s.codec ≤ n)
    (hacc : s.acc.toNat < 2 ^ s.nbits.toNat) :
    let k := groupBits s.codec
    let m := s.nbits.toNat / k
    (State.drain n s).olen = s.olen + m ∧
    (State.drain n s).nbits.toNat = s.nbits.toNat % k ∧
    (State.drain n s).acc.toNat = s.acc.toNat % 2 ^ (s.nbits.toNat % k) ∧
    (∀ j < m, Memory.readByte (State.drain n s).obuf (s.olen + j) =
      some (encLut s.codec (s.acc.toNat / 2 ^ (s.nbits.toNat - k * (j + 1)) % 2 ^ k))) ∧
    (∀ a, a < s.olen ∨ s.olen + m ≤ a → Memory.readByte (State.drain n s).obuf a = Memory.readByte s.obuf a) ∧
    (Memory.wf s.obuf = true → Memory.wf (State.drain n s).obuf = true) ∧
    (∀ cell ∈ (State.drain n s).obuf, cell ∈ s.obuf ∨ (s.olen ≤ cell.1 ∧ cell.1 < s.olen + m)) ∧
    { State.drain n s with obuf := s.obuf, olen := s.olen, nbits := s.nbits, acc := s.acc } = s := by
  simp only
  induction n generalizing s with
  | zero =>
    have hk := groupBits_pos s.codec
    have hm : s.nbits.toNat / groupBits s.codec = 0 := Nat.le_zero.mp hn
    have hlt : s.nbits.toNat < groupBits s.codec := by
      rcases Nat.div_eq_zero_iff.mp hm with h | h
      · omega
      · exact h
    rw [hm, Nat.mod_eq_of_lt hlt, Nat.mod_eq_of_lt hacc]
    refine ⟨rfl, rfl, rfl, fun _ h => absurd h (Nat.not_lt_zero _), fun _ _ => rfl, id, fun _ h => .inl h, rfl⟩
  | succ n ih =>
    have hk := groupBits_pos s.codec
    rw [State.drain_succ]
    split
    · rename_i hge
      generalize hs1 : ({ s.emit (encLut s.codec ((s.acc.toNat >>> (s.nbits.toNat - groupBits s.codec)) % 2 ^ groupBits s.codec))
        with
        nbits := BitVec.ofNat 4 (s.nbits.toNat - groupBits s.codec)
        acc := BitVec.ofNat 12 (s.acc.toNat % 2 ^ (s.nbits.toNat - groupBits s.codec)) } : State) = s1
      have hnb := s.nbits.isLt
      have hc : s1.codec = s.codec := by subst hs1; rfl
      have hn1 : s1.nbits.toNat = s.nbits.toNat - groupBits s.codec := by
        subst hs1
        rw [BitVec.toNat_ofNat]
        exact Nat.mod_eq_of_lt (by omega)
      have ha1 : s1.acc.toNat = s.acc.toNat % 2 ^ (s.nbits.toNat - groupBits s.codec) := by
        subst hs1
        rw [BitVec.toNat_ofNat]
        exact Nat.mod_eq_of_lt (lt_of_le_of_lt (Nat.mod_le _ _) s.acc.isLt)
      have ho1 : s1.olen = s.olen + 1 := by subst hs1; rfl
      have hm1 : s1.obuf = Memory.writeByte s.obuf s.olen
          (encLut s.codec ((s.acc.toNat >>> (s.nbits.toNat - groupBits s.codec)) % 2 ^ groupBits s.codec)) := by
        subst hs1; rfl
      have hm : s.nbits.toNat / groupBits s.codec = (s.nbits.toNat - groupBits s.codec) / groupBits s.codec + 1 := by
        rw [Nat.div_eq_sub_div hk hge]
      have hmod : s.nbits.toNat % groupBits s.codec = (s.nbits.toNat - groupBits s.codec) % groupBits s.codec :=
        Nat.mod_eq_sub_mod hge
      have hmodle : (s.nbits.toNat - groupBits s.codec) % groupBits s.codec ≤ s.nbits.toNat - groupBits s.codec :=
        Nat.mod_le _ _
      obtain ⟨q, hq⟩ : ∃ q, (s.nbits.toNat - groupBits s.codec) / groupBits s.codec = q := ⟨_, rfl⟩
      rw [hm, hq] at hn
      have h := ih s1 (by rw [hc, hn1, hq]; omega) (by rw [ha1, hn1]; exact Nat.mod_lt _ (by positivity))
      rw [hc, hn1, ha1, ho1, hm1, hq] at h
      obtain ⟨h1, h2, h3, h4, h5, h6, h7, h8⟩ := h
      rw [hm, hmod, hq]
      refine ⟨by omega, h2, ?_, ?_, ?_, ?_, ?_, ?_⟩
      · rw [h3, mod_two_pow_mod hmodle]
      · intro j hj
        cases j with
        | zero =>
          rw [h5 _ (by omega), Nat.add_zero, Memory.readByte_writeByte_same, Nat.shiftRight_eq_div_pow]
          norm_num
        | succ j =>
          have := h4 j (by omega)
          rw [show s.olen + (j + 1) = s.olen + 1 + j by omega, this]
          have hle : groupBits s.codec * (j + 1) ≤ s.nbits.toNat - groupBits s.codec := by
            have := Nat.mul_le_mul_left (groupBits s.codec) (show j + 1 ≤ q by omega)
            exact le_trans this (hq ▸ Nat.mul_div_le _ _)
          have hstep : groupBits s.codec * (j + 1 + 1) = groupBits s.codec * (j + 1) + groupBits s.codec := by ring
          have hpos : groupBits s.codec ≤ groupBits s.codec * (j + 1) := Nat.le_mul_of_pos_right _ (by omega)
          rw [mod_div_mod (by omega), hstep]
          congr 5
          omega
      · intro a ha
        have hne : a ≠ s.olen := by omega
        rw [h5 a (by omega), Memory.readByte_writeByte_other _ _ hne]
      · intro hw
        exact h6 (Memory.wf_writeByte _ _ hw)
      · intro cell hc
        rcases h7 cell hc with h | h
        · rcases Memory.mem_writeByte h with rfl | h
          · exact .inr ⟨le_refl _, by show s.olen < _; omega⟩
          · exact .inl h
        · exact .inr (by omega)
      · have := congrArg (fun u : State => { u with obuf := s.obuf, olen := s.olen, nbits := s.nbits, acc := s.acc }) h8
        simp only at this
        rw [this]
        subst hs1
        rfl
    · rename_i hlt
      have hlt : s.nbits.toNat < groupBits s.codec := by omega
      rw [Nat.div_eq_of_lt hlt, Nat.mod_eq_of_lt hlt, Nat.mod_eq_of_lt hacc]
      refine ⟨rfl, rfl, rfl, fun _ h => absurd h (Nat.not_lt_zero _), fun _ _ => rfl, id, fun _ h => .inl h, rfl⟩

end Sys2Proof.Machine
end

