-- ==== Sys2Proof/Laws/Invariant.lean ====
section
/-! SUPPORT. What the invariant says of a state, in the forms proofs use. -/

namespace Sys2Proof.Machine

/-- The constraints of R10 in the form `omega` takes. -/
theorem Params.bounds_of_ok {p : Params} (h : p.ok = true) :
    8 * ((p.inCap + 4) / 5) ≤ p.outCap ∧ p.inCap < 2 ^ p.lenw ∧ p.outCap < 2 ^ p.lenw := by
  simp only [Params.ok, Bool.and_eq_true, decide_eq_true_eq] at h
  have := Nat.two_pow_pos p.lenw
  omega

/-- The model's own host fields are outside the invariant. -/
theorem State.Inv.setHost {s : State} (h : s.Inv) (p : List Event) (r d : Nat) :
    { s with pending := p, rdata := r, draws := d }.Inv :=
  ⟨h.1, h.2, h.3, h.4, h.5, h.6, h.7, h.8, h.9, h.10, h.11, h.12, h.13⟩

/-- `BUSY`, `STATUS` and `PHASE` say the same of a running command (R30, R37). -/
theorem State.Inv.busy_iff {s : State} (h : s.Inv) :
    (s.busy = true ↔ s.status = 0x01) ∧ (s.busy = true ↔ s.phase ≠ .idle) := by
  have ho := h.outcome_ok
  unfold State.OutcomeOk at ho
  unfold State.busy
  rcases ho with ⟨h1, h2, -⟩ | ⟨h1, h2⟩
  · simp [h1, h2, getFlag, Flag.bit]
  · rcases h2 with h2 | h2 | h2 | h2 | h2 <;> simp [h1, h2.1, getFlag, Flag.bit]

/-- Emitting into a free place keeps the canonical form, the capacity and the determined result. -/
theorem State.Inv.emitFacts {s : State} (h : s.Inv) (v : Byte) (ho : s.olen < s.params.outCap) :
    Memory.wf (s.emit v).obuf = true ∧ (∀ cell ∈ (s.emit v).obuf, cell.1 < s.params.outCap) ∧
    (∀ i < s.olen + 1, (Memory.readByte (s.emit v).obuf i).isSome) := by
  refine ⟨Memory.wf_writeByte _ _ h.obuf_wf, ?_, ?_⟩
  · intro cell hc
    rcases Memory.mem_writeByte hc with rfl | hc
    · exact ho
    · exact h.obuf_in _ hc
  · intro i hi
    show (Memory.readByte (Memory.writeByte _ _ _) i).isSome
    rw [Memory.readByte_writeByte]
    split
    · rfl
    · exact h.result_determined i (by omega)

/-- Between two bytes an encode holds at most 4 bits. -/
theorem State.EncodeRunOk.nbits_le {s : State} (h : s.EncodeRunOk) : s.nbits.toNat ≤ 4 := by
  obtain ⟨-, -, h1, h2⟩ := h
  rcases groupBits_cases s.codec with hk | hk <;> rw [hk] at h1 h2 <;> omega

/-- One more group always fits the window of a decode. -/
theorem State.DecodeRunOk.nbits_le {s : State} (h : s.DecodeRunOk) : s.nbits.toNat + groupBits s.codec ≤ 12 := by
  obtain ⟨-, -, h1, h2⟩ := h
  rcases groupBits_cases s.codec with hk | hk <;> rw [hk] at h2 ⊢
  · omega
  · rcases h2 with ⟨-, h2⟩ | ⟨-, -, h2⟩ <;> omega

/-- Every encoding of an input that fits, fits the output buffer (R10). -/
theorem State.Inv.encoded_length_le {s : State} (h : s.Inv) {c : Codec} (hl : s.ilen ≤ s.params.inCap) :
    blockSize c * ((s.ilen + blockBytes c - 1) / blockBytes c) ≤ s.params.outCap := by
  have := (Params.bounds_of_ok h.params_ok).1
  cases c <;> simp only [blockSize, blockBytes_base32, blockBytes_base64url] <;> omega

/-- A decoded sequence is never longer than its string (R84). -/
theorem decodeString_length_le {c : Codec} {str out : List Byte} (h : decodeString c str = .bytes out) :
    out.length ≤ str.length := by
  obtain ⟨d, p, hc, rfl⟩ := decodeString_eq_bytes.mp h
  obtain ⟨-, -, -, rfl, -⟩ := checkString_eq_ok.mp hc
  simp only [unpack, List.length_map, chunks_length, List.length_range]
  rcases groupBits_cases c with hk | hk <;> rw [hk] <;> omega

end Sys2Proof.Machine
end

