-- ==== Sys2Proof/Laws/PerInstr.lean ====
section
/-! SUPPORT. Laws of the instructions as syntax, one lemma per constructor of `Instr` (LAWS.json names the families). -/

namespace Sys2Proof.Laws.MatchesRow

/-- The mask and the pattern of the instruction's own row of spec/opcode_table.json. -/
def row : Instr → Byte × Byte
  | .enc32 => (0xFF, 0x00)
  | .dec32 => (0xFF, 0x01)
  | .val32 => (0xFF, 0x02)
  | .enc64u => (0xFF, 0x04)
  | .dec64u => (0xFF, 0x05)
  | .val64u => (0xFF, 0x06)
  | .reservedOp11 _ => (0x03, 0x03)
  | .reservedBit7 _ => (0x80, 0x80)
  | .reservedBit6 _ _ => (0x40, 0x40)
  | .reservedBit5 _ _ => (0x20, 0x20)
  | .reservedBit4 _ _ => (0x10, 0x10)
  | .reservedBit3 _ _ => (0x08, 0x08)

/-- The word the encoder writes for an instruction matches the instruction's row, whatever its open bits. -/
def Statement (i : Instr) : Prop := rowMatches (row i).1 (row i).2 (encodeWord i) = true

theorem enc32 : Statement .enc32 := by unfold Statement; decide
theorem dec32 : Statement .dec32 := by unfold Statement; decide
theorem val32 : Statement .val32 := by unfold Statement; decide
theorem enc64u : Statement .enc64u := by unfold Statement; decide
theorem dec64u : Statement .dec64u := by unfold Statement; decide
theorem val64u : Statement .val64u := by unfold Statement; decide
theorem reservedOp11 (hi : BitVec 6) : Statement (.reservedOp11 hi) := by unfold Statement; revert hi; decide
theorem reservedBit7 (lo : BitVec 7) : Statement (.reservedBit7 lo) := by unfold Statement; revert lo; decide
theorem reservedBit6 (hi : BitVec 1) (lo : BitVec 6) : Statement (.reservedBit6 hi lo) := by
  unfold Statement; revert hi lo; decide
theorem reservedBit5 (hi : BitVec 2) (lo : BitVec 5) : Statement (.reservedBit5 hi lo) := by
  unfold Statement; revert hi lo; decide
theorem reservedBit4 (hi : BitVec 3) (lo : BitVec 4) : Statement (.reservedBit4 hi lo) := by
  unfold Statement; revert hi lo; decide
theorem reservedBit3 (hi : BitVec 4) (lo : BitVec 3) : Statement (.reservedBit3 hi lo) := by
  unfold Statement; revert hi lo; decide

end Sys2Proof.Laws.MatchesRow
end

