-- ==== Sys2Proof/Tests/Slice0.lean ====
section
/-! SUPPORT. Small tests with expected results taken from the spec (each names its place), and for every obligation with
hypotheses a state and operands that meet them. -/

namespace Sys2Proof.Tests

open Sys2Proof Sys2Proof.Machine

/-! ### Helpers -/

/-- The block after reset with an input loaded. -/
def loaded (b : List Byte) : State := { State.reset with ibuf := Memory.writeSeq [] 0 b, ilen := b.length }

/-- The same at the micro-step level. -/
def micro (b : List Byte) : State := (loaded b).atLevel .microStep

/-- A command of the micro-step level in the middle of its run. -/
def midway (b : List Byte) (cur : BitVec 3) (phase : Phase) (ipos : Nat) (acc : BitVec 12) (nbits : BitVec 4) (npad : Nat)
    (out : List Byte) : State :=
  { micro b with
    status := 0x01, cur := cur, phase := phase, ipos := ipos, acc := acc, nbits := nbits, npad := npad
    obuf := Memory.writeSeq [] 0 out, olen := out.length }

/-- The state with one more event to come first. -/
def before (e : Event) (s : State) : State := { s with pending := [e] }

/-- A part of the next state; `none` where the step stops. -/
def after {α : Type} (o : Host.Outcome State Fault Refusal) (f : State → α) : Option α :=
  match o with
  | .next t => some (f t)
  | .fault _ => none
  | .refused _ => none

/-- `STATUS` and the output characters or bytes. -/
def output (s : State) : Byte × List (Option Byte) := (s.status, s.result)

/-- `STATUS`, `OLEN`, `ERRCAUSE`, `ERRPOS`. -/
def outcome (s : State) : Byte × Nat × BitVec 3 × Nat := (s.status, s.olen, s.errCause, s.errPos)

/-- The columns of the spec's traces: `PHASE`, then `IPOS`, `ACC`, `NBITS`, `NPAD`, `OLEN`, `STATUS`. -/
def columns (s : State) : Phase × List Nat :=
  (s.phase, [s.ipos, s.acc.toNat, s.nbits.toNat, s.npad, s.olen, s.status.toNat])

/-- `ufsgy43e`, `5u======`, `5v======`, `KHQ=`, `KHR=`, `aa=a====` (95_test_vectors.md). -/
def sUfsgy43e : List Byte := [0x75, 0x66, 0x73, 0x67, 0x79, 0x34, 0x33, 0x65]
def s5u : List Byte := [0x35, 0x75, 0x3D, 0x3D, 0x3D, 0x3D, 0x3D, 0x3D]
def s5v : List Byte := [0x35, 0x76, 0x3D, 0x3D, 0x3D, 0x3D, 0x3D, 0x3D]
def sKHQ : List Byte := [0x4B, 0x48, 0x51, 0x3D]
def sKHR : List Byte := [0x4B, 0x48, 0x52, 0x3D]
def sAAeA : List Byte := [0x61, 0x61, 0x3D, 0x61, 0x3D, 0x3D, 0x3D, 0x3D]

/-! ### Well-formedness: for each check a term it takes and one it refuses -/

theorem test_wf_bit7_op11 : Instr.wf (.reservedBit7 0x7F) = false := by decide
theorem test_wf_bit6_bit7 : Instr.wf (.reservedBit6 1 0x00) = false := by decide
theorem test_wf_bit6_op11 : Instr.wf (.reservedBit6 0 0x03) = false := by decide
theorem test_wf_bit5_bit6 : Instr.wf (.reservedBit5 0b01 0x00) = false := by decide
theorem test_wf_bit5_op11 : Instr.wf (.reservedBit5 0 0x0B) = false := by decide
theorem test_wf_bit4_bit5 : Instr.wf (.reservedBit4 0b001 0x0) = false := by decide
theorem test_wf_bit4_op11 : Instr.wf (.reservedBit4 0 0x7) = false := by decide
theorem test_wf_bit3_bit4 : Instr.wf (.reservedBit3 0b0001 0b000) = false := by decide
theorem test_wf_bit3_op11 : Instr.wf (.reservedBit3 0 0b011) = false := by decide

/-! ### Decoding: a word written out bit by bit for every constructor (R62 to R64) -/

theorem test_decode_enc32 : decodeWord 0b00000_0_00 = .enc32 := by decide
theorem test_decode_dec32 : decodeWord 0b00000_0_01 = .dec32 := by decide
theorem test_decode_val32 : decodeWord 0b00000_0_10 = .val32 := by decide
theorem test_decode_enc64u : decodeWord 0b00000_1_00 = .enc64u := by decide
theorem test_decode_dec64u : decodeWord 0b00000_1_01 = .dec64u := by decide
theorem test_decode_val64u : decodeWord 0b00000_1_10 = .val64u := by decide
theorem test_decode_reserved_op11 : decodeWord 0b10110_1_11 = .reservedOp11 0b101101 := by decide
theorem test_decode_reserved_bit7 : decodeWord 0b10000_0_01 = .reservedBit7 0b0000001 := by decide
theorem test_decode_reserved_bit6 : decodeWord 0b01000_1_00 = .reservedBit6 0 0b000100 := by decide
theorem test_decode_reserved_bit5 : decodeWord 0b00101_0_10 = .reservedBit5 0 0b01010 := by decide
theorem test_decode_reserved_bit4 : decodeWord 0b00010_1_10 = .reservedBit4 0 0b0110 := by decide
theorem test_decode_reserved_bit3 : decodeWord 0b00001_1_01 = .reservedBit3 0 0b101 := by decide
/-- No bytes, no command word. -/
theorem test_decode_nothing : decode [] = .error .noCommandWord := by decide
theorem test_decode_table_word : decodeTableWord 8 0x05 = some .dec64u := by decide

/-! ### The commands, architectural level: source vectors S1 to S4, sections 3 and 5, traces T13 to T15 -/

theorem test_enc32_five_bytes :
    after (exec .enc32 (loaded [0xA1, 0x64, 0x6C, 0x73, 0x64])) output = some (0x02, sUfsgy43e.map some) := by decide
theorem test_enc32_one_byte : after (exec .enc32 (loaded [0xED])) output = some (0x02, s5u.map some) := by decide
theorem test_dec32_five_bytes :
    after (exec .dec32 (loaded sUfsgy43e)) output = some (0x02, [0xA1, 0x64, 0x6C, 0x73, 0x64].map some) := by decide
theorem test_dec32_trailing_bits : after (exec .dec32 (loaded s5v)) outcome = some (0x06, 0, 5, 1) := by decide
theorem test_val32_valid : after (exec .val32 (loaded s5u)) outcome = some (0x0A, 0, 0, 0) := by decide
theorem test_val32_pad_before_data : after (exec .val32 (loaded sAAeA)) outcome = some (0x02, 0, 0, 0) := by decide
theorem test_enc64u_two_bytes : after (exec .enc64u (loaded [0x28, 0x74])) output = some (0x02, sKHQ.map some) := by
  decide
/-- `FB FF` is `-_8=`: both characters that set this alphabet apart (section 4). -/
theorem test_enc64u_url_safe :
    after (exec .enc64u (loaded [0xFB, 0xFF])) output = some (0x02, [0x2D, 0x5F, 0x38, 0x3D].map some) := by decide
theorem test_dec64u_two_bytes : after (exec .dec64u (loaded sKHQ)) output = some (0x02, [0x28, 0x74].map some) := by
  decide
theorem test_dec64u_length : after (exec .dec64u (loaded [0x4B, 0x48, 0x51])) outcome = some (0x06, 0, 1, 3) := by
  decide
theorem test_val64u_empty : after (exec .val64u (loaded [])) outcome = some (0x0A, 0, 0, 0) := by decide
/-- `A===` (T13). -/
theorem test_val64u_pad_count : after (exec .val64u (loaded [0x41, 0x3D, 0x3D, 0x3D])) outcome = some (0x02, 0, 0, 0) := by
  decide
/-- T15: word 0x03 is refused, and an earlier result is gone. -/
theorem test_reserved_refused :
    after (exec (decodeWord 0x03) { loaded [0xED] with olen := 8, status := 0x02 }) outcome = some (0x12, 0, 0, 0) := by decide
/-- P4b: an input longer than `IN_CAP`. -/
theorem test_enc32_too_long : after (exec .enc32 { State.reset with ilen := 4097 }) outcome = some (0x12, 0, 0, 0) := by
  decide
/-- P7: a `CMD` write during a command is ignored. -/
theorem test_enc32_while_busy :
    exec .enc32 (midway sKHQ 0b101 .dRun 1 0b001010 6 0 []) = .next (midway sKHQ 0b101 .dRun 1 0b001010 6 0 []) := rfl

/-! ### The micro-steps: single rows of the traces T1, T2, T6, T7, T10, T12, T13 -/

theorem test_start_enc32 : after (exec .enc32 (micro [0xED])) columns = some (.eRun, [0, 0, 0, 0, 0, 0x01]) := by decide
/-- T14: a length that is no multiple of 8 fails at the start. -/
theorem test_start_dec32_length :
    after (exec .dec32 (micro [0x75, 0x66, 0x73, 0x67, 0x79, 0x34, 0x33])) outcome = some (0x06, 0, 1, 7) := by decide
/-- T2, step 2: one byte, two groups. -/
theorem test_e_run :
    after (step (midway [0xA1, 0x64, 0x6C, 0x73, 0x64] 0b000 .eRun 1 0b001 3 0 [0x75])) columns =
      some (.eRun, [2, 0, 1, 0, 3, 0x01]) := by decide
/-- T1, step 3: the flush emits `u`. -/
theorem test_e_flush :
    after (step (midway [0xED] 0b000 .eFlush 1 0b101 3 0 [0x35])) output = some (0x01, [some 0x35, some 0x75]) := by decide
/-- T6, step 2: the second symbol gives the byte 0x28. -/
theorem test_d_run :
    after (step (midway sKHQ 0b101 .dRun 1 0b001010 6 0 [])) output = some (0x01, [some 0x28]) := by decide
/-- T10, step 4: a symbol after a pad. -/
theorem test_d_run_pad_order :
    after (step (midway sAAeA 0b001 .dRun 3 0 2 1 [0x00])) outcome = some (0x06, 0, 3, 3) := by decide
/-- T7, step 6: trailing bits. -/
theorem test_d_final_trailing :
    after (step (midway sKHR 0b101 .dFinal 4 0b01 2 1 [0x28, 0x74])) outcome = some (0x06, 0, 5, 2) := by decide

/-! ### Reset, the ports and a placed word on the state after reset -/

/-- P5: the first command after reset, nothing loaded, encodes the empty sequence. -/
theorem test_step_placed_word : after (step (State.reset.withFetchWord 8 0x00)) outcome = some (0x02, 0, 0, 0) := by decide
theorem test_write_ilen : after (step (before (.host (.write 2 0x10005)) State.reset)) State.ilen = some 5 := by decide
theorem test_read_cmd : after (step (before (.host (.read 0)) { State.reset with rdata := 9 })) State.rdata = some 0 := by
  decide
theorem test_wait_done :
    after (step (before (.host .waitDone) { State.reset with status := 0x02 })) (fun t => (t.rdata, t.pending)) =
      some (2, []) := by decide

/-! ### Witnesses: a state and operands that meet the hypotheses of each obligation -/

/-- The invariant as a check that computes. -/
def scanCheck (s : State) : Bool :=
  decide (s.ilen ≤ s.params.inCap ∧ s.ipos ≤ s.ilen ∧ s.npad ≤ s.ipos ∧ s.acc.toNat < 2 ^ s.nbits.toNat)

def encodeCheck (s : State) : Bool :=
  scanCheck s && decide (s.opBits = Op.encode.bits ∧ groupBits s.codec * s.olen + s.nbits.toNat = 8 * s.ipos ∧
    s.nbits.toNat < groupBits s.codec)

def decodeCheck (s : State) : Bool :=
  scanCheck s && decide (s.ilen % blockSize s.codec = 0 ∧ s.nbits.toNat ≤ 7 ∧
    ((s.opBits = Op.decode.bits ∧ 8 * s.olen + s.nbits.toNat = groupBits s.codec * (s.ipos - s.npad)) ∨
     (s.opBits = Op.validate.bits ∧ s.olen = 0 ∧ s.nbits.toNat = groupBits s.codec * (s.ipos - s.npad) % 8)))

def datapathCheck (s : State) : Bool :=
  match s.phase with
  | .idle => true
  | .eRun => encodeCheck s
  | .eFlush => encodeCheck s && decide (s.ipos = s.ilen)
  | .ePad =>
    scanCheck s && decide (s.opBits = Op.encode.bits ∧ s.ipos = s.ilen ∧ s.nbits = 0 ∧
      groupCount (groupBits s.codec) s.ilen ≤ s.olen ∧
      s.olen ≤ blockSize s.codec * ((s.ilen + blockBytes s.codec - 1) / blockBytes s.codec))
  | .dRun => decodeCheck s
  | .dFinal => decodeCheck s && decide (s.ipos = s.ilen)

def outcomeCheck (s : State) : Bool :=
  decide ((s.status = 0x01 ∧ s.phase ≠ .idle ∧ s.errCause = 0 ∧ s.errPos = 0) ∨
  (s.phase = .idle ∧
    ((s.status = 0x00 ∧ s.olen = 0 ∧ s.errCause = 0 ∧ s.errPos = 0) ∨
     (s.status = 0x02 ∧ s.errCause = 0 ∧ s.errPos = 0) ∨
     (s.status = 0x06 ∧ s.olen = 0 ∧ 1 ≤ s.errCause.toNat ∧ s.errCause.toNat ≤ 5) ∨
     (s.status = 0x0A ∧ s.olen = 0 ∧ s.errCause = 0 ∧ s.errPos = 0) ∨
     (s.status = 0x12 ∧ s.olen = 0 ∧ s.errCause = 0 ∧ s.errPos = 0))))

def invCheck (s : State) : Bool :=
  s.params.ok && Memory.wf s.ibuf && Memory.wf s.obuf &&
  decide ((∀ cell ∈ s.ibuf, cell.1 < s.params.inCap) ∧ (∀ cell ∈ s.obuf, cell.1 < s.params.outCap) ∧
    s.ilen < 2 ^ s.params.lenw ∧ s.errPos < 2 ^ s.params.lenw ∧ s.ipos < 2 ^ s.params.lenw ∧ s.npad < 2 ^ s.params.lenw ∧
    s.olen ≤ s.params.outCap ∧ ∀ i < s.olen, (Memory.readByte s.obuf i).isSome) &&
  outcomeCheck s && datapathCheck s

theorem datapath_of_check {s : State} (h : datapathCheck s = true) : s.DatapathOk := by
  unfold datapathCheck encodeCheck decodeCheck scanCheck at h
  unfold State.DatapathOk
  cases hp : s.phase <;> simp only [hp, Bool.and_eq_true, decide_eq_true_eq] at h ⊢ <;> exact h

theorem outcome_of_check {s : State} (h : outcomeCheck s = true) : s.OutcomeOk := by
  unfold State.OutcomeOk
  exact of_decide_eq_true h

theorem inv_of_check {s : State} (h : invCheck s = true) : s.Inv := by
  simp only [invCheck, Bool.and_eq_true, decide_eq_true_eq] at h
  obtain ⟨⟨⟨⟨⟨h1, h2⟩, h3⟩, h4, h5, h6, h7, h8, h9, h10, h11⟩, h12⟩, h13⟩ := h
  exact ⟨h1, h2, h3, h4, h5, h6, h7, h8, h9, h10, h11, outcome_of_check h12, datapath_of_check h13⟩

/-- States of the traces: T2 before step 2 and after step 5, T1 before steps 3, 4 and 10, T2 before step 7. -/
def atERun : State := midway [0xA1, 0x64, 0x6C, 0x73, 0x64] 0b000 .eRun 1 0b001 3 0 [0x75]
def atERunEnd : State := midway [0xA1, 0x64, 0x6C, 0x73, 0x64] 0b000 .eRun 5 0 0 0 sUfsgy43e
def atEFlush : State := midway [0xED] 0b000 .eFlush 1 0b101 3 0 [0x35]
def atEFlushEmpty : State := midway [0xA1, 0x64, 0x6C, 0x73, 0x64] 0b000 .eFlush 5 0 0 0 sUfsgy43e
def atEPad : State := midway [0xED] 0b000 .ePad 1 0 0 0 [0x35, 0x75]
def atEPadEnd : State := midway [0xED] 0b000 .ePad 1 0 0 0 s5u
/-- T6 before steps 1, 2, 4, 5 and 6, with the operation in `CUR` open (0b101 decode, 0b110 validate). -/
def atDRunFirst (cur : BitVec 3) : State := midway sKHQ cur .dRun 0 0 0 0 []
def atDRunByte (cur : BitVec 3) : State := midway sKHQ cur .dRun 1 0b001010 6 0 []
def atDRunPad : State := midway sKHQ 0b101 .dRun 3 0b00 2 0 [0x28, 0x74]
def atDRunEnd : State := midway sKHQ 0b101 .dRun 4 0b00 2 1 [0x28, 0x74]
def atDFinal : State := midway sKHQ 0b101 .dFinal 4 0b00 2 1 [0x28, 0x74]
/-- T12 before step 10. -/
def atDFinalValidate : State := midway s5u 0b010 .dFinal 8 0b00 2 6 []
/-- T10 before step 4; T11 before step 3; T7 before step 6; `A===` (T13) before step 6; and the same as validates. -/
def atPadOrder : State := midway sAAeA 0b001 .dRun 3 0b00 2 1 [0x00]
def atPadOrderValidate : State := midway sAAeA 0b010 .dRun 3 0b00 2 1 []
def atChar : State := midway [0x61, 0x62, 0x2B, 0x64] 0b101 .dRun 2 0b1011 4 0 [0x69]
def atTrailing : State := midway sKHR 0b101 .dFinal 4 0b01 2 1 [0x28, 0x74]
def atPadCount : State := midway [0x41, 0x3D, 0x3D, 0x3D] 0b101 .dFinal 4 0 6 3 []
def atPadCountValidate : State := midway [0x41, 0x3D, 0x3D, 0x3D] 0b110 .dFinal 4 0 6 3 []

theorem inv_reset : State.reset.Inv := inv_of_check (by decide)
theorem inv_atERun : atERun.Inv := inv_of_check (by decide)
theorem inv_atERunEnd : atERunEnd.Inv := inv_of_check (by decide)
theorem inv_atEPad : atEPad.Inv := inv_of_check (by decide)
theorem inv_atEPadEnd : atEPadEnd.Inv := inv_of_check (by decide)
theorem inv_atDRunFirst : (atDRunFirst 0b101).Inv ∧ (atDRunFirst 0b110).Inv :=
  ⟨inv_of_check (by decide), inv_of_check (by decide)⟩
theorem inv_atDRunByte : (atDRunByte 0b101).Inv ∧ (atDRunByte 0b110).Inv :=
  ⟨inv_of_check (by decide), inv_of_check (by decide)⟩
theorem inv_atDRunPad : atDRunPad.Inv := inv_of_check (by decide)
theorem inv_atDRunEnd : atDRunEnd.Inv := inv_of_check (by decide)
theorem inv_atDFinal : atDFinal.Inv := inv_of_check (by decide)
theorem inv_atDFinalValidate : atDFinalValidate.Inv := inv_of_check (by decide)
theorem inv_atPadOrder : atPadOrder.Inv := inv_of_check (by decide)
theorem inv_atPadOrderValidate : atPadOrderValidate.Inv := inv_of_check (by decide)
theorem inv_atChar : atChar.Inv := inv_of_check (by decide)
theorem inv_atTrailing : atTrailing.Inv := inv_of_check (by decide)
theorem inv_atPadCount : atPadCount.Inv := inv_of_check (by decide)
theorem inv_atPadCountValidate : atPadCountValidate.Inv := inv_of_check (by decide)

theorem witness_DecodeOfEncodeIsTheInstruction :
    [Instr.enc32, .dec32, .val32, .enc64u, .dec64u, .val64u, .reservedOp11 0x3F, .reservedBit7 0x7E,
      .reservedBit6 0 0x3E, .reservedBit5 0 0x1E, .reservedBit4 0 0xE, .reservedBit3 0 0x6].all Instr.wf = true := by decide
theorem witness_StepRunsTheWrittenCommand :
    (before (.host (.write 0 0xFF05)) State.reset).pending = .host (.write 0 0xFF05) :: [] := rfl
theorem witness_StepRunsThePlacedWord : State.reset.busy = false := by decide
theorem witness_RefusedCommandWrites_word :
    State.reset.busy = false ∧ 0x03#8 ∉ [0x00#8, 0x01#8, 0x02#8, 0x04#8, 0x05#8, 0x06#8] := by decide
theorem witness_RefusedCommandWrites_length :
    let s : State := { State.reset with ilen := 4097 }
    s.busy = false ∧ s.ilen > s.params.inCap := by decide
/-- Both sides of the condition of `ReservedRowsAreRefused`. -/
theorem witness_ReservedRowsAreRefused : State.reset.busy = false ∧ atERun.busy = true := by decide

/-- The hypotheses of the six result statements, of `ValidateAgreesWithDecode` and (twice over) of
`ResultDependsOnlyOnTheInput`. -/
def acceptsHere (s : State) : Bool :=
  !s.busy && decide (s.ilen ≤ s.params.inCap) && decide (s.params.level = .architectural)

theorem witness_Enc32Result : acceptsHere (loaded [0xED]) = true := by decide
theorem witness_Enc64uResult : acceptsHere (loaded [0x28, 0x74]) = true := by decide
theorem witness_Dec32Result_ok : acceptsHere (loaded s5u) = true ∧ checkString .base32 (loaded s5u).input = .ok 2 6 := by
  decide
theorem witness_Dec32Result_fail :
    acceptsHere (loaded s5v) = true ∧ checkString .base32 (loaded s5v).input = .fail .trailing 1 ∧
      (loaded s5v).params.errInfo = .reference := by decide
theorem witness_Dec64uResult_ok :
    acceptsHere (loaded sKHQ) = true ∧ checkString .base64url (loaded sKHQ).input = .ok 3 1 := by decide
theorem witness_Dec64uResult_fail :
    acceptsHere (loaded sKHR) = true ∧ checkString .base64url (loaded sKHR).input = .fail .trailing 2 ∧
      (loaded sKHR).params.errInfo = .reference := by decide
theorem witness_Val32Result : acceptsHere (loaded s5u) = true ∧ isValid .base32 (loaded s5u).input = true := by decide
theorem witness_Val64uResult : acceptsHere (loaded sKHR) = true ∧ isValid .base64url (loaded sKHR).input = false := by
  decide
theorem witness_ValidateAgreesWithDecode : acceptsHere (loaded sKHQ) = true ∧ acceptsHere (loaded sKHR) = true := by decide

theorem witness_EncodeAndValidateFrame_idle :
    (loaded [0xED]).busy = false ∧ ∃ t, exec (commandInstr .base32 .encode) (loaded [0xED]) = .next t ∧ t.olen = 8 :=
  ⟨by decide, _, rfl, by decide⟩
theorem witness_EncodeAndValidateFrame_validate :
    Op.validate ≠ .decode ∧ ∃ t, exec (commandInstr .base64url .validate) (loaded sKHQ) = .next t := ⟨by decide, _, rfl⟩
theorem witness_EncodeAndValidateFrame_busy :
    atERun.busy = true ∧ ∃ t, exec (commandInstr .base32 .encode) atERun = .next t := ⟨by decide, _, rfl⟩
theorem witness_DecodeFrame :
    (loaded sKHQ).busy = false ∧ (loaded sKHQ).params.errInfo = .reference ∧
      ∃ t, exec (commandInstr .base64url .decode) (loaded sKHQ) = .next t ∧ t.olen = 2 := ⟨by decide, rfl, _, rfl, by decide⟩
theorem witness_DecodeFrame_busy :
    atERun.busy = true ∧ ∃ t, exec (commandInstr .base32 .decode) atERun = .next t := ⟨by decide, _, rfl⟩
/-- Two blocks that differ in an earlier result, in an element above `ILEN`, in the datapath (P6), in the copy and in the
free values drawn; then two that draw the same free values. -/
theorem witness_ResultDependsOnlyOnTheInput :
    let s₁ := loaded [0xED]
    let s₂ : State :=
      { loaded [0xED] with
        ibuf := [(0, 0xED), (7, 0x11)], obuf := [(0, 0x61)], olen := 1, status := 0x02, cur := 0b101, acc := 3, nbits := 2
        draws := 7, copyId := 1 }
    s₁ ≠ s₂ ∧ acceptsHere s₁ = true ∧ acceptsHere s₂ = true ∧ s₁.params = s₂.params ∧ s₁.ilen = s₂.ilen ∧
      s₁.input = s₂.input ∧ s₁.params.errInfo = .reference := by decide
theorem witness_ResultDependsOnlyOnTheInput_free :
    let free (s : State) : State := { s with params := { s.params with errInfo := .free } }
    let s₁ := free (loaded s5v)
    let s₂ := free { loaded s5v with olen := 1, obuf := [(0, 0x61)] }
    s₁ ≠ s₂ ∧ acceptsHere s₁ = true ∧ acceptsHere s₂ = true ∧ s₁.params = s₂.params ∧ s₁.ilen = s₂.ilen ∧
      s₁.input = s₂.input ∧ s₁.copyId = s₂.copyId ∧ s₁.draws = s₂.draws := by decide

/-- `CommandStart`: each clause. -/
theorem witness_CommandStart :
    let long : State := { micro [] with ilen := 4097 }
    (long.busy = false ∧ long.params.level = .microStep ∧ long.ilen > long.params.inCap) ∧
    ((micro sKHQ).busy = false ∧ (micro sKHQ).params.level = .microStep ∧ (micro sKHQ).ilen ≤ (micro sKHQ).params.inCap ∧
      (micro sKHQ).ilen % blockSize .base64url = 0) ∧
    ((micro [0x4B]).busy = false ∧ (micro [0x4B]).ilen ≤ (micro [0x4B]).params.inCap ∧
      (micro [0x4B]).ilen % blockSize .base64url ≠ 0 ∧ (micro [0x4B]).params.errInfo = .reference) := by decide
theorem witness_ERunStep_byte : atERun.Inv ∧ atERun.phase = .eRun ∧ atERun.pending = [] ∧ atERun.ipos < atERun.ilen :=
  ⟨inv_atERun, by decide⟩
theorem witness_ERunStep_end :
    atERunEnd.Inv ∧ atERunEnd.phase = .eRun ∧ atERunEnd.pending = [] ∧ atERunEnd.ipos = atERunEnd.ilen :=
  ⟨inv_atERunEnd, by decide⟩
theorem witness_EFlushStep :
    (atEFlush.phase = .eFlush ∧ atEFlush.pending = [] ∧ atEFlush.nbits ≠ 0) ∧
    (atEFlushEmpty.phase = .eFlush ∧ atEFlushEmpty.pending = [] ∧ atEFlushEmpty.nbits = 0) := by decide
theorem witness_EPadStep_pad :
    atEPad.Inv ∧ atEPad.phase = .ePad ∧ atEPad.pending = [] ∧ atEPad.olen % blockSize atEPad.codec ≠ 0 :=
  ⟨inv_atEPad, by decide⟩
theorem witness_EPadStep_end :
    atEPadEnd.Inv ∧ atEPadEnd.phase = .ePad ∧ atEPadEnd.pending = [] ∧ atEPadEnd.olen % blockSize atEPadEnd.codec = 0 :=
  ⟨inv_atEPadEnd, by decide⟩
theorem witness_DRunStep_end :
    atDRunEnd.Inv ∧ atDRunEnd.phase = .dRun ∧ atDRunEnd.pending = [] ∧ atDRunEnd.ipos = atDRunEnd.ilen :=
  ⟨inv_atDRunEnd, by decide⟩
theorem witness_DRunStep_pad :
    atDRunPad.Inv ∧ atDRunPad.phase = .dRun ∧ atDRunPad.pending = [] ∧ atDRunPad.ipos < atDRunPad.ilen ∧
      atDRunPad.ibufAt atDRunPad.ipos = 0x3D := ⟨inv_atDRunPad, by decide⟩
theorem witness_DRunStep_no_byte :
    let s := atDRunFirst 0b101
    s.Inv ∧ s.phase = .dRun ∧ s.pending = [] ∧ s.ipos < s.ilen ∧ s.ibufAt s.ipos ≠ 0x3D ∧
      decLut s.codec (s.ibufAt s.ipos) = some 10 ∧ s.npad = 0 ∧ s.nbits.toNat + groupBits s.codec < 8 :=
  ⟨inv_atDRunFirst.1, by decide⟩
theorem witness_DRunStep_byte_decode :
    let s := atDRunByte 0b101
    s.Inv ∧ s.phase = .dRun ∧ s.pending = [] ∧ s.ipos < s.ilen ∧ s.ibufAt s.ipos ≠ 0x3D ∧
      decLut s.codec (s.ibufAt s.ipos) = some 7 ∧ s.npad = 0 ∧ 8 ≤ s.nbits.toNat + groupBits s.codec ∧
      s.opBits = Op.decode.bits := ⟨inv_atDRunByte.1, by decide⟩
theorem witness_DRunStep_byte_validate :
    let s := atDRunByte 0b110
    s.Inv ∧ s.phase = .dRun ∧ s.pending = [] ∧ s.ipos < s.ilen ∧ s.ibufAt s.ipos ≠ 0x3D ∧
      decLut s.codec (s.ibufAt s.ipos) = some 7 ∧ s.npad = 0 ∧ 8 ≤ s.nbits.toNat + groupBits s.codec ∧
      s.opBits = Op.validate.bits := ⟨inv_atDRunByte.2, by decide⟩
theorem witness_DFinalStep_decode :
    atDFinal.Inv ∧ atDFinal.phase = .dFinal ∧ atDFinal.pending = [] ∧ atDFinal.npad ∈ padSet atDFinal.codec ∧
      atDFinal.acc = 0 ∧ atDFinal.opBits = Op.decode.bits := ⟨inv_atDFinal, by decide⟩
theorem witness_DFinalStep_validate :
    let s := atDFinalValidate
    s.Inv ∧ s.phase = .dFinal ∧ s.pending = [] ∧ s.npad ∈ padSet s.codec ∧ s.acc = 0 ∧ s.opBits = Op.validate.bits :=
  ⟨inv_atDFinalValidate, by decide⟩
theorem witness_FailingStepEndsTheCommand_char :
    atChar.Inv ∧ atChar.pending = [] ∧ atChar.phase = .dRun ∧ atChar.ipos < atChar.ilen ∧
      atChar.ibufAt atChar.ipos ≠ 0x3D ∧ decLut atChar.codec (atChar.ibufAt atChar.ipos) = none ∧
      atChar.opBits = Op.decode.bits := ⟨inv_atChar, by decide⟩
theorem witness_FailingStepEndsTheCommand_padOrder :
    let s := atPadOrder
    s.Inv ∧ s.pending = [] ∧ s.phase = .dRun ∧ s.ipos < s.ilen ∧ s.ibufAt s.ipos ≠ 0x3D ∧
      (decLut s.codec (s.ibufAt s.ipos)).isSome ∧ 0 < s.npad ∧ s.opBits = Op.decode.bits := ⟨inv_atPadOrder, by decide⟩
theorem witness_FailingStepEndsTheCommand_padOrder_validate :
    let s := atPadOrderValidate
    s.Inv ∧ s.pending = [] ∧ s.phase = .dRun ∧ s.ipos < s.ilen ∧ s.ibufAt s.ipos ≠ 0x3D ∧
      (decLut s.codec (s.ibufAt s.ipos)).isSome ∧ 0 < s.npad ∧ s.opBits = Op.validate.bits :=
  ⟨inv_atPadOrderValidate, by decide⟩
theorem witness_FailingStepEndsTheCommand_padCount :
    atPadCount.Inv ∧ atPadCount.pending = [] ∧ atPadCount.phase = .dFinal ∧ atPadCount.npad ∉ padSet atPadCount.codec ∧
      atPadCount.opBits = Op.decode.bits := ⟨inv_atPadCount, by decide⟩
theorem witness_FailingStepEndsTheCommand_padCount_validate :
    let s := atPadCountValidate
    s.Inv ∧ s.pending = [] ∧ s.phase = .dFinal ∧ s.npad ∉ padSet s.codec ∧ s.opBits = Op.validate.bits :=
  ⟨inv_atPadCountValidate, by decide⟩
theorem witness_FailingStepEndsTheCommand_trailing :
    let s := atTrailing
    s.Inv ∧ s.pending = [] ∧ s.phase = .dFinal ∧ s.npad ∈ padSet s.codec ∧ s.acc ≠ 0 ∧ s.opBits = Op.decode.bits :=
  ⟨inv_atTrailing, by decide⟩
theorem witness_EncodeMicroStepsRefineTheArchitecture :
    let s := micro [0xED]
    s.busy = false ∧ s.params.level = .microStep ∧ s.pending = [] ∧ s.ilen ≤ s.params.inCap ∧
      encodeSteps .base32 s.ilen = 10 := by decide
/-- The step counts of T6, T10 and T14. -/
theorem witness_DecodeMicroStepsRefineTheArchitecture :
    let s := micro sKHQ
    (Op.decode ≠ .encode ∧ s.busy = false ∧ s.params.level = .microStep ∧ s.pending = [] ∧ s.ilen ≤ s.params.inCap) ∧
    scanSteps .base64url s.input = 6 ∧ scanSteps .base32 (micro sAAeA).input = 4 ∧
    scanSteps .base32 (micro (sUfsgy43e.take 7)).input = 0 := by decide
theorem witness_StepKeepsInv : atERun.Inv ∧ ∃ t, step atERun = .next t := ⟨inv_atERun, _, rfl⟩
theorem witness_RunningCommandCompletes : atERun.Inv ∧ atERun.busy = true ∧ atERun.pending = [] := ⟨inv_atERun, by decide⟩
theorem witness_WaitEndsWithDone :
    let s := before (.host .waitDone) atERun
    s.Inv ∧ s.busy = true ∧ s.pending = .host .waitDone :: [] := ⟨inv_of_check (by decide), by decide⟩
theorem witness_ResetEvent : (before .reset atERun).pending = .reset :: [] := rfl
/-- `IgnoredHostWrites`: a busy block, and on an idle one a read-only register, an index outside `IBUF`, and `OBUF`. -/
theorem witness_IgnoredHostWrites :
    ((before (.host (.write 0 1)) atERun).pending = .host (.write 0 1) :: [] ∧ atERun.busy = true) ∧
    ((before (.host (.write 3 1)) State.reset).pending = .host (.write 3 1) :: [] ∧ (3 ≠ 0 ∧ 3 ≠ 2)) ∧
    ((before (.host (.writeIbuf 4096 1)) State.reset).pending = .host (.writeIbuf 4096 1) :: [] ∧
      State.reset.params.inCap ≤ 4096) ∧
    (before (.host (.writeObuf 0 1)) State.reset).pending = .host (.writeObuf 0 1) :: [] := by decide
theorem witness_AcceptedHostWrites :
    State.reset.busy = false ∧ (before (.host (.write 2 7)) State.reset).pending = .host (.write 2 7) :: [] ∧
    (before (.host (.writeIbuf 4095 1)) State.reset).pending = .host (.writeIbuf 4095 1) :: [] ∧
    4095 < State.reset.params.inCap := by decide
theorem witness_HostReadsHaveNoSideEffect :
    ∀ op ∈ [HostOp.read 9, .readIbuf 4096, .readObuf 0],
      (before (.host op) State.reset).pending = .host op :: [] ∧ ∃ i, op = .read i ∨ op = .readIbuf i ∨ op = .readObuf i := by
  intro op h
  fin_cases h
  exacts [⟨rfl, 9, .inl rfl⟩, ⟨rfl, 4096, .inr (.inl rfl)⟩, ⟨rfl, 0, .inr (.inr rfl)⟩]
/-- `HostReadAnswers`: a register, an `IBUF` element, and an `OBUF` element below `OLEN` of an idle block. -/
theorem witness_HostReadAnswers :
    let s : State := { loaded [0xED] with obuf := [(0, 0x35)], olen := 1, status := 0x02 }
    (before (.host (.read 3)) s).pending = .host (.read 3) :: [] ∧
    ((before (.host (.readIbuf 0)) s).pending = .host (.readIbuf 0) :: [] ∧ 0 < s.params.inCap) ∧
    ((before (.host (.readObuf 0)) s).pending = .host (.readObuf 0) :: [] ∧ s.busy = false ∧ 0 < s.olen ∧
      0 < s.params.outCap ∧ Memory.readByte s.obuf 0 = some 0x35) := by decide
theorem witness_IdleBlockKeepsItsResults :
    State.reset.busy = false ∧ State.reset.phase = .idle ∧ State.reset.pending = [] ∧
    (before .core State.reset).pending = .core :: [] ∧
    (before (.host (.write 2 7)) State.reset).pending = .host (.write 2 7) :: [] ∧ ∀ v, HostOp.write 2 7 ≠ .write 0 v :=
  ⟨by decide, rfl, rfl, rfl, rfl, fun v h => by cases h⟩
theorem witness_HostCannotDisturbARunningCommand :
    let s := before (.host (.write 0 0)) atERun
    (s.Inv ∧ s.busy = true ∧ s.pending = .host (.write 0 0) :: [] ∧ HostOp.write 0 0 ≠ .waitDone) ∧
    (before (.host .waitDone) atERun).pending = .host .waitDone :: [] := ⟨⟨inv_of_check (by decide), by decide⟩, rfl⟩
theorem witness_InstancesAreIndependent : (0 : Nat) ≠ 1 := by decide
theorem witness_CopiesStayDistinct : ∃ sys', stepInstance 1 (resetCopies 2) = .next sys' := ⟨_, rfl⟩
theorem witness_AlphabetTablesAreInverse : 31 < 2 ^ groupBits .base32 ∧ decLut .base64url 0x5F = some 63 := by decide
theorem witness_EncodeOfDecodeIsTheString : decodeString .base64url sKHQ = .bytes [0x28, 0x74] := by decide
theorem witness_DecodedLength :
    checkString .base32 s5u = .ok 2 6 ∧ decodeString .base32 s5u = .bytes [0xED] ∧
    checkString .base64url sKHQ = .ok 3 1 ∧ decodeString .base64url sKHQ = .bytes [0x28, 0x74] := by decide
theorem witness_EncodingUsesOnlyItsAlphabet :
    0x75 ∈ encodeBytes .base32 [0xED] ∧ 0x51 ∈ encodeBytes .base64url [0x28, 0x74] ∧ (0x2B : Byte) ∈ [0x61#8, 0x62, 0x2B, 0x64] ∧
    (0x2F : Byte) ∈ [0x2F#8] := by decide
/-- `CheckReportsTheFirstViolation`: each outcome of the check, with the causes and positions of 95_test_vectors.md. -/
theorem witness_CheckReportsTheFirstViolation :
    checkString .base32 (sUfsgy43e.take 7) = .fail .length 7 ∧
    checkString .base64url [0x61, 0x62, 0x2B, 0x64] = .fail .char 2 ∧ checkString .base32 sAAeA = .fail .padOrder 3 ∧
    checkString .base64url [0x41, 0x3D, 0x3D, 0x3D] = .fail .padCount 1 ∧ checkString .base64url sKHR = .fail .trailing 2 ∧
    checkString .base32 [] = .ok 0 0 := by decide
theorem witness_PiecesCutAtBlocksJoin :
    [0xA1#8, 0x64, 0x6C, 0x73, 0x64].length % blockBytes .base32 = 0 ∧ sUfsgy43e.length % blockSize .base32 = 0 ∧
    decodeString .base32 (sUfsgy43e ++ s5u) = .bytes [0xA1, 0x64, 0x6C, 0x73, 0x64, 0xED] := by decide

end Sys2Proof.Tests
end

section
/-! SUPPORT. Command, host port and step: everything a `CMD` write can change, and everything one step can do. -/

namespace Sys2Proof.Machine

/-! ### What a command can change -/

/-- `t` with everything a command may write put back to its value in `s` (R53). -/
def State.undoCommand (t s : State) : State :=
  { t with
    obuf := s.obuf, olen := s.olen, status := s.status, errCause := s.errCause, errPos := s.errPos, phase := s.phase
    cur := s.cur, ipos := s.ipos, acc := s.acc, nbits := s.nbits, npad := s.npad, draws := s.draws }

/-- From `s` to `t` only the fields of a command changed, in `OBUF` only elements below the new `OLEN` (R53, log 5), and the
counter of free values not where the error information is the reference (log 6). -/
structure CommandFrame (s t : State) : Prop where
  others : t.undoCommand s = s
  above : ∀ a, t.olen ≤ a → Memory.readByte t.obuf a = Memory.readByte s.obuf a
  draws : s.params.errInfo = .reference → t.draws = s.draws

namespace CommandFrame

theorem refl (s : State) : CommandFrame s s := ⟨rfl, fun _ _ => rfl, fun _ => rfl⟩

variable {s t : State}

theorem params (h : CommandFrame s t) : t.params = s.params := (congrArg State.params h.others :)

theorem raiseInvalidEncoding (h : CommandFrame s t) (ho : t.obuf = s.obuf) (cause : Cause) (pos : Nat) :
    CommandFrame s (t.raiseInvalidEncoding cause pos) := by
  obtain ⟨ec, ep, dr, e, -, -, -, href⟩ := t.raiseInvalidEncoding_spec cause pos
  rw [e]
  refine ⟨h.others, fun a _ => congrArg (Memory.readByte · a) ho, fun hr => ?_⟩
  exact (href (h.params ▸ hr)).2.2.trans (h.draws hr)

theorem failCheck (h : CommandFrame s t) (ho : t.obuf = s.obuf) (cause : Cause) (pos : Nat) :
    CommandFrame s (t.failCheck cause pos) := by
  unfold State.failCheck
  split
  · exact h.raiseInvalidEncoding ho cause pos
  · exact ⟨h.others, fun a _ => congrArg (Memory.readByte · a) ho, h.draws⟩

end CommandFrame

/-- The block an accepted command works on: cleared, the command latched in `CUR` (R33, R38). -/
def State.accepted (s : State) (c : Codec) (op : Op) : State := { s.clear with cur := curOf c op }

section
variable (s : State) (c : Codec) (op : Op)

@[simp] theorem State.accepted_input : (s.accepted c op).input = s.input := rfl

@[simp] theorem State.accepted_codec : (s.accepted c op).codec = c := State.codec_of_cur rfl

@[simp] theorem State.accepted_opBits : (s.accepted c op).opBits = op.bits := State.opBits_of_cur rfl

theorem State.accepted_frame : CommandFrame s (s.accepted c op) := ⟨rfl, fun _ _ => rfl, fun _ => rfl⟩

end

theorem CommandFrame.archCommand (s : State) (c : Codec) (op : Op) : CommandFrame s (s.clear.archCommand c op) := by
  have written (out : List Byte) (a : Nat) (h : out.length ≤ a) :
      Memory.readByte (Memory.writeSeq s.obuf 0 out) a = Memory.readByte s.obuf a := by
    rw [Memory.readByte_writeSeq, if_neg (by omega)]
  cases op with
  | encode => exact ⟨rfl, written _, fun _ => rfl⟩
  | validate => exact ⟨rfl, fun _ _ => rfl, fun _ => rfl⟩
  | decode =>
    simp only [State.archCommand, State.archDecode]
    split
    · exact (s.accepted_frame c .decode).raiseInvalidEncoding rfl _ _
    · exact ⟨rfl, written _, fun _ => rfl⟩

theorem CommandFrame.start (s : State) (c : Codec) (op : Op) : CommandFrame s (s.clear.start c op) := by
  cases op with
  | encode => exact ⟨rfl, fun _ _ => rfl, fun _ => rfl⟩
  | decode | validate =>
    simp only [State.start]
    split
    · exact (s.accepted_frame c _).failCheck rfl _ _
    · exact ⟨rfl, fun _ _ => rfl, fun _ => rfl⟩

/-- What a `CMD` write of a command can do: nothing on a busy block, the refusal of an input that does not fit, or, from the
cleared block, the transaction or the start of the micro-steps (R138, R123, R7). -/
inductive CommandCase (s : State) (c : Codec) (op : Op) : State → Prop
  | busy (hb : s.busy = true) : CommandCase s c op s
  | long (hb : s.busy = false) (hl : s.params.inCap < s.ilen) : CommandCase s c op s.clear.refuseIllcmd
  | architectural (hb : s.busy = false) (hl : s.ilen ≤ s.params.inCap) (hv : s.params.level = .architectural) :
      CommandCase s c op (s.clear.archCommand c op)
  | microStep (hb : s.busy = false) (hl : s.ilen ≤ s.params.inCap) (hv : s.params.level = .microStep) :
      CommandCase s c op (s.clear.start c op)

theorem State.runCommand_cases (s : State) (c : Codec) (op : Op) : CommandCase s c op (s.runCommand c op) := by
  cases hb : s.busy with
  | true => rw [s.runCommand_busy c op hb]; exact .busy hb
  | false =>
    rcases Nat.lt_or_ge s.params.inCap s.ilen with hl | hl
    · rw [s.runCommand_long c op hb hl]; exact .long hb hl
    · cases hv : s.params.level with
      | architectural => rw [s.runCommand_architectural c op hb hl hv]; exact .architectural hb hl hv
      | microStep => rw [s.runCommand_microStep c op hb hl hv]; exact .microStep hb hl hv

theorem State.runReserved_busy {s : State} (h : s.busy = true) : s.runReserved = s := if_pos h

theorem State.runReserved_idle {s : State} (h : s.busy = false) : s.runReserved = s.clear.refuseIllcmd :=
  if_neg (by simp [h])

theorem CommandCase.frame {s t : State} {c : Codec} {op : Op} (h : CommandCase s c op t) : CommandFrame s t := by
  cases h with
  | busy => exact .refl s
  | long => exact ⟨rfl, fun _ _ => rfl, fun _ => rfl⟩
  | architectural => exact .archCommand s c op
  | microStep => exact .start s c op

/-! ### What a step can do -/

/-- A read port answer, whatever it is: the model's own read fields are all it sets (R52). -/
def State.setRead (s : State) (r d : Nat) : State := { s with rdata := r, draws := d }

theorem State.answerResult_eq (s : State) (width v : Nat) : ∃ r d, s.answerResult width v = s.setRead r d := by
  unfold State.answerResult
  split
  · exact ⟨_, _, rfl⟩
  · exact ⟨_, s.draws, rfl⟩

theorem State.hostRead_eq (s : State) (reg : Nat) : ∃ r d, s.hostRead reg = s.setRead r d := by
  unfold State.hostRead
  split_ifs
  · exact ⟨_, s.draws, rfl⟩
  · exact ⟨_, s.draws, rfl⟩
  · exact ⟨_, s.draws, rfl⟩
  · exact s.answerResult_eq _ _
  · exact s.answerResult_eq _ _
  · exact s.answerResult_eq _ _
  · exact ⟨_, _, rfl⟩

theorem State.hostReadIbuf_eq (s : State) (i : Nat) : ∃ r d, s.hostReadIbuf i = s.setRead r d := by
  unfold State.hostReadIbuf
  split
  · exact ⟨_, s.draws, rfl⟩
  · exact ⟨_, _, rfl⟩

theorem State.hostReadObuf_eq (s : State) (i : Nat) : ∃ r d, s.hostReadObuf i = s.setRead r d := by
  unfold State.hostReadObuf
  split
  · exact ⟨_, _, rfl⟩
  · split
    · exact ⟨_, s.draws, rfl⟩
    · exact ⟨_, _, rfl⟩

/-- What a step can do, the events that are left and the read answer put in first: a core step, `Reset`, a command, a
reserved word, an access that changes nothing of the block, or an accepted write to `ILEN` or `IBUF`. -/
inductive StepCase (s : State) : State → Prop
  | core (p : List Event) (r : Nat) : StepCase s { s with pending := p, rdata := r }.coreStep
  | reset (p : List Event) : StepCase s { s with pending := p }.applyReset
  | command (p : List Event) (c : Codec) (op : Op) : StepCase s ({ s with pending := p }.runCommand c op)
  | reserved (p : List Event) : StepCase s { s with pending := p }.runReserved
  | still (p : List Event) (r d : Nat) : StepCase s { s with pending := p, rdata := r, draws := d }
  | writeIlen (p : List Event) (v : Nat) (hb : s.busy = false) :
      StepCase s { s with pending := p, ilen := v % 2 ^ s.params.lenw }
  | writeIbuf (p : List Event) (i : Nat) (v : Byte) (hb : s.busy = false) (hi : i < s.params.inCap) :
      StepCase s { s with pending := p, ibuf := Memory.writeByte s.ibuf i v }

theorem StepCase.of_setRead {s t : State} (p : List Event) (h : ∃ r d, t = { s with pending := p }.setRead r d) :
    StepCase s t := by
  obtain ⟨r, d, rfl⟩ := h
  exact .still p r d

theorem StepCase.of_hostOp {s t : State} {op : HostOp} {p : List Event} (h : s.hostOp op p = .next t) :
    StepCase s t := by
  cases op with
  | write reg v =>
    simp only [State.hostOp] at h
    split at h
    · rcases exec_cases (decodeWord (commandWord v)) { s with pending := p } with ⟨c, op, -, e⟩ | e <;>
        rw [e] at h <;> cases h
      · exact .command p c op
      · exact .reserved p
    · cases h
      unfold State.hostWriteReg
      split
      · rename_i hw
        exact .writeIlen p v (eq_false_of_ne_true hw.2)
      · exact .still p s.rdata s.draws
  | read reg => cases h; exact .of_setRead p (State.hostRead_eq _ reg)
  | writeIbuf i v =>
    cases h
    unfold State.hostWriteIbuf
    split
    · rename_i hw
      exact .writeIbuf p i v (eq_false_of_ne_true hw.2) hw.1
    · exact .still p s.rdata s.draws
  | readIbuf i => cases h; exact .of_setRead p (State.hostReadIbuf_eq _ i)
  | writeObuf i v => cases h; exact .still p s.rdata s.draws
  | readObuf i => cases h; exact .of_setRead p (State.hostReadObuf_eq _ i)
  | waitDone =>
    cases h
    unfold State.pollDone
    split
    · exact .still p _ s.draws
    · exact .core s.pending _

theorem step_cases {s t : State} (h : step s = .next t) : StepCase s t := by
  match hp : s.pending with
  | [] =>
    rw [step_of_pending_nil hp] at h
    cases h
    exact .core s.pending s.rdata
  | .core :: rest =>
    rw [step_of_pending_core hp] at h
    cases h
    exact .core rest s.rdata
  | .reset :: rest =>
    rw [step_of_pending_reset hp] at h
    cases h
    exact .reset rest
  | .host op :: rest =>
    rw [step_of_pending_host hp] at h
    exact .of_hostOp h

end Sys2Proof.Machine
end

section
/-! SUPPORT. Every step keeps the invariant: how it is put together for an idle and for a running block, then each way a
command starts, moves and ends. -/

namespace Sys2Proof.Machine

/-! ### Positions the engine reports -/

theorem scan_fail_lt {c : Codec} {i p pos : Nat} {cause : Cause} {str : List Byte}
    (h : scan c i p str = .fail cause pos) : pos < i + str.length := by
  induction str generalizing i p with
  | nil => cases h
  | cons x xs ih =>
    have next {q : Nat} (hx : scan c (i + 1) q xs = .fail cause pos) : pos < i + (x :: xs).length := by
      have := ih hx
      simp only [List.length_cons]
      omega
    rw [scan] at h
    split at h
    · exact next h
    · split at h
      · cases h
        simp
      · split at h
        · cases h
          simp
        · exact next h

/-- Every position `CHECK` reports is at most the string's length (R119). -/
theorem checkString_fail_le {c : Codec} {pos : Nat} {cause : Cause} {str : List Byte}
    (h : checkString c str = .fail cause pos) : pos ≤ str.length := by
  unfold checkString at h
  simp only at h
  split at h
  · cases h
    exact le_refl _
  · split at h
    · rename_i hs
      cases h
      exact Nat.zero_add str.length ▸ (scan_fail_lt hs).le
    · split at h
      · cases h
        exact Nat.sub_le _ _
      · split at h <;> cases h
        omega

theorem decodeString_invalid_le {c : Codec} {pos : Nat} {cause : Cause} {str : List Byte}
    (h : decodeString c str = .invalidEncoding cause pos) : pos ≤ str.length := by
  unfold decodeString at h
  split at h <;> cases h
  rename_i hc
  exact checkString_fail_le hc

/-! ### The parts of the invariant -/

/-- What the invariant says of the parameters, the buffers, `ILEN` and `OLEN`. Only these are its arguments, so an update of
other fields keeps it as it stands. -/
structure StoreOk (p : Params) (ibuf obuf : Memory) (ilen olen : Nat) : Prop where
  params_ok : p.ok = true
  ibuf_wf : Memory.wf ibuf = true
  obuf_wf : Memory.wf obuf = true
  ibuf_in : ∀ cell ∈ ibuf, cell.1 < p.inCap
  obuf_in : ∀ cell ∈ obuf, cell.1 < p.outCap
  ilen_width : ilen < 2 ^ p.lenw
  olen_le : olen ≤ p.outCap
  determined : ∀ i < olen, (Memory.readByte obuf i).isSome

section
variable {p : Params} {ibuf obuf : Memory} {ilen olen : Nat}

/-- No result at all is a determined result. -/
theorem StoreOk.noResult (h : StoreOk p ibuf obuf ilen olen) : StoreOk p ibuf obuf ilen 0 :=
  { h with olen_le := Nat.zero_le _, determined := fun _ hi => absurd hi (Nat.not_lt_zero _) }

/-- Appending elements to the result keeps it determined: those below `OLEN` stay, and each new one is written. -/
theorem StoreOk.append (h : StoreOk p ibuf obuf ilen olen) {obuf' : Memory} {m : Nat} (hfit : olen + m ≤ p.outCap)
    (hwf : Memory.wf obuf' = true) (hin : ∀ cell ∈ obuf', cell ∈ obuf ∨ (olen ≤ cell.1 ∧ cell.1 < olen + m))
    (hold : ∀ a < olen, Memory.readByte obuf' a = Memory.readByte obuf a)
    (hnew : ∀ j < m, (Memory.readByte obuf' (olen + j)).isSome) : StoreOk p ibuf obuf' ilen (olen + m) where
  params_ok := h.params_ok
  ibuf_wf := h.ibuf_wf
  obuf_wf := hwf
  ibuf_in := h.ibuf_in
  obuf_in cell hc := by
    rcases hin cell hc with hc | ⟨-, hc⟩
    · exact h.obuf_in cell hc
    · omega
  ilen_width := h.ilen_width
  olen_le := hfit
  determined i hi := by
    rcases Nat.lt_or_ge i olen with hlt | hge
    · rw [hold i hlt]
      exact h.determined i hlt
    · have := hnew (i - olen) (by omega)
      rwa [Nat.add_sub_cancel' hge] at this

/-- `emit` into a free place (R54). -/
theorem StoreOk.emit (h : StoreOk p ibuf obuf ilen olen) (v : Byte) (hfit : olen < p.outCap) :
    StoreOk p ibuf (Memory.writeByte obuf olen v) ilen (olen + 1) := by
  refine h.append hfit (Memory.wf_writeByte _ _ h.obuf_wf) ?_ ?_ ?_
  · intro cell hc
    rcases Memory.mem_writeByte hc with rfl | hc
    · exact .inr ⟨le_refl _, Nat.lt_succ_self olen⟩
    · exact .inl hc
  · exact fun a ha => Memory.readByte_writeByte_other _ _ (Nat.ne_of_lt ha)
  · intro j hj
    obtain rfl : j = 0 := by omega
    simp [Memory.readByte_writeByte_same]

/-- A whole result written from index 0 on. -/
theorem StoreOk.writeResult (h : StoreOk p ibuf obuf ilen olen) {out : List Byte} (hfit : out.length ≤ p.outCap) :
    StoreOk p ibuf (Memory.writeSeq obuf 0 out) ilen out.length := by
  have := h.noResult.append (m := out.length) (by omega) (Memory.wf_writeSeq 0 out h.obuf_wf)
    (fun cell hc => (Memory.mem_writeSeq hc).symm) (fun a ha => absurd ha (Nat.not_lt_zero a))
    (fun j hj => by simp [Memory.readByte_writeSeq, hj])
  rwa [Nat.zero_add] at this

/-- An element of `IBUF` written inside the buffer. -/
theorem StoreOk.writeInput (h : StoreOk p ibuf obuf ilen olen) {i : Nat} (v : Byte) (hi : i < p.inCap) :
    StoreOk p (Memory.writeByte ibuf i v) obuf ilen olen :=
  { h with
    ibuf_wf := Memory.wf_writeByte i v h.ibuf_wf
    ibuf_in := fun cell hc => by
      rcases Memory.mem_writeByte hc with rfl | hc
      · exact hi
      · exact h.ibuf_in cell hc }

end

/-- The part of the invariant that only the buffers and lengths decide. -/
def State.Stored (s : State) : Prop := StoreOk s.params s.ibuf s.obuf s.ilen s.olen

theorem State.Inv.stored {s : State} (h : s.Inv) : s.Stored :=
  ⟨h.params_ok, h.ibuf_wf, h.obuf_wf, h.ibuf_in, h.obuf_in, h.ilen_width, h.olen_le, h.result_determined⟩

/-- The invariant of an idle block: the datapath is free (U15). -/
theorem State.Inv.of_idle {s : State} (hs : s.Stored) (he : s.errPos < 2 ^ s.params.lenw)
    (hi : s.ipos < 2 ^ s.params.lenw) (hn : s.npad < 2 ^ s.params.lenw) (hp : s.phase = .idle) (ho : s.OutcomeOk) :
    s.Inv where
  params_ok := hs.params_ok
  ibuf_wf := hs.ibuf_wf
  obuf_wf := hs.obuf_wf
  ibuf_in := hs.ibuf_in
  obuf_in := hs.obuf_in
  ilen_width := hs.ilen_width
  errPos_width := he
  ipos_width := hi
  npad_width := hn
  olen_le := hs.olen_le
  result_determined := hs.determined
  outcome_ok := ho
  datapath_ok := by simp only [State.DatapathOk, hp]

/-- The registers of a running command: `BUSY` alone, no error information (R30, R33), input that fits. -/
structure State.Running (s : State) : Prop where
  status : s.status = 0x01
  errCause : s.errCause = 0
  errPos : s.errPos = 0
  scan : s.ScanOk

/-- The invariant of a running command. -/
theorem State.Running.inv {s : State} (h : s.Running) (hs : s.Stored) (hp : s.phase ≠ .idle) (hd : s.DatapathOk) :
    s.Inv := by
  obtain ⟨hst, hec, hep, -, hpos, hpad, -⟩ := h
  have hw := hs.ilen_width
  exact {
    params_ok := hs.params_ok, ibuf_wf := hs.ibuf_wf, obuf_wf := hs.obuf_wf, ibuf_in := hs.ibuf_in
    obuf_in := hs.obuf_in, ilen_width := hw, errPos_width := by rw [hep]; positivity
    ipos_width := by omega, npad_width := by omega, olen_le := hs.olen_le, result_determined := hs.determined
    outcome_ok := .inl ⟨hst, hp, hec, hep⟩, datapath_ok := hd }

/-- The registers of a block that is not idle (R30, R37). -/
theorem State.Inv.running {s : State} (h : s.Inv) (hp : s.phase ≠ .idle) : s.Running := by
  have hscan : s.ScanOk := by
    have hd := h.datapath_ok
    unfold State.DatapathOk at hd
    cases hph : s.phase <;> simp only [hph] at hd
    case idle => exact absurd hph hp
    case eRun => exact hd.1
    case eFlush => exact hd.1.1
    case ePad => exact hd.1
    case dRun => exact hd.1
    case dFinal => exact hd.1.1
  rcases h.outcome_ok with ⟨hst, -, hec, hep⟩ | ⟨hidle, -⟩
  · exact ⟨hst, hec, hep, hscan⟩
  · exact absurd hidle hp

theorem State.Inv.phase_of_not_busy {s : State} (h : s.Inv) (hb : s.busy = false) : s.phase = .idle := by
  by_contra hp
  rw [h.busy_iff.2.mpr hp] at hb
  cases hb

/-! ### How a command ends -/

/-- The words `STATUS` may hold while a command has not ended: `BUSY` alone, or the cleared word (R33, R94). -/
def State.Underway (s : State) : Prop := (s.status = 0x00 ∨ s.status = 0x01) ∧ s.errCause = 0 ∧ s.errPos = 0

theorem State.Running.underway {s : State} (h : s.Running) : s.Underway := ⟨.inr h.status, h.errCause, h.errPos⟩

theorem State.Underway.complete_status {s : State} (h : s.Underway) : s.complete.status = 0x02 := by
  rcases h.1 with e | e <;> rw [State.complete_status, e] <;> decide

/-- `COMPLETE` ends a command with `DONE` alone (R101). -/
theorem State.Inv.complete {s : State} (h : s.Inv) (hu : s.Underway) : s.complete.Inv :=
  .of_idle h.stored h.errPos_width h.ipos_width h.npad_width rfl
    (.inr ⟨rfl, .inr (.inl ⟨hu.complete_status, hu.2⟩)⟩)

/-- The exception ends a command with `DONE` and `ERR` and without a result (R121). -/
theorem State.Inv.raiseInvalidEncoding {s : State} (h : s.Inv) (hu : s.Underway) (cause : Cause) {pos : Nat}
    (hpos : pos ≤ s.ilen) : (s.raiseInvalidEncoding cause pos).Inv := by
  obtain ⟨ec, ep, dr, e, hlo, hhi, hw, -⟩ := s.raiseInvalidEncoding_spec cause pos
  have hst : setFlag (clearFlag (setFlag s.status .err) .busy) .done = 0x06 := by
    rcases hu.1 with e | e <;> rw [e] <;> decide
  rw [e, hst]
  exact .of_idle h.stored.noResult (hw (lt_of_le_of_lt hpos h.ilen_width)) h.ipos_width h.npad_width rfl
    (.inr ⟨rfl, .inr (.inr (.inl ⟨rfl, rfl, hlo, hhi⟩))⟩)

theorem State.Inv.failCheck {s : State} (h : s.Inv) (hu : s.Underway) (cause : Cause) {pos : Nat} (hpos : pos ≤ s.ilen) :
    (s.failCheck cause pos).Inv := by
  unfold State.failCheck
  split
  · exact h.raiseInvalidEncoding hu cause hpos
  · exact h.complete hu

/-- A result from index 0 on and `DONE` alone (R105, R106). -/
theorem State.Inv.writeResult {s : State} (h : s.Inv) (hu : s.Underway) {out : List Byte}
    (hfit : out.length ≤ s.params.outCap) :
    { s with
      obuf := Memory.writeSeq s.obuf 0 out, olen := out.length
      status := statusWord false true false false false, phase := .idle }.Inv :=
  .of_idle (h.stored.writeResult hfit) h.errPos_width h.ipos_width h.npad_width rfl
    (.inr ⟨rfl, .inr (.inl ⟨statusWord_done, hu.2⟩)⟩)

theorem State.Inv.archEncode {s : State} (h : s.Inv) (hu : s.Underway) (hl : s.ilen ≤ s.params.inCap) (c : Codec) :
    (s.archEncode c).Inv := by
  refine h.writeResult hu ?_
  rw [encodeBytes_length_eq, State.input_length]
  exact h.encoded_length_le hl

theorem State.Inv.archDecode {s : State} (h : s.Inv) (hu : s.Underway) (hl : s.ilen ≤ s.params.inCap) (c : Codec) :
    (s.archDecode c).Inv := by
  unfold State.archDecode
  split
  · rename_i hd
    exact h.raiseInvalidEncoding hu _ (s.input_length ▸ decodeString_invalid_le hd)
  · rename_i hd
    refine h.writeResult hu ?_
    have hlen := decodeString_length_le hd
    rw [State.input_length] at hlen
    have hfit := (Params.bounds_of_ok h.params_ok).1
    omega

/-- The answer of a validate: `DONE`, and `VALID` for a valid string, which goes with an empty result (R107). -/
theorem State.Inv.archValidate {s : State} (h : s.Inv) (hu : s.Underway) (ho : s.olen = 0) (c : Codec) :
    (s.archValidate c).Inv := by
  refine .of_idle h.stored h.errPos_width h.ipos_width h.npad_width rfl (.inr ⟨rfl, ?_⟩)
  cases hv : isValid c s.input with
  | true => exact .inr (.inr (.inr (.inl ⟨by simp [State.archValidate, hv], ho, hu.2⟩)))
  | false => exact .inr (.inl ⟨by simp [State.archValidate, hv], hu.2⟩)

/-! ### How a command starts -/

theorem State.accepted_underway (s : State) (c : Codec) (op : Op) : (s.accepted c op).Underway := ⟨.inl rfl, rfl, rfl⟩

theorem State.Inv.accepted {s : State} (h : s.Inv) (hb : s.busy = false) (c : Codec) (op : Op) :
    (s.accepted c op).Inv := by
  have hp := h.phase_of_not_busy hb
  have hpow : 0 < 2 ^ s.params.lenw := by positivity
  exact .of_idle h.stored.noResult hpow hpow hpow hp (.inr ⟨hp, .inl ⟨rfl, rfl, rfl, rfl⟩⟩)

/-- A refused `CMD` write (R123). -/
theorem State.Inv.refuse {s : State} (h : s.Inv) (hb : s.busy = false) : s.clear.refuseIllcmd.Inv := by
  have hp := h.phase_of_not_busy hb
  have hpow : 0 < 2 ^ s.params.lenw := by positivity
  exact .of_idle h.stored.noResult hpow hpow hpow hp
    (.inr ⟨hp, .inr (.inr (.inr (.inr ⟨refuse_clearWord, rfl, rfl, rfl⟩)))⟩)

/-- A command as one transaction (R105 to R111). -/
theorem State.Inv.archCommand {s : State} (h : s.Inv) (hb : s.busy = false) (hl : s.ilen ≤ s.params.inCap)
    (c : Codec) (op : Op) : (s.clear.archCommand c op).Inv := by
  have hz := h.accepted hb c op
  have hu := s.accepted_underway c op
  cases op with
  | encode => exact hz.archEncode hu hl c
  | decode => exact hz.archDecode hu hl c
  | validate => exact hz.archValidate hu rfl c

/-- The datapath at the start of a running command: nothing read, nothing held (R94). -/
theorem State.accepted_running {s : State} (hl : s.ilen ≤ s.params.inCap) (c : Codec) (op : Op) (ph : Phase) :
    { s.accepted c op with status := setFlag 0 .busy, phase := ph }.Running :=
  ⟨busy_clearWord, rfl, rfl, hl, Nat.zero_le _, le_refl _, Nat.one_pos⟩

/-- The start of a decode or a validate: the length check (R94). -/
theorem State.Inv.startScan {s : State} (h : s.Inv) (hb : s.busy = false) (hl : s.ilen ≤ s.params.inCap)
    (c : Codec) {op : Op} (hop : op ≠ .encode) :
    (if s.ilen % blockSize c ≠ 0 then (s.accepted c op).failCheck .length s.ilen
      else { s.accepted c op with status := setFlag 0 .busy, phase := .dRun }).Inv := by
  have hz := h.accepted hb c op
  split
  · exact hz.failCheck (s.accepted_underway c op) _ (le_refl _)
  · rename_i hmod
    have hrun := State.accepted_running hl c op .dRun
    have hbits := s.accepted_opBits c op
    have hblock : s.ilen % blockSize (s.accepted c op).codec = 0 := by simpa using hmod
    refine hrun.inv hz.stored nofun ⟨hrun.scan, hblock, Nat.zero_le _, ?_⟩
    cases op with
    | encode => exact absurd rfl hop
    | decode => exact .inl ⟨hbits, rfl⟩
    | validate => exact .inr ⟨hbits, rfl, rfl⟩

/-- The start of the micro-steps (R94). -/
theorem State.Inv.start {s : State} (h : s.Inv) (hb : s.busy = false) (hl : s.ilen ≤ s.params.inCap)
    (c : Codec) (op : Op) : (s.clear.start c op).Inv := by
  cases op with
  | encode =>
    have hrun := State.accepted_running hl c .encode .eRun
    exact hrun.inv (h.accepted hb c .encode).stored nofun
      ⟨hrun.scan, s.accepted_opBits c .encode, rfl, groupBits_pos _⟩
  | decode => exact h.startScan hb hl c nofun
  | validate => exact h.startScan hb hl c nofun

theorem State.Inv.runCommand {s : State} (h : s.Inv) (c : Codec) (op : Op) : (s.runCommand c op).Inv := by
  have key {t : State} (ht : CommandCase s c op t) : t.Inv := by
    cases ht with
    | busy => exact h
    | long hb => exact h.refuse hb
    | architectural hb hl => exact h.archCommand hb hl c op
    | microStep hb hl => exact h.start hb hl c op
  exact key (s.runCommand_cases c op)

theorem State.Inv.runReserved {s : State} (h : s.Inv) : s.runReserved.Inv := by
  cases hb : s.busy with
  | true => rwa [State.runReserved_busy hb]
  | false => rw [State.runReserved_idle hb]; exact h.refuse hb

end Sys2Proof.Machine
end

section
/-! SUPPORT. Every step of the core keeps the invariant, phase by phase. -/

namespace Sys2Proof.Machine

/-! ### Room in the output buffer -/

/-- The groups of an input fit the encoding's whole blocks (R76, R78). -/
theorem groupCount_le_encoded (c : Codec) (n : Nat) :
    groupCount (groupBits c) n ≤ blockSize c * ((n + blockBytes c - 1) / blockBytes c) := by
  cases c <;> simp only [groupCount, groupBits, blockSize, blockBytes_base32, blockBytes_base64url] <;> omega

/-- Groups cut from an input of `n` bytes are at most its group count, which counts one more for a short chunk (R74). -/
theorem le_groupCount {c : Codec} {m r n : Nat} (h : groupBits c * m + r ≤ 8 * n) :
    m + (if r = 0 then 0 else 1) ≤ groupCount (groupBits c) n := by
  cases c <;> simp only [groupCount, groupBits] at h ⊢ <;> split <;> omega

/-- The groups of an input are its whole chunks and the short one (R74). -/
theorem groupCount_eq {c : Codec} {m r n : Nat} (h : groupBits c * m + r = 8 * n) (hr : r < groupBits c) :
    groupCount (groupBits c) n = m + (if r = 0 then 0 else 1) := by
  cases c <;> simp only [groupCount, groupBits] at h hr ⊢ <;> split <;> omega

/-- The groups of an input that fits, fit the output buffer (R10). -/
theorem State.Inv.groups_fit {s : State} (h : s.Inv) (hl : s.ilen ≤ s.params.inCap) {c : Codec} {m r : Nat}
    (hm : groupBits c * m + r ≤ 8 * s.ilen) : m + (if r = 0 then 0 else 1) ≤ s.params.outCap :=
  (le_groupCount hm).trans ((groupCount_le_encoded c s.ilen).trans (h.encoded_length_le hl))

/-! ### The datapath by phase -/

section
variable {s : State}

theorem State.datapathOk_eRun (hp : s.phase = .eRun) : s.DatapathOk ↔ s.EncodeRunOk := by
  simp only [State.DatapathOk, hp]

theorem State.datapathOk_eFlush (hp : s.phase = .eFlush) : s.DatapathOk ↔ s.EncodeRunOk ∧ s.ipos = s.ilen := by
  simp only [State.DatapathOk, hp]

theorem State.datapathOk_ePad (hp : s.phase = .ePad) :
    s.DatapathOk ↔ s.ScanOk ∧ s.opBits = Op.encode.bits ∧ s.ipos = s.ilen ∧ s.nbits = 0 ∧
      groupCount (groupBits s.codec) s.ilen ≤ s.olen ∧
      s.olen ≤ blockSize s.codec * ((s.ilen + blockBytes s.codec - 1) / blockBytes s.codec) := by
  simp only [State.DatapathOk, hp]

theorem State.datapathOk_dRun (hp : s.phase = .dRun) : s.DatapathOk ↔ s.DecodeRunOk := by
  simp only [State.DatapathOk, hp]

theorem State.datapathOk_dFinal (hp : s.phase = .dFinal) : s.DatapathOk ↔ s.DecodeRunOk ∧ s.ipos = s.ilen := by
  simp only [State.DatapathOk, hp]

end

/-! ### The encode -/

/-- The window of `E_RUN` after a byte is appended: its value fits its bits (R95, R41). -/
theorem State.EncodeRunOk.window {s : State} (h : s.EncodeRunOk) (x : Byte) :
    (s.nbits + 8).toNat = s.nbits.toNat + 8 ∧
      ((s.acc <<< 8) ||| x.zeroExtend 12).toNat < 2 ^ (s.nbits + 8).toNat := by
  have hn := h.nbits_le
  obtain ⟨⟨-, -, -, hacc⟩, -⟩ := h
  have hnb : (s.nbits + 8).toNat = s.nbits.toNat + 8 := by
    rw [BitVec.toNat_add]
    exact Nat.mod_eq_of_lt (by simp; omega)
  refine ⟨hnb, ?_⟩
  rw [acc_append_byte x hacc hn, hnb]
  exact window_lt hacc x.isLt

/-- The loop of `E_RUN` writes `OBUF`, `OLEN`, `NBITS` and `ACC` and nothing else (R95). -/
theorem State.drain_eq (n : Nat) (s : State) :
    ∃ obuf olen nbits acc, State.drain n s = { s with obuf := obuf, olen := olen, nbits := nbits, acc := acc } := by
  induction n generalizing s with
  | zero => exact ⟨_, _, _, _, rfl⟩
  | succ n ih =>
    rw [State.drain_succ]
    split
    · exact ih _
    · exact ⟨_, _, _, _, rfl⟩

/-- The byte of `E_RUN` in the window, before its groups are emitted (R95). -/
def State.loadByte (s : State) : State :=
  { s with
    acc := (s.acc <<< 8) ||| (s.ibufAt s.ipos).zeroExtend 12
    nbits := s.nbits + 8
    ipos := s.ipos + 1 }

theorem State.stepERun_of_lt {s : State} (hlt : s.ipos < s.ilen) : s.stepERun = State.drain 3 s.loadByte := if_pos hlt

theorem State.stepERun_of_end {s : State} (hge : ¬ s.ipos < s.ilen) : s.stepERun = { s with phase := .eFlush } :=
  if_neg hge

/-- What the loop of `E_RUN` makes of a window: its whole groups are appended to the result, the rest is kept (R95). -/
theorem State.EncodeRunOk.drain_loadByte {s : State} (h : s.EncodeRunOk) :
    ∃ m obuf nbits acc,
      State.drain 3 s.loadByte = { s.loadByte with obuf := obuf, olen := s.olen + m, nbits := nbits, acc := acc } ∧
      groupBits s.codec * m + nbits.toNat = s.nbits.toNat + 8 ∧ nbits.toNat < groupBits s.codec ∧
      acc.toNat < 2 ^ nbits.toNat ∧ (Memory.wf s.obuf = true → Memory.wf obuf = true) ∧
      (∀ cell ∈ obuf, cell ∈ s.obuf ∨ (s.olen ≤ cell.1 ∧ cell.1 < s.olen + m)) ∧
      (∀ a < s.olen, Memory.readByte obuf a = Memory.readByte s.obuf a) ∧
      ∀ j < m, (Memory.readByte obuf (s.olen + j)).isSome := by
  have hle := h.nbits_le
  obtain ⟨hnb, hacc⟩ := h.window (s.ibufAt s.ipos)
  have hk := groupBits_pos s.codec
  have hrounds : (s.nbits + 8).toNat / groupBits s.codec ≤ 3 := by
    rw [hnb]
    rcases groupBits_cases s.codec with e | e <;> rw [e] <;> omega
  obtain ⟨obuf, olen, nbits, acc, e⟩ := State.drain_eq 3 s.loadByte
  have hspec := State.drain_spec 3 s.loadByte hrounds hacc
  rw [e] at hspec ⊢
  obtain ⟨holen, hbits, hval, hnew, hold, hwf, hin, -⟩ := hspec
  change olen = s.olen + (s.nbits + 8).toNat / groupBits s.codec at holen
  change nbits.toNat = (s.nbits + 8).toNat % groupBits s.codec at hbits
  change acc.toNat = _ % 2 ^ ((s.nbits + 8).toNat % groupBits s.codec) at hval
  subst holen
  rw [← hbits] at hval
  refine ⟨_, obuf, nbits, acc, rfl, ?_, ?_, ?_, hwf, hin, fun a ha => hold a (.inl ha), fun j hj => ?_⟩
  · rw [hbits, ← hnb]
    exact Nat.div_add_mod _ _
  · exact hbits ▸ Nat.mod_lt _ hk
  · exact hval ▸ Nat.mod_lt _ (by positivity)
  · exact Option.isSome_of_eq_some (hnew j hj)

theorem State.Inv.stepERun {s : State} (h : s.Inv) (hp : s.phase = .eRun) : s.stepERun.Inv := by
  obtain ⟨hst, hec, hep, -⟩ := h.running (ne_of_eq_of_ne hp nofun)
  have hd := (State.datapathOk_eRun hp).mp h.datapath_ok
  obtain ⟨m, obuf, nbits, acc, e, hm, hlow, hacc, hwf, hin, hold, hnew⟩ := hd.drain_loadByte
  obtain ⟨hscan, hop, hsum, -⟩ := id hd
  obtain ⟨hl, hpos, hpad, -⟩ := id hscan
  by_cases hlt : s.ipos < s.ilen
  · rw [State.stepERun_of_lt hlt, e]
    have hnext : groupBits s.codec * (s.olen + m) + nbits.toNat = 8 * (s.ipos + 1) := by
      rw [Nat.mul_add]
      omega
    have hfit : s.olen + m ≤ s.params.outCap :=
      (Nat.le_add_right _ _).trans (h.groups_fit hl (hnext.le.trans (by omega)))
    have hrun : State.Running { s.loadByte with obuf := obuf, olen := s.olen + m, nbits := nbits, acc := acc } :=
      ⟨hst, hec, hep, hl, hlt, Nat.le_succ_of_le hpad, hacc⟩
    refine hrun.inv (h.stored.append hfit (hwf h.obuf_wf) hin hold hnew) (ne_of_eq_of_ne hp nofun) ?_
    refine (State.datapathOk_eRun ?_).mpr ⟨hrun.scan, hop, hnext, hlow⟩
    exact hp
  · rw [State.stepERun_of_end hlt]
    have hrun : State.Running { s with phase := .eFlush } := ⟨hst, hec, hep, hscan⟩
    exact hrun.inv h.stored nofun ⟨hd, show s.ipos = s.ilen by omega⟩

/-- The invariant in `E_PAD`: the whole input is read and between its groups and its whole blocks are written (R97). -/
theorem State.Running.inv_of_ePad {s : State} (h : s.Running) (hs : s.Stored) (hp : s.phase = .ePad)
    (hop : s.opBits = Op.encode.bits) (hend : s.ipos = s.ilen) (hnb : s.nbits = 0)
    (hlo : groupCount (groupBits s.codec) s.ilen ≤ s.olen)
    (hhi : s.olen ≤ blockSize s.codec * ((s.ilen + blockBytes s.codec - 1) / blockBytes s.codec)) : s.Inv :=
  h.inv hs (ne_of_eq_of_ne hp nofun) ((State.datapathOk_ePad hp).mpr ⟨h.scan, hop, hend, hnb, hlo, hhi⟩)

theorem State.Inv.stepEFlush {s : State} (h : s.Inv) (hp : s.phase = .eFlush) : s.stepEFlush.Inv := by
  obtain ⟨hst, hec, hep, hscan⟩ := h.running (ne_of_eq_of_ne hp nofun)
  obtain ⟨⟨-, hop, hsum, hlow⟩, hend⟩ := (State.datapathOk_eFlush hp).mp h.datapath_ok
  obtain ⟨hl, hpos, hpad, hacc⟩ := id hscan
  rw [hend] at hsum
  have hcount := groupCount_eq hsum hlow
  have hroom := h.groups_fit hl hsum.le
  have hblocks := groupCount_le_encoded s.codec s.ilen
  unfold State.stepEFlush
  simp only
  split
  · rename_i hnb
    rw [if_neg (Nat.ne_of_gt hnb)] at hcount hroom
    have hrun (v : Byte) : State.Running { s.emit v with nbits := 0, acc := 0, phase := .ePad } :=
      ⟨hst, hec, hep, hl, hpos, hpad, Nat.one_pos⟩
    exact (hrun _).inv_of_ePad (h.stored.emit _ hroom) rfl hop hend rfl hcount.le (hcount.ge.trans hblocks)
  · rename_i hnb
    have hz : s.nbits.toNat = 0 := by omega
    rw [if_pos hz] at hcount
    have hrun : State.Running { s with phase := .ePad } := ⟨hst, hec, hep, hscan⟩
    exact hrun.inv_of_ePad h.stored rfl hop hend (BitVec.eq_of_toNat_eq hz) hcount.le (hcount.ge.trans hblocks)

/-- A length below a multiple of the block size that is no multiple itself has room for one more element. -/
theorem succ_le_mul_of_mod_ne {n b q : Nat} (h : n ≤ b * q) (hn : n % b ≠ 0) : n + 1 ≤ b * q :=
  Nat.lt_of_le_of_ne h fun e => hn (e ▸ Nat.mul_mod_right b q)

theorem State.Inv.stepEPad {s : State} (h : s.Inv) (hp : s.phase = .ePad) : s.stepEPad.Inv := by
  have hrun := h.running (ne_of_eq_of_ne hp nofun)
  obtain ⟨hscan, hop, hend, hnb, hlo, hhi⟩ := (State.datapathOk_ePad hp).mp h.datapath_ok
  unfold State.stepEPad
  split
  · rename_i hmod
    have hnext := succ_le_mul_of_mod_ne hhi hmod
    have hroom := hnext.trans (h.encoded_length_le hscan.1)
    have hrun' : (s.emit padChar).Running := ⟨hrun.status, hrun.errCause, hrun.errPos, hscan⟩
    exact hrun'.inv_of_ePad (h.stored.emit _ hroom) hp hop hend hnb (Nat.le_succ_of_le hlo) hnext
  · exact h.complete hrun.underway

/-! ### The decode and the validate -/

/-- A failing check of a running scan or of `D_FINAL` (R100). -/
theorem State.Inv.failRunning {s : State} (h : s.Inv) (hp : s.phase ≠ .idle) (cause : Cause) {pos : Nat}
    (hpos : pos ≤ s.ilen) : (s.failCheck cause pos).Inv := h.failCheck (h.running hp).underway cause hpos

/-- How many bytes are written and how many bits held after `n` symbols: a decode has written every whole byte, a validate
none (R98). These are the counts of `State.DecodeRunOk`, said of numbers. -/
def DecodeCount (c : Codec) (op : BitVec 2) (olen n nbits : Nat) : Prop :=
  (op = Op.decode.bits ∧ 8 * olen + nbits = groupBits c * n) ∨
  (op = Op.validate.bits ∧ olen = 0 ∧ nbits = groupBits c * n % 8)

theorem State.decodeRunOk_iff {s : State} :
    s.DecodeRunOk ↔ s.ScanOk ∧ s.ilen % blockSize s.codec = 0 ∧ s.nbits.toNat ≤ 7 ∧
      DecodeCount s.codec s.opBits s.olen (s.ipos - s.npad) s.nbits.toNat := Iff.rfl

section
variable {c : Codec} {op : BitVec 2} {olen n nbits : Nat}

/-- One symbol more, without a whole byte. -/
theorem DecodeCount.symbol (h : DecodeCount c op olen n nbits) (hlt : nbits + groupBits c < 8) :
    DecodeCount c op olen (n + 1) (nbits + groupBits c) := by
  unfold DecodeCount
  rw [Nat.mul_succ]
  exact h.imp (fun ⟨hdec, hsum⟩ => ⟨hdec, by omega⟩) (fun ⟨hval, hz, hsum⟩ => ⟨hval, hz, by omega⟩)

/-- One symbol more, which completes a byte: only a decode writes it. -/
theorem DecodeCount.byte (h : DecodeCount c op olen n nbits) (hseven : nbits ≤ 7) (hge : 8 ≤ nbits + groupBits c) :
    DecodeCount c op (olen + if op = Op.decode.bits then 1 else 0) (n + 1) (nbits + groupBits c - 8) := by
  unfold DecodeCount
  rw [Nat.mul_succ]
  rcases h with ⟨rfl, hsum⟩ | ⟨rfl, hz, hsum⟩
  · rw [if_pos rfl]
    exact .inl ⟨rfl, by omega⟩
  · rw [if_neg (by decide)]
    rcases groupBits_cases c with hk | hk <;> exact .inr ⟨rfl, hz, by omega⟩

/-- The bytes of a decode are fewer than its symbols, so they fit (R84, R10). -/
theorem State.Inv.decoded_fit {s : State} (h : s.Inv) (hl : s.ilen ≤ s.params.inCap) (hn : n ≤ s.ilen)
    (hc : DecodeCount c op olen n nbits) : olen ≤ s.params.outCap := by
  have hcap := (Params.bounds_of_ok h.params_ok).1
  have hbits : groupBits c * n ≤ 8 * s.ilen := Nat.mul_le_mul (by rcases groupBits_cases c with e | e <;> omega) hn
  rcases hc with ⟨-, hsum⟩ | ⟨-, hz, -⟩ <;> omega

end

/-- The invariant in `D_RUN` (R98). -/
theorem State.Running.inv_of_dRun {s : State} (h : s.Running) (hs : s.Stored) (hp : s.phase = .dRun)
    (hblock : s.ilen % blockSize s.codec = 0) (hseven : s.nbits.toNat ≤ 7)
    (hcount : DecodeCount s.codec s.opBits s.olen (s.ipos - s.npad) s.nbits.toNat) : s.Inv :=
  h.inv hs (ne_of_eq_of_ne hp nofun)
    ((State.datapathOk_dRun hp).mpr (State.decodeRunOk_iff.mpr ⟨h.scan, hblock, hseven, hcount⟩))

/-- The window of `D_RUN` after a symbol value is appended: its value fits its bits (R98, R41). -/
theorem State.DecodeRunOk.window_lt {s : State} (h : s.DecodeRunOk) {v : Nat} (hv : v < 2 ^ groupBits s.codec) :
    ((s.acc <<< groupBits s.codec) ||| BitVec.ofNat 12 v).toNat < 2 ^ (s.nbits.toNat + groupBits s.codec) := by
  have hacc : s.acc.toNat < 2 ^ s.nbits.toNat := h.1.2.2.2
  rw [acc_append_symbol hv hacc h.nbits_le]
  exact Machine.window_lt hacc hv

/-- Taking a symbol (R98): the window keeps what is not yet a byte, and a decode's byte has a place. -/
theorem State.Inv.takeSymbol {s : State} (h : s.Inv) (hp : s.phase = .dRun) (hlt : s.ipos < s.ilen) {v : Nat}
    (hv : v < 2 ^ groupBits s.codec) : (s.takeSymbol v).Inv := by
  obtain ⟨hst, hec, hep, -⟩ := h.running (ne_of_eq_of_ne hp nofun)
  have hd := (State.datapathOk_dRun hp).mp h.datapath_ok
  have hwin := hd.window_lt hv
  have htwelve := hd.nbits_le
  obtain ⟨⟨hl, hpos, hpad, -⟩, hblock, hseven, hcount⟩ := State.decodeRunOk_iff.mp hd
  have hpad' : s.npad ≤ s.ipos + 1 := Nat.le_succ_of_le hpad
  have hread : s.ipos + 1 - s.npad ≤ s.ilen := (Nat.sub_le _ _).trans hlt
  have hbits {n : Nat} (hn : n < 16) : (BitVec.ofNat 4 n).toNat = n := by
    rw [BitVec.toNat_ofNat]
    exact Nat.mod_eq_of_lt hn
  unfold State.takeSymbol
  simp only
  split
  · rename_i hbyte
    have hnb := hbits (n := s.nbits.toNat + groupBits s.codec - 8) (by omega)
    have hcount := hcount.byte hseven hbyte
    rw [← Nat.sub_add_comm hpad, ← hnb] at hcount
    have hroom := h.decoded_fit hl hread hcount
    have hrest (w : BitVec 12) : (BitVec.ofNat 12 (w.toNat % 2 ^ (s.nbits.toNat + groupBits s.codec - 8))).toNat <
        2 ^ (BitVec.ofNat 4 (s.nbits.toNat + groupBits s.codec - 8)).toNat := by
      rw [hnb, BitVec.toNat_ofNat]
      exact lt_of_le_of_lt (Nat.mod_le _ _) (Nat.mod_lt _ (by positivity))
    split
    · rename_i hdec
      rw [if_pos hdec] at hcount hroom
      exact State.Running.inv_of_dRun ⟨hst, hec, hep, hl, hlt, hpad', hrest _⟩ (h.stored.emit _ hroom) hp hblock
        (hnb.trans_le (by omega)) hcount
    · rename_i hdec
      rw [if_neg hdec] at hcount
      exact State.Running.inv_of_dRun ⟨hst, hec, hep, hl, hlt, hpad', hrest _⟩ h.stored hp hblock
        (hnb.trans_le (by omega)) hcount
  · rename_i hshort
    have hnb := hbits (n := s.nbits.toNat + groupBits s.codec) (by omega)
    have hcount := hcount.symbol (Nat.lt_of_not_le hshort)
    rw [← Nat.sub_add_comm hpad, ← hnb] at hcount
    rw [← hnb] at hwin
    exact State.Running.inv_of_dRun ⟨hst, hec, hep, hl, hlt, hpad', hwin⟩ h.stored hp hblock
      (hnb.trans_le (by omega)) hcount

theorem State.Inv.stepDRun {s : State} (h : s.Inv) (hp : s.phase = .dRun) : s.stepDRun.Inv := by
  have hne : s.phase ≠ .idle := ne_of_eq_of_ne hp nofun
  have hrun := h.running hne
  have hd := (State.datapathOk_dRun hp).mp h.datapath_ok
  obtain ⟨hscan, hblock, hseven, hcount⟩ := State.decodeRunOk_iff.mp hd
  obtain ⟨hl, hpos, hpad, hacc⟩ := id hscan
  unfold State.stepDRun
  simp only
  split
  · rename_i hlt
    split
    · rw [← Nat.add_sub_add_right s.ipos 1 s.npad] at hcount
      exact State.Running.inv_of_dRun ⟨hrun.status, hrun.errCause, hrun.errPos, hl, hlt, Nat.succ_le_succ hpad, hacc⟩
        h.stored hp hblock hseven hcount
    · split
      · exact h.failRunning hne _ hpos
      · split
        · exact h.failRunning hne _ hpos
        · rename_i hv _
          exact h.takeSymbol hp hlt (decLut_eq_some hv).1
  · rename_i hge
    have hrun' : State.Running { s with phase := .dFinal } := ⟨hrun.status, hrun.errCause, hrun.errPos, hscan⟩
    exact hrun'.inv h.stored nofun ⟨hd, show s.ipos = s.ilen by omega⟩

theorem State.Inv.stepDFinal {s : State} (h : s.Inv) (hp : s.phase = .dFinal) : s.stepDFinal.Inv := by
  have hne : s.phase ≠ .idle := ne_of_eq_of_ne hp nofun
  have hrun := h.running hne
  obtain ⟨⟨-, -, -, hop⟩, -⟩ := (State.datapathOk_dFinal hp).mp h.datapath_ok
  unfold State.stepDFinal
  split
  · exact h.failRunning hne _ (Nat.sub_le _ _)
  · split
    · exact h.failRunning hne _ (by omega)
    · split
      · rename_i hval
        refine .of_idle h.stored h.errPos_width h.ipos_width h.npad_width rfl (.inr ⟨rfl, ?_⟩)
        rcases hop with ⟨hdec, -⟩ | ⟨-, hz, -⟩
        · rw [hdec] at hval
          exact absurd hval (by decide)
        · refine .inr (.inr (.inr (.inl ⟨?_, hz, hrun.errCause, hrun.errPos⟩)))
          rw [State.complete_status, hrun.status]
          exact valid_busyWord
      · exact h.complete hrun.underway

theorem State.Inv.coreStep {s : State} (h : s.Inv) : s.coreStep.Inv := by
  unfold State.coreStep
  split
  next => exact h
  next hp => exact h.stepERun hp
  next hp => exact h.stepEFlush hp
  next hp => exact h.stepEPad hp
  next hp => exact h.stepDRun hp
  next hp => exact h.stepDFinal hp

end Sys2Proof.Machine
end

section
/-! SUPPORT. The statements about the invariant, at reset and at every step. -/

namespace Sys2Proof.Machine

/-- A block that holds nothing but its parameters, after the first reset or a later one (R45, R136). -/
theorem State.Inv.blank (s : State) (n : Nat) (hok : s.params.ok = true) :
    { State.reset with
      params := s.params, pending := s.pending, rdata := s.rdata, draws := s.draws, resets := n
      copyId := s.copyId }.Inv := by
  have hpow : 0 < 2 ^ s.params.lenw := Nat.two_pow_pos _
  have hs : StoreOk s.params [] [] 0 0 :=
    { params_ok := hok, ibuf_wf := rfl, obuf_wf := rfl, ibuf_in := nofun, obuf_in := nofun, ilen_width := hpow
      olen_le := Nat.zero_le _, determined := fun _ hi => absurd hi (Nat.not_lt_zero _) }
  exact .of_idle hs hpow hpow hpow rfl (.inr ⟨rfl, .inl ⟨rfl, rfl, rfl, rfl⟩⟩)

theorem State.Inv.applyReset {s : State} (h : s.Inv) : s.applyReset.Inv := .blank s (s.resets + 1) h.params_ok

/-- A write to `ILEN` or `IBUF` reaches an idle block only, whose datapath is free (R138, U15). -/
theorem State.Inv.setInput {s : State} (h : s.Inv) (hb : s.busy = false) {ibuf : Memory} {ilen : Nat}
    (hs : StoreOk s.params ibuf s.obuf ilen s.olen) : { s with ibuf := ibuf, ilen := ilen }.Inv := by
  have hp := h.phase_of_not_busy hb
  exact .of_idle hs h.errPos_width h.ipos_width h.npad_width hp h.outcome_ok

theorem StepCase.inv {s t : State} (h : s.Inv) (ht : StepCase s t) : t.Inv := by
  have hpending (p : List Event) : { s with pending := p }.Inv := h.setHost p s.rdata s.draws
  cases ht with
  | core p r => exact (h.setHost p r s.draws).coreStep
  | reset p => exact (hpending p).applyReset
  | command p c op => exact (hpending p).runCommand c op
  | reserved p => exact (hpending p).runReserved
  | still p r d => exact h.setHost p r d
  | writeIlen p v hb =>
    exact (hpending p).setInput hb { h.stored with ilen_width := Nat.mod_lt _ (Nat.two_pow_pos _) }
  | writeIbuf p i v hb hi => exact (hpending p).setInput hb (h.stored.writeInput v hi)

/-- Settles O29: each case of a step ends in the invariant. -/
theorem stepKeepsInv : Obligations.StepKeepsInv := fun _ _ h ht => (step_cases ht).inv h

/-- Settles O28: nothing is stored, nothing runs, and the parameters of log 2 meet R10. -/
theorem resetSatisfiesInv : Obligations.ResetSatisfiesInv := .blank State.reset 0 (by decide)

/-- Settles O32. -/
theorem resetState : Obligations.ResetState :=
  ⟨rfl, rfl, rfl, rfl, rfl, rfl, rfl, rfl, rfl, rfl, rfl, fun _ => ⟨rfl, rfl⟩⟩

end Sys2Proof.Machine
end

section
/-! SUPPORT. The statements about what a command leaves unchanged, and about what its result depends on. -/

namespace Sys2Proof.Machine

/-! ### The frames -/

/-- What the start of a validate does (R94, R100): complete with the answer 0, or run. -/
theorem State.start_validate (s : State) (c : Codec) :
    s.start c .validate =
      if s.ilen % blockSize c ≠ 0 then { s with cur := curOf c .validate }.complete
      else { s with cur := curOf c .validate, status := setFlag s.status .busy, phase := .dRun } := by
  rw [← State.failCheck_validate .length s.ilen (State.opBits_of_cur rfl)]
  rfl

/-- Only a decode can fail, so the other commands draw no free value (R115, log 6). -/
theorem CommandCase.draws_eq {s t : State} {c : Codec} {op : Op} (h : CommandCase s c op t) (hop : op ≠ .decode) :
    t.draws = s.draws := by
  cases h with
  | busy => rfl
  | long => rfl
  | architectural =>
    cases op with
    | encode => rfl
    | decode => exact absurd rfl hop
    | validate => rfl
  | microStep =>
    cases op with
    | encode => rfl
    | decode => exact absurd rfl hop
    | validate =>
      rw [State.start_validate]
      split <;> rfl

/-- A validate writes no output (R115). -/
theorem CommandCase.obuf_of_validate {s t : State} {c : Codec} (h : CommandCase s c .validate t) : t.obuf = s.obuf := by
  cases h with
  | busy => rfl
  | long => rfl
  | architectural => rfl
  | microStep =>
    rw [State.start_validate]
    split <;> rfl

/-- A running command is not disturbed (R138). -/
theorem eq_of_exec_busy {c : Codec} {op : Op} {s t : State} (h : exec (commandInstr c op) s = .next t)
    (hb : s.busy = true) : t = s := by
  rw [exec_commandInstr, s.runCommand_busy c op hb] at h
  cases h
  rfl

theorem commandCase_of_exec {c : Codec} {op : Op} {s t : State} (h : exec (commandInstr c op) s = .next t) :
    CommandCase s c op t := by
  rw [exec_commandInstr] at h
  cases h
  exact s.runCommand_cases c op

/-- Settles O16: the frame of a command, without the counter, which only a decode moves. -/
theorem encodeAndValidateFrame : Obligations.EncodeAndValidateFrame := by
  intro c op s t hop h
  have hc := commandCase_of_exec h
  refine ⟨?_, eq_of_exec_busy h, fun _ => hc.frame.above, ?_⟩
  · have hframe := hc.frame.others
    rwa [State.undoCommand, ← hc.draws_eq hop] at hframe
  · rintro rfl
    exact hc.obuf_of_validate

/-- Settles O17: the frame of a command. -/
theorem decodeFrame : Obligations.DecodeFrame := by
  intro c s t h
  have hc := commandCase_of_exec h
  exact ⟨hc.frame.others, hc.frame.draws, eq_of_exec_busy h, fun _ => hc.frame.above⟩

/-! ### What a result depends on -/

/-- The free values two blocks draw next are the same, or none is drawn (log 6). -/
def SameDraws (s₁ s₂ : State) : Prop :=
  s₁.params.errInfo = .reference ∨ (s₁.copyId = s₂.copyId ∧ s₁.draws = s₂.draws)

/-- Two blocks show a host the same result; the error information only under `adv` (R33, R120). -/
structure SameOutcome (adv : Prop) (t₁ t₂ : State) : Prop where
  status : t₁.status = t₂.status
  olen : t₁.olen = t₂.olen
  result : t₁.result = t₂.result
  advisory : adv → t₁.errCause = t₂.errCause ∧ t₁.errPos = t₂.errPos

@[simp] theorem State.result_of_olen_eq_zero {s : State} (h : s.olen = 0) : s.result = [] := by
  simp [State.result, h]

theorem SameOutcome.of_no_output {adv : Prop} {t₁ t₂ : State} (hst : t₁.status = t₂.status) (h₁ : t₁.olen = 0)
    (h₂ : t₂.olen = 0) (hadv : adv → t₁.errCause = t₂.errCause ∧ t₁.errPos = t₂.errPos) : SameOutcome adv t₁ t₂ :=
  ⟨hst, h₁.trans h₂.symm, (State.result_of_olen_eq_zero h₁).trans (State.result_of_olen_eq_zero h₂).symm, hadv⟩

/-- The saved error information is a function of the violation, the parameters and the free values drawn (R119, R120). -/
theorem State.saveErrInfo_congr {s₁ s₂ : State} (hp : s₁.params = s₂.params) (hd : SameDraws s₁ s₂) (cause : Cause)
    (pos : Nat) :
    (s₁.saveErrInfo cause pos).errCause = (s₂.saveErrInfo cause pos).errCause ∧
      (s₁.saveErrInfo cause pos).errPos = (s₂.saveErrInfo cause pos).errPos := by
  unfold State.saveErrInfo
  rw [← hp]
  cases he : s₁.params.errInfo with
  | reference => exact ⟨rfl, rfl⟩
  | free =>
    rcases hd with hr | ⟨hid, hdr⟩
    · rw [he] at hr
      cases hr
    · simp only [hid, hdr, hp]
      trivial

/-- The exception shows two blocks alike when their status was alike. -/
theorem SameOutcome.raiseInvalidEncoding {s₁ s₂ : State} (hp : s₁.params = s₂.params) (hst : s₁.status = s₂.status)
    (cause : Cause) (pos : Nat) :
    SameOutcome (SameDraws s₁ s₂) (s₁.raiseInvalidEncoding cause pos) (s₂.raiseInvalidEncoding cause pos) := by
  refine .of_no_output ?_ rfl rfl fun hd => State.saveErrInfo_congr hp hd cause pos
  obtain ⟨_, _, _, e₁, -⟩ := s₁.raiseInvalidEncoding_spec cause pos
  obtain ⟨_, _, _, e₂, -⟩ := s₂.raiseInvalidEncoding_spec cause pos
  rw [e₁, e₂, hst]

/-- A written result shows two cleared blocks alike. -/
theorem SameOutcome.written {adv : Prop} {t₁ t₂ : State} {m₁ m₂ : Memory} {out : List Byte}
    (hst : t₁.status = t₂.status) (h₁ : t₁.obuf = Memory.writeSeq m₁ 0 out) (h₂ : t₂.obuf = Memory.writeSeq m₂ 0 out)
    (hl₁ : t₁.olen = out.length) (hl₂ : t₂.olen = out.length)
    (hadv : adv → t₁.errCause = t₂.errCause ∧ t₁.errPos = t₂.errPos) : SameOutcome adv t₁ t₂ :=
  ⟨hst, hl₁.trans hl₂.symm, (t₁.result_writeSeq out h₁ hl₁).trans (t₂.result_writeSeq out h₂ hl₂).symm, hadv⟩

theorem SameOutcome.archCommand {s₁ s₂ : State} (hp : s₁.params = s₂.params) (hin : s₁.input = s₂.input) (c : Codec)
    (op : Op) : SameOutcome (SameDraws s₁ s₂) (s₁.clear.archCommand c op) (s₂.clear.archCommand c op) := by
  cases op with
  | encode =>
    show SameOutcome _ ((s₁.accepted c .encode).archEncode c) ((s₂.accepted c .encode).archEncode c)
    simp only [State.archEncode, State.accepted_input, hin]
    exact .written rfl rfl rfl rfl rfl fun _ => ⟨rfl, rfl⟩
  | decode =>
    show SameOutcome _ ((s₁.accepted c .decode).archDecode c) ((s₂.accepted c .decode).archDecode c)
    simp only [State.archDecode, State.accepted_input, hin]
    split
    · exact SameOutcome.raiseInvalidEncoding (s₁ := s₁.accepted c .decode) (s₂ := s₂.accepted c .decode) hp rfl _ _
    · exact .written rfl rfl rfl rfl rfl fun _ => ⟨rfl, rfl⟩
  | validate =>
    show SameOutcome _ ((s₁.accepted c .validate).archValidate c) ((s₂.accepted c .validate).archValidate c)
    simp only [State.archValidate, State.accepted_input, hin]
    exact .of_no_output rfl rfl rfl fun _ => ⟨rfl, rfl⟩

theorem SameOutcome.refuse (adv : Prop) (s₁ s₂ : State) :
    SameOutcome adv s₁.clear.refuseIllcmd s₂.clear.refuseIllcmd := .of_no_output rfl rfl rfl fun _ => ⟨rfl, rfl⟩

/-- An instruction is one of the six commands, or its meaning in every state is the refusal of a reserved word. -/
theorem exec_command_or_reserved (i : Instr) :
    (∃ c op, i = commandInstr c op) ∨ ∀ s, exec i s = .next s.runReserved := by
  cases i with
  | enc32 => exact .inl ⟨.base32, .encode, rfl⟩
  | dec32 => exact .inl ⟨.base32, .decode, rfl⟩
  | val32 => exact .inl ⟨.base32, .validate, rfl⟩
  | enc64u => exact .inl ⟨.base64url, .encode, rfl⟩
  | dec64u => exact .inl ⟨.base64url, .decode, rfl⟩
  | val64u => exact .inl ⟨.base64url, .validate, rfl⟩
  | reservedOp11 | reservedBit7 | reservedBit6 | reservedBit5 | reservedBit4 | reservedBit3 => exact .inr fun _ => rfl

/-- Two idle blocks take the same branch of an instruction, and each branch reads the input and nothing else (R146). -/
theorem exec_sameOutcome (i : Instr) {s₁ s₂ : State} (hb₁ : s₁.busy = false) (hb₂ : s₂.busy = false)
    (hp : s₁.params = s₂.params) (hv : s₁.params.level = .architectural) (hl : s₁.ilen = s₂.ilen)
    (hin : s₁.input = s₂.input) :
    ∃ t₁ t₂, exec i s₁ = .next t₁ ∧ exec i s₂ = .next t₂ ∧ SameOutcome (SameDraws s₁ s₂) t₁ t₂ := by
  rcases exec_command_or_reserved i with ⟨c, op, rfl⟩ | hres
  · refine ⟨_, _, exec_commandInstr c op s₁, exec_commandInstr c op s₂, ?_⟩
    rcases Nat.lt_or_ge s₁.params.inCap s₁.ilen with hlong | hfit
    · rw [s₁.runCommand_long c op hb₁ hlong, s₂.runCommand_long c op hb₂ (hp ▸ hl ▸ hlong)]
      exact .refuse _ s₁ s₂
    · rw [s₁.runCommand_architectural c op hb₁ hfit hv, s₂.runCommand_architectural c op hb₂ (hp ▸ hl ▸ hfit) (hp ▸ hv)]
      exact .archCommand hp hin c op
  · refine ⟨_, _, hres s₁, hres s₂, ?_⟩
    rw [State.runReserved_idle hb₁, State.runReserved_idle hb₂]
    exact .refuse _ s₁ s₂

/-- Settles O18. -/
theorem resultDependsOnlyOnTheInput : Obligations.ResultDependsOnlyOnTheInput := by
  intro i s₁ s₂ hb₁ hb₂ hp hv hl hin
  obtain ⟨t₁, t₂, h₁, h₂, hsame⟩ := exec_sameOutcome i hb₁ hb₂ hp hv hl hin
  exact ⟨t₁, t₂, h₁, h₂, hsame.status, hsame.olen, hsame.result, hsame.advisory⟩

end Sys2Proof.Machine
end

section
/-! SUPPORT. The statements about a step at a `CMD` write, the host's ports, the copies and the symbol tables. -/

namespace Sys2Proof.Machine

/-! ### Command words -/

/-- Settles O4. -/
theorem stepRunsTheWrittenCommand : Obligations.StepRunsTheWrittenCommand := by
  intro s v rest h
  rw [step_of_pending_host h]
  rfl

/-- The command word is in the low 8 bits (R27). -/
theorem commandWord_mod (w : Nat) : commandWord (w % 2 ^ 8) = BitVec.ofNat 8 w := by
  apply BitVec.eq_of_toNat_eq
  simp [commandWord]

theorem step_withFetchWord (s : State) (w : Nat) :
    step (s.withFetchWord 8 w) = exec (decodeWord (BitVec.ofNat 8 w)) { s.idleForWord with pending := s.pending } := by
  rw [step_of_pending_host rfl, ← commandWord_mod w]
  rfl

theorem State.idleForWord_of_idle {s : State} (h : s.busy = false) : s.idleForWord = s := if_neg (by simp [h])

theorem State.idleForWord_of_busy {s : State} (h : s.busy = true) : s.idleForWord = s.complete := if_pos h

/-- A completed command is not running (R101). -/
theorem State.complete_busy (s : State) : s.complete.busy = false := by
  simp [State.busy, getFlag_setFlag, getFlag_clearFlag]

/-- Settles O5: the placed word runs at the block itself, or at the block with its running command ended. -/
theorem stepRunsThePlacedWord : Obligations.StepRunsThePlacedWord := by
  intro s w
  have hstep := step_withFetchWord s w
  cases hb : s.busy with
  | false =>
    rw [State.idleForWord_of_idle hb] at hstep
    exact ⟨fun _ => hstep, s, hstep, hb, rfl⟩
  | true =>
    rw [State.idleForWord_of_busy hb] at hstep
    exact ⟨nofun, s.complete, hstep, s.complete_busy, rfl⟩

/-! ### The host's ports -/

section
variable {s : State}

theorem State.hostWriteReg_ilen (hb : s.busy = false) (v : Nat) :
    s.hostWriteReg regIlen v = { s with ilen := v % 2 ^ s.params.lenw } := if_pos ⟨rfl, by simp [hb]⟩

theorem State.hostWriteIbuf_of_lt (hb : s.busy = false) {i : Nat} (hi : i < s.params.inCap) (v : Byte) :
    s.hostWriteIbuf i v = { s with ibuf := Memory.writeByte s.ibuf i v } := if_pos ⟨hi, by simp [hb]⟩

theorem State.ibufAt_writeByte (i j : Nat) (v : Byte) :
    { s with ibuf := Memory.writeByte s.ibuf i v }.ibufAt j = if j = i then v else s.ibufAt j := by
  simp only [State.ibufAt, Memory.readByte_writeByte]
  split <;> rfl

theorem State.answerResult_of_idle (hb : s.busy = false) (width v : Nat) : s.answerResult width v = s.answer v :=
  if_neg (by simp [hb])

theorem State.hostReadIbuf_of_lt {i : Nat} (hi : i < s.params.inCap) :
    s.hostReadIbuf i = s.answer (s.ibufAt i).toNat := if_pos hi

theorem State.hostReadObuf_of_lt (hb : s.busy = false) {i : Nat} {v : Byte} (hi : i < s.olen) (hc : i < s.params.outCap)
    (hv : Memory.readByte s.obuf i = some v) : s.hostReadObuf i = s.answer v.toNat := by
  rw [State.hostReadObuf, if_neg (by simp [hb, hi, hc]), hv]

end

/-- Settles O35. -/
theorem acceptedHostWrites : Obligations.AcceptedHostWrites := by
  intro s rest hb
  constructor
  · intro v h
    rw [step_of_pending_host h]
    exact congrArg Host.Outcome.next (State.hostWriteReg_ilen (s := { s with pending := rest }) hb v)
  · intro i v h hi
    refine ⟨{ s with pending := rest, ibuf := Memory.writeByte s.ibuf i v }, ?_, ?_, fun j hj => ?_, rfl⟩
    · rw [step_of_pending_host h]
      exact congrArg Host.Outcome.next (State.hostWriteIbuf_of_lt (s := { s with pending := rest }) hb hi v)
    · exact (State.ibufAt_writeByte i i v).trans (if_pos rfl)
    · exact (State.ibufAt_writeByte i j v).trans (if_neg hj)

/-- The answers of the registers an idle block lets the host read, by their numbers (R55). -/
theorem State.hostRead_rdata (s : State) (reg : Nat) :
    (reg = 0 → (s.hostRead reg).rdata = 0) ∧ (reg = 1 → (s.hostRead reg).rdata = s.status.toNat) ∧
      (reg = 2 → (s.hostRead reg).rdata = s.ilen) ∧
      (s.busy = false → (reg = 3 → (s.hostRead reg).rdata = s.olen) ∧
        (reg = 4 → (s.hostRead reg).rdata = s.errCause.toNat) ∧ (reg = 5 → (s.hostRead reg).rdata = s.errPos)) := by
  have result (hb : s.busy = false) (width v : Nat) : (s.answerResult width v).rdata = v := by
    rw [State.answerResult_of_idle hb, State.answer_rdata]
  refine ⟨?_, ?_, ?_, fun hb => ⟨?_, ?_, ?_⟩⟩ <;> rintro rfl
  · rfl
  · rfl
  · rfl
  · exact result hb _ _
  · exact result hb _ _
  · exact result hb _ _

/-- Settles O37. -/
theorem hostReadAnswers : Obligations.HostReadAnswers := by
  intro s rest
  refine ⟨fun r h => ?_, fun i h hi => ?_, fun i v h hb hi hc hv => ?_⟩ <;> rw [step_of_pending_host h]
  · exact ⟨_, rfl, State.hostRead_rdata { s with pending := rest } r⟩
  · exact ⟨_, rfl, congrArg State.rdata (State.hostReadIbuf_of_lt (s := { s with pending := rest }) hi)⟩
  · exact ⟨_, rfl, congrArg State.rdata (State.hostReadObuf_of_lt (s := { s with pending := rest }) hb hi hc hv)⟩

/-! ### Copies -/

theorem CommandFrame.copyId {s t : State} (h : CommandFrame s t) : t.copyId = s.copyId := (congrArg State.copyId h.others :)

theorem State.runReserved_frame (s : State) : CommandFrame s s.runReserved := by
  cases hb : s.busy with
  | true => rw [State.runReserved_busy hb]; exact .refl s
  | false => rw [State.runReserved_idle hb]; exact ⟨rfl, fun _ _ => rfl, fun _ => rfl⟩

/-- No step changes the parameters or the copy's number (log 2, log 14). -/
theorem StepCase.params_copyId {s t : State} (h : StepCase s t) : t.params = s.params ∧ t.copyId = s.copyId := by
  cases h with
  | core p r =>
    have hf := CoreFrame.coreStep { s with pending := p, rdata := r }
    exact ⟨hf.params, hf.copyId⟩
  | reset p => exact ⟨rfl, rfl⟩
  | command p c op =>
    have hf := ({ s with pending := p }.runCommand_cases c op).frame
    exact ⟨hf.params, hf.copyId⟩
  | reserved p =>
    have hf := { s with pending := p }.runReserved_frame
    exact ⟨hf.params, hf.copyId⟩
  | still p r d => exact ⟨rfl, rfl⟩
  | writeIlen p v hb => exact ⟨rfl, rfl⟩
  | writeIbuf p i v hb hi => exact ⟨rfl, rfl⟩

/-- What a step of one copy can do to the list: nothing, or replace that copy by its next state. -/
theorem stepInstance_cases {n : Nat} {sys sys' : List State} (h : stepInstance n sys = .next sys') :
    sys' = sys ∨ ∃ s t, sys[n]? = some s ∧ step s = .next t ∧ sys' = sys.set n t := by
  unfold stepInstance at h
  split at h
  · cases h
    exact .inl rfl
  · rename_i s hs
    split at h <;> cases h
    exact .inr ⟨s, _, hs, ‹_›, rfl⟩

/-- Replacing an element by one with the same image leaves the list of images. -/
theorem map_set_of_eq {α β : Type} (f : α → β) {l : List α} {n : Nat} {a b : α} (h : l[n]? = some a) (hf : f b = f a) :
    (l.set n b).map f = l.map f := by
  obtain ⟨hn, rfl⟩ := List.getElem?_eq_some_iff.mp h
  rw [List.map_set, hf, ← List.map_set, List.set_getElem_self]

theorem resetCopies_copyId (n : Nat) : (resetCopies n).map State.copyId = List.range n := by
  simp [resetCopies, Function.comp_def]

/-- Settles O52. -/
theorem copiesStayDistinct : Obligations.CopiesStayDistinct := by
  refine ⟨fun n => resetCopies_copyId n ▸ List.nodup_range, fun n sys sys' h => ?_⟩
  rcases stepInstance_cases h with rfl | ⟨s, t, hs, ht, rfl⟩
  · exact ⟨rfl, rfl⟩
  · obtain ⟨hparams, hcopy⟩ := (step_cases ht).params_copyId
    exact ⟨map_set_of_eq _ hs hcopy, map_set_of_eq _ hs hparams⟩

/-! ### The symbol tables -/

/-- Settles O41: the codes of the two alphabets one by one, and the laws of the tables. -/
theorem alphabetTablesAreInverse : Obligations.AlphabetTablesAreInverse := by
  refine ⟨by decide, by decide, fun c x => ⟨fun g hg => ⟨encLut_ne_pad c hg, ?_, fun h => (decLut_eq_some h).2⟩, ?_⟩⟩
  · rintro rfl
    exact decLut_encLut c hg
  · exact fun g h => (decLut_eq_some h).1

end Sys2Proof.Machine
end

section
/-! SUPPORT. The statements about what host operations leave alone, on an idle and on a running block, and about the steps of
two copies. -/

namespace Sys2Proof.Machine

/-! ### Host operations that only answer -/

section
variable {s : State} {op : HostOp} {rest : List Event}

/-- The operation only takes its place in the events and answers: it changes nothing of the block (R52, R138). -/
def State.OnlyAnswers (s : State) (op : HostOp) (rest : List Event) : Prop :=
  ∃ r d, s.hostOp op rest = .next ({ s with pending := rest }.setRead r d)

theorem State.OnlyAnswers.step (h : s.OnlyAnswers op rest) (hp : s.pending = .host op :: rest) :
    ∃ t, step s = .next t ∧ { t with rdata := s.rdata, draws := s.draws } = { s with pending := rest } := by
  obtain ⟨r, d, h⟩ := h
  exact ⟨_, (step_of_pending_host hp).trans h, rfl⟩

theorem State.OnlyAnswers.of_setRead {t : State} (h : s.hostOp op rest = .next t)
    (ht : ∃ r d, t = { s with pending := rest }.setRead r d) : s.OnlyAnswers op rest := by
  obtain ⟨r, d, rfl⟩ := ht
  exact ⟨r, d, h⟩

theorem State.onlyAnswers_read (reg : Nat) : s.OnlyAnswers (.read reg) rest := .of_setRead rfl (State.hostRead_eq _ reg)

theorem State.onlyAnswers_readIbuf (i : Nat) : s.OnlyAnswers (.readIbuf i) rest :=
  .of_setRead rfl (State.hostReadIbuf_eq _ i)

theorem State.onlyAnswers_readObuf (i : Nat) : s.OnlyAnswers (.readObuf i) rest :=
  .of_setRead rfl (State.hostReadObuf_eq _ i)

end

/-- Settles O36. -/
theorem hostReadsHaveNoSideEffect : Obligations.HostReadsHaveNoSideEffect := by
  rintro s op rest hp ⟨i, rfl | rfl | rfl⟩
  · exact (State.onlyAnswers_read i).step hp
  · exact (State.onlyAnswers_readIbuf i).step hp
  · exact (State.onlyAnswers_readObuf i).step hp

/-! ### The idle block -/

/-- Of the registers other than `CMD` a write sets at most `ILEN` (R52). -/
theorem State.hostWriteReg_eq (s : State) (reg v : Nat) : ∃ n, s.hostWriteReg reg v = { s with ilen := n } := by
  unfold State.hostWriteReg
  split
  · exact ⟨_, rfl⟩
  · exact ⟨s.ilen, rfl⟩

theorem State.hostWriteIbuf_eq (s : State) (i : Nat) (v : Byte) : ∃ m, s.hostWriteIbuf i v = { s with ibuf := m } := by
  unfold State.hostWriteIbuf
  split
  · exact ⟨_, rfl⟩
  · exact ⟨s.ibuf, rfl⟩

/-- From `s` to `t` at most the input and the model's own host fields changed. -/
def State.InputFrame (s t : State) : Prop :=
  ∃ p m n r d, t = { s with pending := p, ibuf := m, ilen := n, rdata := r, draws := d }

theorem State.InputFrame.of_setRead {s t : State} {p : List Event} (h : ∃ r d, t = { s with pending := p }.setRead r d) :
    s.InputFrame t := by
  obtain ⟨r, d, rfl⟩ := h
  exact ⟨p, s.ibuf, s.ilen, r, d, rfl⟩

/-- On an idle block a poll of `WAIT` answers, and the core does not move (R57). -/
theorem State.pollDone_of_idle {s : State} (h : s.phase = .idle) (rest : List Event) : s.InputFrame (s.pollDone rest) := by
  unfold State.pollDone
  split
  · exact ⟨rest, s.ibuf, s.ilen, _, s.draws, rfl⟩
  · exact ⟨s.pending, s.ibuf, s.ilen, _, s.draws, State.coreStep_of_idle h⟩

/-- On an idle block only a `CMD` write reaches beyond the input (R28, R52, R57). -/
theorem State.hostOp_of_idle {s : State} (h : s.phase = .idle) {op : HostOp} (hop : ∀ v, op ≠ .write regCmd v)
    (rest : List Event) : ∃ t, s.hostOp op rest = .next t ∧ s.InputFrame t := by
  cases op with
  | write reg v =>
    have hreg : reg ≠ regCmd := fun e => hop v (e ▸ rfl)
    obtain ⟨n, hn⟩ := State.hostWriteReg_eq { s with pending := rest } reg v
    exact ⟨_, if_neg hreg, rest, s.ibuf, n, s.rdata, s.draws, hn⟩
  | read reg => exact ⟨_, rfl, .of_setRead (State.hostRead_eq _ reg)⟩
  | writeIbuf i v =>
    obtain ⟨m, hm⟩ := State.hostWriteIbuf_eq { s with pending := rest } i v
    exact ⟨_, rfl, rest, m, s.ilen, s.rdata, s.draws, hm⟩
  | readIbuf i => exact ⟨_, rfl, .of_setRead (State.hostReadIbuf_eq _ i)⟩
  | writeObuf i v => exact ⟨_, rfl, rest, s.ibuf, s.ilen, s.rdata, s.draws, rfl⟩
  | readObuf i => exact ⟨_, rfl, .of_setRead (State.hostReadObuf_eq _ i)⟩
  | waitDone => exact ⟨_, rfl, State.pollDone_of_idle h rest⟩

/-- Settles O38. -/
theorem idleBlockKeepsItsResults : Obligations.IdleBlockKeepsItsResults := by
  intro s rest _ hidle
  refine ⟨fun hp => ?_, fun hp => ?_, fun op hp hop => ?_⟩
  · rw [step_of_pending_nil hp, State.coreStep_of_idle hidle]
  · rw [step_of_pending_core hp, State.coreStep_of_idle (s := { s with pending := rest }) hidle]
  · obtain ⟨_, h, p, m, n, r, d, rfl⟩ := State.hostOp_of_idle hidle hop rest
    exact ⟨_, (step_of_pending_host hp).trans h, rfl, rfl, rfl, rfl, rfl, hidle⟩

/-! ### The running block -/

section
variable {s : State}

/-- While a command runs, every command word is ignored (R138). -/
theorem exec_of_busy (hb : s.busy = true) (i : Instr) : exec i s = .next s := by
  rcases exec_cases i s with ⟨c, op, -, h⟩ | h
  · rw [h, s.runCommand_busy c op hb]
  · rw [h, State.runReserved_busy hb]

theorem State.hostWriteReg_of_busy (hb : s.busy = true) (reg v : Nat) : s.hostWriteReg reg v = s :=
  if_neg fun h => h.2 hb

theorem State.hostWriteIbuf_of_busy (hb : s.busy = true) (i : Nat) (v : Byte) : s.hostWriteIbuf i v = s :=
  if_neg fun h => h.2 hb

/-- While a command runs, every operation but `WAIT` only answers: the writes are ignored (R138). -/
theorem State.onlyAnswers_of_busy (hb : s.busy = true) {op : HostOp} (hop : op ≠ .waitDone) (rest : List Event) :
    s.OnlyAnswers op rest := by
  have hb' : { s with pending := rest }.busy = true := hb
  cases op with
  | write reg v =>
    refine ⟨s.rdata, s.draws, ?_⟩
    by_cases hreg : reg = regCmd
    · exact (if_pos hreg).trans (exec_of_busy hb' _)
    · exact (if_neg hreg).trans (congrArg _ (State.hostWriteReg_of_busy hb' reg v))
  | read reg => exact State.onlyAnswers_read reg
  | writeIbuf i v => exact ⟨s.rdata, s.draws, congrArg _ (State.hostWriteIbuf_of_busy hb' i v)⟩
  | readIbuf i => exact State.onlyAnswers_readIbuf i
  | writeObuf i v => exact ⟨s.rdata, s.draws, rfl⟩
  | readObuf i => exact State.onlyAnswers_readObuf i
  | waitDone => exact absurd rfl hop

theorem State.Inv.not_done_of_busy (h : s.Inv) (hb : s.busy = true) : s.done = false := by
  rw [State.done, h.busy_iff.1.mp hb]
  decide

/-- A poll of `WAIT` that finds no `DONE` is the core's own step, beside the answer (R145, log 15). -/
theorem State.pollDone_of_not_done (h : s.done = false) (rest : List Event) :
    s.pollDone rest = { s.coreStep with pending := s.pending, rdata := s.status.toNat } := by
  rw [State.pollDone, if_neg (by simp [h])]
  exact s.coreStep_setHost s.pending s.status.toNat

end

/-- Settles O39: a running command has `DONE = 0`, so a `WAIT` lets the core step. -/
theorem hostCannotDisturbARunningCommand : Obligations.HostCannotDisturbARunningCommand := by
  intro s op rest hinv hb hp
  refine ⟨fun hop => (State.onlyAnswers_of_busy hb hop rest).step hp, ?_⟩
  rintro rfl
  have hpoll := State.pollDone_of_not_done (hinv.not_done_of_busy hb) rest
  have hcore := s.coreStep_setHost [] s.rdata
  exact ⟨_, _, (step_of_pending_host hp).trans (congrArg Host.Outcome.next hpoll),
    (step_of_pending_nil rfl).trans (congrArg Host.Outcome.next hcore), rfl⟩

/-! ### Two copies -/

/-- The state after one step; the other two outcomes never come (`step_eq`). -/
def State.afterStep (s : State) : State :=
  match step s with
  | .next t => t
  | .fault _ | .refused _ => s

/-- No instruction faults or is refused (R118, log 12). -/
theorem exec_next (i : Instr) (s : State) : ∃ t, exec i s = .next t := by
  rcases exec_cases i s with ⟨c, op, -, h⟩ | h
  · exact ⟨_, h⟩
  · exact ⟨_, h⟩

theorem State.hostOp_next (s : State) (op : HostOp) (rest : List Event) : ∃ t, s.hostOp op rest = .next t := by
  cases op with
  | write reg v =>
    by_cases hreg : reg = regCmd
    · obtain ⟨t, h⟩ := exec_next (decodeWord (commandWord v)) { s with pending := rest }
      exact ⟨t, (if_pos hreg).trans h⟩
    · exact ⟨_, if_neg hreg⟩
  | _ => exact ⟨_, rfl⟩

theorem step_next (s : State) : ∃ t, step s = .next t := by
  match hp : s.pending with
  | [] => exact ⟨_, step_of_pending_nil hp⟩
  | .core :: rest => exact ⟨_, step_of_pending_core hp⟩
  | .reset :: rest => exact ⟨_, step_of_pending_reset hp⟩
  | .host op :: rest =>
    obtain ⟨t, h⟩ := s.hostOp_next op rest
    exact ⟨t, (step_of_pending_host hp).trans h⟩

theorem step_eq (s : State) : step s = .next s.afterStep := by
  obtain ⟨t, h⟩ := step_next s
  rw [State.afterStep, h]

/-- A step of one copy is the step of its own state in its place of the list (R60). -/
theorem stepInstance_eq (n : Nat) (sys : List State) :
    stepInstance n sys = .next (sys.modify n State.afterStep) := by
  rw [List.modify_eq_set_getElem?, stepInstance]
  cases hn : sys[n]? with
  | none => rfl
  | some s => simp [step_eq]

/-- Settles O40: steps of two copies are changes of two places of the list, which commute. -/
theorem instancesAreIndependent : Obligations.InstancesAreIndependent := by
  intro n m sys hnm
  refine ⟨_, _, _, stepInstance_eq n sys, stepInstance_eq m sys, stepInstance_eq m _, ?_, List.length_modify _ _ _,
    fun j hj => List.getElem?_modify_ne _ _ hj.symm⟩
  rw [stepInstance_eq, List.modify_modify_ne _ _ _ hnm]

end Sys2Proof.Machine
end

section
/-! SUPPORT. The statements about command words: the decoder and the encoder undo each other. -/

namespace Sys2Proof

/-- In the rows with one fixed bit below bit 7, well-formedness says that the bits above it are 0: each of them is the fixed
bit of an earlier row (R64, log 8). -/
theorem eq_zero_of_wf_row {m n : Nat} {hi : BitVec m} {lo : BitVec n} (h : (hi == 0 && opNotReserved lo) = true) :
    hi = 0 := by
  rw [Bool.and_eq_true, beq_iff_eq] at h
  exact h.1

/-- No earlier row of the table matches the word of a well-formed instruction, and its own row reads its open bits back
(R64, log 8). Row by row, for each value of the bits that are still open. -/
theorem decodeWord_encodeWord {i : Instr} (h : i.wf = true) : decodeWord (encodeWord i) = i := by
  cases i with
  | enc32 | dec32 | val32 | enc64u | dec64u | val64u => decide
  | reservedOp11 hi =>
    revert hi
    decide
  | reservedBit7 lo =>
    revert lo
    decide
  | reservedBit6 hi lo =>
    obtain rfl := eq_zero_of_wf_row h
    revert lo
    decide
  | reservedBit5 hi lo =>
    obtain rfl := eq_zero_of_wf_row h
    revert lo
    decide
  | reservedBit4 hi lo =>
    obtain rfl := eq_zero_of_wf_row h
    revert lo
    decide
  | reservedBit3 hi lo =>
    obtain rfl := eq_zero_of_wf_row h
    revert lo
    decide

/-- The row a word is read as fixes or keeps each of its bits: checked for the 256 words. -/
theorem encodeWord_decodeWord (w : Byte) : encodeWord (decodeWord w) = w := by
  revert w
  decide

/-- A word is read as the first row that matches it: checked for the 256 words. -/
theorem decodeWord_wf (w : Byte) : (decodeWord w).wf = true := by
  revert w
  decide

/-- A word selects a well-formed instruction exactly when it is that instruction's word. -/
theorem decodeWord_eq_iff {i : Instr} (h : i.wf = true) (w : Byte) : decodeWord w = i ↔ w = encodeWord i := by
  constructor
  · rintro rfl
    exact (encodeWord_decodeWord w).symm
  · rintro rfl
    exact decodeWord_encodeWord h

/-- Settles O1. -/
theorem decodeOfEncodeIsTheInstruction : Obligations.DecodeOfEncodeIsTheInstruction := by
  intro i rest h
  have hword : decode (encode i ++ rest) = .ok (decodeWord (encodeWord i), rest) := rfl
  rw [hword, decodeWord_encodeWord h]

/-- Settles O2. -/
theorem encodeOfDecodeIsTheWord : Obligations.EncodeOfDecodeIsTheWord := fun w =>
  ⟨encodeWord_decodeWord w, decodeWord_wf w⟩

/-- Settles O3: the six commands are well-formed, and the six words are theirs. -/
theorem sixWordsSelectTheSixCommands : Obligations.SixWordsSelectTheSixCommands := by
  intro w
  have hcommand (c : Codec) (op : Op) : decodeWord w = commandInstr c op ↔ w = encodeWord (commandInstr c op) :=
    decodeWord_eq_iff (by cases c <;> cases op <;> rfl) w
  exact ⟨hcommand .base32 .encode, hcommand .base32 .decode, hcommand .base32 .validate, hcommand .base64url .encode,
    hcommand .base64url .decode, hcommand .base64url .validate⟩

end Sys2Proof
end

section
/-! SUPPORT. A running command ends: how many steps of the core are left, that each step makes them fewer, and the statement
about a host that waits. -/

namespace Sys2Proof.Machine

/-! ### How far a running command is from its end -/

/-- A bound on the core steps a command still takes (R103): one for each character or byte it has not read, and those of the
phases after the reading. An encode appends at most 7 pads. -/
def State.stepsLeft (s : State) : Nat :=
  match s.phase with
  | .idle => 0
  | .eRun => s.ilen - s.ipos + 10
  | .eFlush => 9
  | .ePad => padGen (blockSize s.codec) s.olen + 1
  | .dRun => s.ilen - s.ipos + 2
  | .dFinal => 1

section
variable {s : State}

theorem State.stepsLeft_idle (hp : s.phase = .idle) : s.stepsLeft = 0 := by simp only [State.stepsLeft, hp]

theorem State.stepsLeft_eRun (hp : s.phase = .eRun) : s.stepsLeft = s.ilen - s.ipos + 10 := by
  simp only [State.stepsLeft, hp]

theorem State.stepsLeft_eFlush (hp : s.phase = .eFlush) : s.stepsLeft = 9 := by simp only [State.stepsLeft, hp]

theorem State.stepsLeft_ePad (hp : s.phase = .ePad) : s.stepsLeft = padGen (blockSize s.codec) s.olen + 1 := by
  simp only [State.stepsLeft, hp]

theorem State.stepsLeft_dRun (hp : s.phase = .dRun) : s.stepsLeft = s.ilen - s.ipos + 2 := by
  simp only [State.stepsLeft, hp]

theorem State.stepsLeft_dFinal (hp : s.phase = .dFinal) : s.stepsLeft = 1 := by simp only [State.stepsLeft, hp]

theorem padGen_lt_eight (c : Codec) (n : Nat) : padGen (blockSize c) n < 8 := by
  cases c <;> simp only [padGen, blockSize] <;> omega

/-- Each pad brings the length nearer to the next multiple of the block size (R76). -/
theorem padGen_succ_lt {c : Codec} {n : Nat} (h : n % blockSize c ≠ 0) :
    padGen (blockSize c) (n + 1) < padGen (blockSize c) n := by
  cases c <;> simp only [padGen, blockSize] at h ⊢ <;> omega

theorem State.stepsLeft_ePad_lt (hp : s.phase = .ePad) : s.stepsLeft < 9 := by
  rw [State.stepsLeft_ePad hp]
  exact Nat.succ_lt_succ (padGen_lt_eight _ _)

theorem State.stepsLeft_le (s : State) : s.stepsLeft ≤ s.ilen + 10 := by
  cases hp : s.phase with
  | idle => rw [State.stepsLeft_idle hp]; omega
  | eRun => rw [State.stepsLeft_eRun hp]; omega
  | eFlush => rw [State.stepsLeft_eFlush hp]; omega
  | ePad => have := State.stepsLeft_ePad_lt hp; omega
  | dRun => rw [State.stepsLeft_dRun hp]; omega
  | dFinal => rw [State.stepsLeft_dFinal hp]; omega

theorem State.stepsLeft_pos (hp : s.phase ≠ .idle) : 0 < s.stepsLeft := by
  unfold State.stepsLeft
  split
  next h => exact absurd h hp
  all_goals omega

/-! ### Each step of the core brings the end nearer -/

/-- A command is running or has ended with `DONE`: the block is not one that nothing was asked of since the reset. -/
def State.RunningOrDone (s : State) : Prop := s.phase ≠ .idle ∨ s.done = true

/-- `t` is nearer to the end of the command than `s`, and at the end `DONE` is set. -/
structure Progress (s t : State) : Prop where
  runningOrDone : t.RunningOrDone
  stepsLeft_lt : t.stepsLeft < s.stepsLeft

/-- What a check that fails, and the last step of a command, leave: an idle block with `DONE` (R100, R101). -/
def State.Ended (s : State) : Prop := s.phase = .idle ∧ s.done = true

theorem State.complete_ended (s : State) : s.complete.Ended := ⟨rfl, by simp [State.done, getFlag_setFlag]⟩

theorem State.failCheck_ended (s : State) (cause : Cause) (pos : Nat) : (s.failCheck cause pos).Ended := by
  unfold State.failCheck
  split
  · exact State.complete_ended _
  · exact s.complete_ended

theorem State.stepDFinal_ended (s : State) : s.stepDFinal.Ended := by
  unfold State.stepDFinal
  split
  · exact s.failCheck_ended _ _
  · split
    · exact s.failCheck_ended _ _
    · split
      · exact State.complete_ended _
      · exact s.complete_ended

theorem Progress.of_ended {t : State} (hp : s.phase ≠ .idle) (h : t.Ended) : Progress s t :=
  ⟨.inr h.2, State.stepsLeft_idle h.1 ▸ State.stepsLeft_pos hp⟩

/-- A step that reads one more byte (R95). -/
theorem Progress.of_eRun {t : State} (hp : s.phase = .eRun) (hlt : s.ipos < s.ilen) (ht : t.phase = .eRun)
    (hl : t.ilen = s.ilen) (hi : t.ipos = s.ipos + 1) : Progress s t := by
  refine ⟨.inl (ne_of_eq_of_ne ht nofun), ?_⟩
  rw [State.stepsLeft_eRun hp, State.stepsLeft_eRun ht, hl, hi]
  omega

/-- A step that reads one more character (R98). -/
theorem Progress.of_dRun {t : State} (hp : s.phase = .dRun) (hlt : s.ipos < s.ilen) (ht : t.phase = .dRun)
    (hl : t.ilen = s.ilen) (hi : t.ipos = s.ipos + 1) : Progress s t := by
  refine ⟨.inl (ne_of_eq_of_ne ht nofun), ?_⟩
  rw [State.stepsLeft_dRun hp, State.stepsLeft_dRun ht, hl, hi]
  omega

theorem Progress.stepERun (hp : s.phase = .eRun) : Progress s s.stepERun := by
  by_cases hlt : s.ipos < s.ilen
  · obtain ⟨obuf, olen, nbits, acc, e⟩ := State.drain_eq 3 s.loadByte
    rw [State.stepERun_of_lt hlt, e]
    exact .of_eRun hp hlt hp rfl rfl
  · rw [State.stepERun_of_end hlt]
    refine ⟨.inl nofun, ?_⟩
    rw [State.stepsLeft_eFlush rfl, State.stepsLeft_eRun hp]
    omega

theorem Progress.stepEFlush (hp : s.phase = .eFlush) : Progress s s.stepEFlush := by
  have hphase : s.stepEFlush.phase = .ePad := by
    unfold State.stepEFlush
    simp only
    split <;> rfl
  exact ⟨.inl (ne_of_eq_of_ne hphase nofun), State.stepsLeft_eFlush hp ▸ State.stepsLeft_ePad_lt hphase⟩

theorem Progress.stepEPad (hp : s.phase = .ePad) : Progress s s.stepEPad := by
  unfold State.stepEPad
  split
  · rename_i hmod
    have hp' : (s.emit padChar).phase = .ePad := hp
    refine ⟨.inl (ne_of_eq_of_ne hp' nofun), ?_⟩
    rw [State.stepsLeft_ePad hp, State.stepsLeft_ePad hp']
    exact Nat.succ_lt_succ (padGen_succ_lt hmod)
  · exact .of_ended (ne_of_eq_of_ne hp nofun) s.complete_ended

theorem Progress.takeSymbol (hp : s.phase = .dRun) (hlt : s.ipos < s.ilen) (v : Nat) : Progress s (s.takeSymbol v) := by
  unfold State.takeSymbol
  simp only
  split
  · split
    · exact .of_dRun hp hlt hp rfl rfl
    · exact .of_dRun hp hlt hp rfl rfl
  · exact .of_dRun hp hlt hp rfl rfl

theorem Progress.stepDRun (hp : s.phase = .dRun) : Progress s s.stepDRun := by
  have hfail (cause : Cause) : Progress s (s.failCheck cause s.ipos) :=
    .of_ended (ne_of_eq_of_ne hp nofun) (s.failCheck_ended _ _)
  unfold State.stepDRun
  simp only
  split
  · rename_i hlt
    split
    · exact .of_dRun hp hlt hp rfl rfl
    · split
      · exact hfail _
      · split
        · exact hfail _
        · exact .takeSymbol hp hlt _
  · refine ⟨.inl nofun, ?_⟩
    rw [State.stepsLeft_dFinal rfl, State.stepsLeft_dRun hp]
    omega

/-- Every step of the core brings a running command nearer to its end, at which `DONE` is set (R101, R103). -/
theorem Progress.coreStep (hp : s.phase ≠ .idle) : Progress s s.coreStep := by
  unfold State.coreStep
  split
  next h => exact absurd h hp
  next h => exact .stepERun h
  next h => exact .stepEFlush h
  next h => exact .stepEPad h
  next h => exact .stepDRun h
  next => exact .of_ended hp s.stepDFinal_ended

end

/-! ### The waiting host -/

/-- A run of one more step. -/
theorem core_run_succ {s t : State} (h : step s = .next t) (n : Nat) :
    Sys2Proof.core.run (n + 1) s = Sys2Proof.core.run n t := by
  have hstep : Sys2Proof.core.step s = .next t := h
  simp only [Host.Core.run, hstep]

/-- After `n` steps the wait is taken and has read `DONE = 1` (R72). -/
def State.WaitEnds (s : State) (rest : List Event) (n : Nat) : Prop :=
  ∃ t : State, Sys2Proof.core.run n s = .next t ∧ t.pending = rest ∧ t.done = true ∧ t.rdata = t.status.toNat

section
variable {s : State} {rest : List Event}

/-- The poll that reads `DONE = 1` ends the wait. -/
theorem State.waitEnds_of_done (hp : s.pending = .host .waitDone :: rest) (hd : s.done = true) : s.WaitEnds rest 1 := by
  have hstep : step s = .next { s.answer s.status.toNat with pending := rest } :=
    (step_of_pending_host hp).trans (congrArg Host.Outcome.next (if_pos hd))
  exact ⟨_, core_run_succ hstep 0, rfl, hd, rfl⟩

/-- A poll that reads `DONE = 0` leaves the wait in its place and lets the core move (R145, log 15). -/
theorem State.step_wait (hp : s.pending = .host .waitDone :: rest) (hd : s.done = false) (hphase : s.phase ≠ .idle) :
    ∃ t, step s = .next t ∧ t.pending = .host .waitDone :: rest ∧ Progress s t := by
  obtain ⟨hrun, hlt⟩ := Progress.coreStep hphase
  have hpoll := State.pollDone_of_not_done hd rest
  exact ⟨_, (step_of_pending_host hp).trans (congrArg Host.Outcome.next hpoll), hp, hrun, hlt⟩

theorem State.exists_waitEnds (hp : s.pending = .host .waitDone :: rest) (hrun : s.RunningOrDone) :
    ∃ n ≤ s.stepsLeft + 1, s.WaitEnds rest n := by
  induction hk : s.stepsLeft using Nat.strong_induction_on generalizing s with
  | _ k ih =>
    subst hk
    cases hd : s.done with
    | true => exact ⟨1, Nat.le_add_left _ _, State.waitEnds_of_done hp hd⟩
    | false =>
      obtain ⟨t, hstep, hpt, hrt, hlt⟩ := State.step_wait hp hd (hrun.resolve_right (by simp [hd]))
      obtain ⟨n, hn, u, hu, h⟩ := ih _ hlt hpt hrt rfl
      exact ⟨n + 1, by omega, u, (core_run_succ hstep n).trans hu, h⟩

end

/-- Settles O31. -/
theorem waitEndsWithDone : Obligations.WaitEndsWithDone := by
  intro s rest hinv hb hp
  obtain ⟨n, hn, h⟩ := State.exists_waitEnds hp (.inl (hinv.busy_iff.2.mp hb))
  exact ⟨n, hn.trans (Nat.succ_le_succ s.stepsLeft_le), h⟩

end Sys2Proof.Machine
end

section
/-! SUPPORT. What `CHECK` accepts is the shape of a valid encoding. -/

namespace Sys2Proof.Machine

/-- The scan accepts symbols followed by pads, and nothing else (R81, checks 2 and 3). -/
theorem scan_eq_pads_iff {c : Codec} {p : Nat} {str : List Byte} :
    scan c 0 0 str = .pads p ↔
      ∃ syms, str = syms ++ List.replicate p padChar ∧ ∀ x ∈ syms, x ≠ padChar ∧ (decLut c x).isSome := by
  constructor
  · intro h
    obtain ⟨syms, e, -, -, hsyms⟩ := scan_eq_pads h
    exact ⟨syms, e, hsyms⟩
  · rintro ⟨syms, rfl, hsyms⟩
    rw [scan_symbols syms _ 0 hsyms, scan_pads, Nat.zero_add]

/-- A symbol is not the pad character (R20). -/
theorem ne_pad_of_isSome {c : Codec} {x : Byte} (h : (decLut c x).isSome) : x ≠ padChar := by
  rintro rfl
  simp at h

/-- Symbols followed by pads, said of the indices. -/
theorem symbols_then_pads_iff {c : Codec} {d p : Nat} {str : List Byte} (hl : str.length = d + p) :
    (∃ syms, str = syms ++ List.replicate p padChar ∧ ∀ x ∈ syms, x ≠ padChar ∧ (decLut c x).isSome) ↔
      (∀ i < d, symbolAt c str i) ∧ ∀ i, d ≤ i → i < d + p → padAt str i := by
  constructor
  · rintro ⟨syms, rfl, hsyms⟩
    obtain rfl : syms.length = d := by simpa using hl
    constructor
    · intro i hi
      exact ⟨syms[i], by simp [List.getElem?_append_left hi], (hsyms _ (List.getElem_mem hi)).2⟩
    · intro i hd hi
      rw [padAt, List.getElem?_append_right hd, List.getElem?_replicate_of_lt (by omega)]
  · rintro ⟨hsym, hpad⟩
    refine ⟨str.take d, ?_, ?_⟩
    · have hdrop : str.drop d = List.replicate p padChar := by
        apply List.ext_getElem?
        intro i
        rw [List.getElem?_drop]
        rcases Nat.lt_or_ge i p with hi | hi
        · rw [List.getElem?_replicate_of_lt hi]
          exact hpad _ (by omega) (by omega)
        · rw [List.getElem?_eq_none (by omega), List.getElem?_eq_none (by simpa using hi)]
      rw [← hdrop, List.take_append_drop]
    · intro x hx
      obtain ⟨i, hi, hxi⟩ := List.getElem_of_mem hx
      rw [List.length_take] at hi
      obtain ⟨y, hy, hsome⟩ := hsym i (by omega)
      have e : str[i]? = some x := by
        rw [← hxi, List.getElem_take, List.getElem?_eq_getElem]
      obtain rfl : x = y := Option.some.inj (e.symm.trans hy)
      exact ⟨ne_pad_of_isSome hsome, hsome⟩

/-- Trailing bits come only with a symbol, and no bits are all 0 (R81). -/
theorem trailing_zero_iff (c : Codec) (d v : Nat) :
    (0 < trailingCount c d → v % 2 ^ trailingCount c d = 0) ↔ (0 < d → v % 2 ^ trailingCount c d = 0) := by
  rcases Nat.eq_zero_or_pos (trailingCount c d) with ht | ht
  · simp [ht, Nat.mod_one]
  · have hd : 0 < d := by
      rcases Nat.eq_zero_or_pos d with rfl | hd
      · simp [trailingCount] at ht
      · exact hd
    simp [ht, hd]

/-- Settles O47: each of the five checks is a clause of the shape. -/
theorem checkAcceptsExactlyTheValidShapes : Obligations.CheckAcceptsExactlyTheValidShapes := by
  intro c str
  rw [isValid_eq_true]
  refine exists_congr fun d => exists_congr fun p => ?_
  rw [checkString_eq_ok, scan_eq_pads_iff, trailing_zero_iff]
  constructor
  · rintro ⟨hblock, hscan, hp, rfl, ht⟩
    have hl : str.length = str.length - p + p := by
      obtain ⟨syms, rfl, -⟩ := hscan
      simp
    obtain ⟨hsym, hpad⟩ := (symbols_then_pads_iff hl).mp hscan
    exact ⟨hl, hblock, hp, hsym, hpad, ht⟩
  · rintro ⟨hl, hblock, hp, hsym, hpad, ht⟩
    exact ⟨hblock, (symbols_then_pads_iff hl).mpr ⟨hsym, hpad⟩, hp, by omega, ht⟩

end Sys2Proof.Machine
end

section
/-! SUPPORT. The bit layout of a block: a block's groups and its bytes are two cuts of one bitstream. -/

namespace Sys2Proof.Machine

/-! ### A short block is the beginning of the block filled with zero bytes -/

theorem take_chunks {w m n : Nat} (h : m ≤ n) (s : List Bool) : (chunks w n s).take m = chunks w m s := by
  rw [chunks, ← List.map_take, List.take_range, Nat.min_eq_left h, chunks]

/-- The first chunks do not depend on what follows them. -/
theorem chunks_append {w n : Nat} {s : List Bool} (h : n * w ≤ s.length) (t : List Bool) :
    chunks w n (s ++ t) = chunks w n s := by
  induction n generalizing s with
  | zero => rfl
  | succ n ih =>
    rw [Nat.succ_mul] at h
    rw [chunks_succ, chunks_succ, List.take_append_of_le_length (by omega), List.drop_append_of_le_length (by omega),
      ih (by rw [List.length_drop]; omega)]

theorem byteStream_replicate_zero (n : Nat) : byteStream (List.replicate n 0) = List.replicate (8 * n) false := by
  induction n with
  | zero => rfl
  | succ n ih =>
    rw [List.replicate_succ, ← List.singleton_append, byteStream_append, ih, Nat.mul_succ, Nat.add_comm,
      List.replicate_add]
    rfl

/-- The groups of a byte sequence hold all its bits (R74). -/
theorem le_groupCount_mul {k : Nat} (hk : 0 < k) (n : Nat) : 8 * n ≤ groupCount k n * k := by
  have h1 := Nat.div_add_mod (8 * n + k - 1) k
  have h2 := Nat.mod_lt (8 * n + k - 1) hk
  rw [groupCount, Nat.mul_comm (_ / k) k]
  omega

theorem groupCount_mono {k m n : Nat} (h : m ≤ n) : groupCount k m ≤ groupCount k n :=
  Nat.div_le_div_right (by omega)

/-- The bytes that are absent are read as 0 (R68, R69): the groups of a byte sequence are the first groups of the sequence
with zero bytes after it. -/
theorem pack_eq_take {k : Nat} (hk : 0 < k) (b : List Byte) (n : Nat) :
    pack k b = (pack k (b ++ List.replicate n 0)).take (groupCount k b.length) := by
  have hfill := le_groupCount_mul hk b.length
  have hfill' := le_groupCount_mul hk (b.length + n)
  have hcount : groupCount k b.length ≤ groupCount k (b.length + n) := groupCount_mono (Nat.le_add_right _ _)
  have hmul := Nat.mul_le_mul_right k hcount
  have hzeros : 8 * n + (groupCount k (b.length + n) * k - 8 * (b.length + n)) =
      (groupCount k b.length * k - 8 * b.length) +
        (groupCount k (b.length + n) * k - groupCount k b.length * k) := by omega
  simp only [pack, List.length_append, List.length_replicate]
  rw [take_chunks hcount, byteStream_append, byteStream_replicate_zero, List.append_assoc, ← List.replicate_add, hzeros,
    List.replicate_add, ← List.append_assoc, chunks_append (s := byteStream b ++ _)]
  simp only [List.length_append, byteStream_length, List.length_replicate]
  omega

/-! ### Groups and bytes of one bitstream -/

/-- Groups unpack to the bytes that spell the same bitstream (R82). -/
theorem unpack_of_stream {k : Nat} {gs : List Nat} {b : List Byte} (h : groupStream k gs = byteStream b) :
    (unpack k gs).1 = b := by
  have hlen := congrArg List.length h
  rw [groupStream_length, byteStream_length] at hlen
  have hbytes := bytes_of_byteStream b []
  rw [List.append_nil] at hbytes
  rw [unpack, hlen, Nat.mul_div_cancel_left _ (by decide), h, hbytes]

/-- Bytes pack to the groups that spell the same bitstream (R74). -/
theorem pack_of_stream {k : Nat} (hk : 0 < k) {gs : List Nat} {b : List Byte} (hgs : ∀ g ∈ gs, g < 2 ^ k)
    (h : groupStream k gs = byteStream b) : pack k b = gs := by
  have hlen := congrArg List.length h
  rw [groupStream_length, byteStream_length] at hlen
  have hcount : groupCount k b.length = gs.length := by
    rw [groupCount, ← hlen, Nat.add_sub_assoc hk, Nat.mul_add_div hk, Nat.div_eq_of_lt (by omega), Nat.add_zero]
  rw [pack, hcount, ← h]
  exact chunks_groupStream gs _ hgs

theorem toNat_lt_of_mem {k : Nat} {gs : List (BitVec k)} : ∀ g ∈ gs.map BitVec.toNat, g < 2 ^ k := by
  intro g hg
  obtain ⟨x, -, rfl⟩ := List.mem_map.mp hg
  exact x.isLt

/-- What a block encodes to (R68, R69): the symbols of the groups that its bytes reach into, then pads. The groups are those
of the block filled with zero bytes. -/
theorem encodeBytes_of_stream {c : Codec} (b : List Byte) (m n : Nat) {gs : List (BitVec (groupBits c))}
    (hm : b.length = m)
    (h : groupStream (groupBits c) (gs.map BitVec.toNat) = byteStream (b ++ List.replicate n 0)) :
    encodeBytes c b =
      (gs.map fun g => encLut c g.toNat).take (groupCount (groupBits c) m) ++
        List.replicate (padGen (blockSize c) (groupCount (groupBits c) m)) padChar := by
  have hk := groupBits_pos c
  subst hm
  rw [encodeBytes, pack_length, pack_eq_take hk b n, pack_of_stream hk toNat_lt_of_mem h, List.map_take, List.map_map]
  rfl

/-- The values read from a string of symbols are the groups behind them (R80). -/
theorem symbolValue_map_encLut {c : Codec} {gs : List Nat} (hgs : ∀ g ∈ gs, g < 2 ^ groupBits c) :
    (List.range gs.length).map (symbolValue c (gs.map (encLut c))) = gs := by
  apply List.ext_getElem
  · simp
  · intro i h _
    rw [List.length_map, List.length_range] at h
    simp [symbolValue, unmapSymbol, h, decLut_encLut c (hgs _ (List.getElem_mem h))]

/-- A string of symbols alone, in whole blocks, decodes to the bytes of its groups: nothing is trailing (R81, R82). -/
theorem decodeString_map_encLut {c : Codec} {gs : List Nat} (hgs : ∀ g ∈ gs, g < 2 ^ groupBits c)
    (hlen : gs.length % blockSize c = 0) :
    decodeString c (gs.map (encLut c)) = .bytes (unpack (groupBits c) gs).1 := by
  have hscan : scan c 0 0 (gs.map (encLut c)) = .pads 0 := by
    have h := scan_symbols (c := c) (gs.map (encLut c)) [] 0 fun x hx => by
      obtain ⟨g, hg, rfl⟩ := List.mem_map.mp hx
      exact ⟨encLut_ne_pad c (hgs g hg), by simp [decLut_encLut c (hgs g hg)]⟩
    rwa [List.append_nil] at h
  have hwhole : trailingCount c gs.length = 0 := by
    cases c <;> simp only [trailingCount, groupBits, blockSize] at hlen ⊢ <;> omega
  have hcheck : checkString c (gs.map (encLut c)) = .ok gs.length 0 := by
    rw [checkString_eq_ok, List.length_map, hwhole]
    exact ⟨hlen, hscan, by cases c <;> decide, rfl, nofun⟩
  rw [decodeString_eq_bytes]
  exact ⟨_, _, hcheck, by rw [symbolValue_map_encLut hgs]⟩

/-- What a full block decodes to (R68, R69): the bytes of the same bitstream. -/
theorem decodeString_of_stream {c : Codec} {gs : List (BitVec (groupBits c))} {b : List Byte}
    (hlen : gs.length = blockSize c)
    (h : groupStream (groupBits c) (gs.map BitVec.toNat) = byteStream b) :
    decodeString c (gs.map fun g => encLut c g.toNat) = .bytes b := by
  have hd := decodeString_map_encLut (c := c) (gs := gs.map BitVec.toNat) toNat_lt_of_mem (by simp [hlen])
  rwa [unpack_of_stream h, List.map_map] at hd

/-! ### The layouts, bit by bit -/

theorem bitsOf_toNat {w : Nat} (x : BitVec w) : bitsOf w x.toNat = (List.range w).map fun j => x.getLsbD (w - 1 - j) := by
  simp only [bitsOf, BitVec.testBit_toNat]

/-- The groups of a full Base32 block (R68). -/
def groups32 (b0 b1 b2 b3 b4 : Byte) : List (BitVec 5) :=
  [b0.extractLsb' 3 5, b0.extractLsb' 0 3 ++ b1.extractLsb' 6 2, b1.extractLsb' 1 5,
    b1.extractLsb' 0 1 ++ b2.extractLsb' 4 4, b2.extractLsb' 0 4 ++ b3.extractLsb' 7 1, b3.extractLsb' 2 5,
    b3.extractLsb' 0 2 ++ b4.extractLsb' 5 3, b4.extractLsb' 0 5]

/-- The bytes of a full Base32 block (R68). -/
def bytes32 (g0 g1 g2 g3 g4 g5 g6 g7 : BitVec 5) : List Byte :=
  [g0 ++ g1.extractLsb' 2 3, g1.extractLsb' 0 2 ++ g2 ++ g3.extractLsb' 4 1,
    g3.extractLsb' 0 4 ++ g4.extractLsb' 1 4, g4.extractLsb' 0 1 ++ g5 ++ g6.extractLsb' 3 2,
    g6.extractLsb' 0 3 ++ g7]

theorem groupStream_groups32 (b0 b1 b2 b3 b4 : Byte) :
    groupStream 5 ((groups32 b0 b1 b2 b3 b4).map BitVec.toNat) = byteStream [b0, b1, b2, b3, b4] := by
  simp only [groups32, groupStream, byteStream, List.map_cons, List.map_nil, List.flatMap_cons, List.flatMap_nil,
    bitsOf_toNat, BitVec.getLsbD_append, BitVec.getLsbD_extractLsb']
  rfl

theorem groupStream_eq_bytes32 (g0 g1 g2 g3 g4 g5 g6 g7 : BitVec 5) :
    groupStream 5 ([g0, g1, g2, g3, g4, g5, g6, g7].map BitVec.toNat) =
      byteStream (bytes32 g0 g1 g2 g3 g4 g5 g6 g7) := by
  simp only [bytes32, groupStream, byteStream, List.map_cons, List.map_nil, List.flatMap_cons, List.flatMap_nil,
    bitsOf_toNat, BitVec.getLsbD_append, BitVec.getLsbD_extractLsb']
  rfl

/-- The groups of a full Base64Url block (R69). -/
def groups64 (b0 b1 b2 : Byte) : List (BitVec 6) :=
  [b0.extractLsb' 2 6, b0.extractLsb' 0 2 ++ b1.extractLsb' 4 4, b1.extractLsb' 0 4 ++ b2.extractLsb' 6 2,
    b2.extractLsb' 0 6]

/-- The bytes of a full Base64Url block (R69). -/
def bytes64 (g0 g1 g2 g3 : BitVec 6) : List Byte :=
  [g0 ++ g1.extractLsb' 4 2, g1.extractLsb' 0 4 ++ g2.extractLsb' 2 4, g2.extractLsb' 0 2 ++ g3]

theorem groupStream_groups64 (b0 b1 b2 : Byte) :
    groupStream 6 ((groups64 b0 b1 b2).map BitVec.toNat) = byteStream [b0, b1, b2] := by
  simp only [groups64, groupStream, byteStream, List.map_cons, List.map_nil, List.flatMap_cons, List.flatMap_nil,
    bitsOf_toNat, BitVec.getLsbD_append, BitVec.getLsbD_extractLsb']
  rfl

theorem groupStream_eq_bytes64 (g0 g1 g2 g3 : BitVec 6) :
    groupStream 6 ([g0, g1, g2, g3].map BitVec.toNat) = byteStream (bytes64 g0 g1 g2 g3) := by
  simp only [bytes64, groupStream, byteStream, List.map_cons, List.map_nil, List.flatMap_cons, List.flatMap_nil,
    bitsOf_toNat, BitVec.getLsbD_append, BitVec.getLsbD_extractLsb']
  rfl

/-- Settles O49: a short block is the beginning of the full one whose absent bytes are 0. -/
theorem base32BlockLayout : Obligations.Base32BlockLayout := by
  constructor
  · intro b0 b1 b2 b3 b4
    refine ⟨?_, ?_, ?_, ?_, ?_⟩
    · exact encodeBytes_of_stream (c := .base32) [b0, b1, b2, b3, b4] 5 0 rfl (groupStream_groups32 b0 b1 b2 b3 b4)
    · exact encodeBytes_of_stream (c := .base32) [b0, b1, b2, b3] 4 1 rfl (groupStream_groups32 b0 b1 b2 b3 0)
    · exact encodeBytes_of_stream (c := .base32) [b0, b1, b2] 3 2 rfl (groupStream_groups32 b0 b1 b2 0 0)
    · exact encodeBytes_of_stream (c := .base32) [b0, b1] 2 3 rfl (groupStream_groups32 b0 b1 0 0 0)
    · exact encodeBytes_of_stream (c := .base32) [b0] 1 4 rfl (groupStream_groups32 b0 0 0 0 0)
  · intro g0 g1 g2 g3 g4 g5 g6 g7
    exact decodeString_of_stream (c := .base32) rfl (groupStream_eq_bytes32 g0 g1 g2 g3 g4 g5 g6 g7)

/-- Settles O50: a short block is the beginning of the full one whose absent bytes are 0. -/
theorem base64UrlBlockLayout : Obligations.Base64UrlBlockLayout := by
  constructor
  · intro b0 b1 b2
    refine ⟨?_, ?_, ?_⟩
    · exact encodeBytes_of_stream (c := .base64url) [b0, b1, b2] 3 0 rfl (groupStream_groups64 b0 b1 b2)
    · exact encodeBytes_of_stream (c := .base64url) [b0, b1] 2 1 rfl (groupStream_groups64 b0 b1 0)
    · exact encodeBytes_of_stream (c := .base64url) [b0] 1 2 rfl (groupStream_groups64 b0 0 0)
  · intro g0 g1 g2 g3
    exact decodeString_of_stream (c := .base64url) rfl (groupStream_eq_bytes64 g0 g1 g2 g3)

end Sys2Proof.Machine
end

section
/-! SUPPORT. Groups and the bytes of their bitstream, bit by bit; what `CHECK` makes of symbols and pads. -/

namespace Sys2Proof.Machine

/-! ### Bit strings -/

theorem bitsOf_zero (v : Nat) : bitsOf 0 v = [] := rfl

/-- A bit string has the high bits first (R12). -/
theorem bitsOf_add (m n v : Nat) : bitsOf (m + n) v = bitsOf m (v / 2 ^ n) ++ bitsOf n v := by
  induction m with
  | zero => simp [bitsOf_zero]
  | succ m ih =>
    rw [Nat.succ_add, bitsOf_succ, bitsOf_succ, ih, Nat.testBit_div_two_pow, List.cons_append]

/-- Only the low `w` bits of a number are spelt. -/
theorem bitsOf_mod (w v : Nat) : bitsOf w (v % 2 ^ w) = bitsOf w v := by
  have h := bitsOf_valueOf (bitsOf w v)
  rwa [bitsOf_length, valueOf_bitsOf] at h

/-- Appending the bits of `v` below those of `a`. -/
theorem bitsOf_mul_add {k v : Nat} (n a : Nat) (hv : v < 2 ^ k) :
    bitsOf (n + k) (a * 2 ^ k + v) = bitsOf n a ++ bitsOf k v := by
  have hlow : (a * 2 ^ k + v) % 2 ^ k = v := by rw [Nat.mul_add_mod', Nat.mod_eq_of_lt hv]
  rw [bitsOf_add, Nat.mul_comm, Nat.mul_add_div (Nat.two_pow_pos k), Nat.div_eq_of_lt hv, Nat.add_zero, Nat.mul_comm,
    ← bitsOf_mod k (_ + v), hlow]

theorem bitsOf_zero_value (w : Nat) : bitsOf w 0 = List.replicate w false := by
  have h := bitsOf_valueOf (List.replicate w false)
  rwa [valueOf_replicate_false, List.length_replicate] at h

/-- A bit string spells 0 exactly when all its bits are 0. -/
theorem valueOf_eq_zero_iff {l : List Bool} : valueOf l = 0 ↔ l = List.replicate l.length false := by
  constructor
  · intro h
    have hl := bitsOf_valueOf l
    rw [h, bitsOf_zero_value] at hl
    exact hl.symm
  · intro h
    rw [h, valueOf_replicate_false]

@[simp] theorem groupStream_singleton (k g : Nat) : groupStream k [g] = bitsOf k g := by simp [groupStream]

@[simp] theorem byteStream_singleton (x : Byte) : byteStream [x] = bitsOf 8 x.toNat := by simp [byteStream]

/-! ### Groups and bytes of one bitstream, with zero bits after the bytes -/

/-- Bytes pack to the groups that spell the same bitstream and fewer than `k` zero bits (R74). -/
theorem pack_of_stream_zeros {k z : Nat} {gs : List Nat} {b : List Byte} (hgs : ∀ g ∈ gs, g < 2 ^ k) (hz : z < k)
    (h : groupStream k gs = byteStream b ++ List.replicate z false) : pack k b = gs := by
  have hlen := congrArg List.length h
  simp only [groupStream_length, List.length_append, byteStream_length, List.length_replicate] at hlen
  have hcount : groupCount k b.length = gs.length := by
    rw [groupCount, show 8 * b.length + k - 1 = k * gs.length + (k - 1 - z) by omega, Nat.mul_add_div (by omega),
      Nat.div_eq_of_lt (by omega), Nat.add_zero]
  have hzeros : gs.length * k - 8 * b.length = z := by rw [Nat.mul_comm]; omega
  rw [pack, hcount, hzeros, ← h]
  have := chunks_groupStream gs [] hgs
  rwa [List.append_nil] at this

/-- Bytes and fewer than 8 bits after them are what the groups of the same bitstream unpack to (R82). -/
theorem unpack_eq_of_stream {k : Nat} {gs : List Nat} {b : List Byte} {tail : List Bool} (ht : tail.length < 8)
    (h : groupStream k gs = byteStream b ++ tail) : unpack k gs = (b, tail) := by
  have hlen := congrArg List.length h
  simp only [groupStream_length, List.length_append, byteStream_length] at hlen
  have hn : k * gs.length / 8 = b.length := by omega
  simp only [unpack, hn, h, bytes_of_byteStream, List.drop_left' (byteStream_length b)]

/-- The whole bytes cut from a stream are its first bits (R82). -/
theorem byteStream_chunks {n : Nat} {s : List Bool} (h : 8 * n ≤ s.length) :
    byteStream ((chunks 8 n s).map (BitVec.ofNat 8)) = s.take (8 * n) := by
  have hlen : (s.take (8 * n)).length = n * 8 := by rw [List.length_take]; omega
  have hfirst := chunks_append (w := 8) (n := n) hlen.ge (s.drop (8 * n))
  rw [List.take_append_drop] at hfirst
  have hbytes : ((chunks 8 n s).map (BitVec.ofNat 8)).map BitVec.toNat = chunks 8 n (s.take (8 * n)) := by
    rw [← hfirst, List.map_map]
    exact (List.map_congr_left fun g hg => Nat.mod_eq_of_lt (chunks_lt hg)).trans (List.map_id _)
  rw [byteStream_eq_groupStream, hbytes, groupStream_chunks hlen]

/-- `UNPACK` loses no bit (R82). -/
theorem groupStream_eq_unpack (k : Nat) (gs : List Nat) :
    groupStream k gs = byteStream (unpack k gs).1 ++ (unpack k gs).2 := by
  have hle : 8 * (k * gs.length / 8) ≤ (groupStream k gs).length := by
    rw [groupStream_length]
    exact Nat.mul_div_le _ _
  simp only [unpack, byteStream_chunks hle, List.take_append_drop]

theorem unpack_bytes_length (k : Nat) (gs : List Nat) : (unpack k gs).1.length = k * gs.length / 8 := by
  simp [unpack]

theorem unpack_tail_length (k : Nat) (gs : List Nat) : (unpack k gs).2.length = k * gs.length % 8 := by
  simp only [unpack, List.length_drop, groupStream_length]
  omega

/-- The trailing bits are the low bits of the last group (R81, R82). -/
theorem valueOf_unpack_concat {k t : Nat} {gs : List Nat} (g : Nat) (ht : t = k * (gs.length + 1) % 8) (hle : t ≤ k) :
    valueOf (unpack k (gs ++ [g])).2 = g % 2 ^ t := by
  have hbits : bitsOf k g = bitsOf (k - t) (g / 2 ^ t) ++ bitsOf t g := by
    rw [← bitsOf_add, Nat.sub_add_cancel hle]
  have hcut : 8 * (k * (gs.length + 1) / 8) = (groupStream k gs).length + (bitsOf (k - t) (g / 2 ^ t)).length := by
    have := Nat.div_add_mod (k * (gs.length + 1)) 8
    rw [Nat.mul_succ] at *
    simp only [groupStream_length, bitsOf_length]
    omega
  simp only [unpack, List.length_append, List.length_singleton, hcut, groupStream_append, groupStream_singleton, hbits,
    List.drop_length_add_append, List.drop_left, valueOf_bitsOf]

/-! ### Symbols and pads -/

section
variable {c : Codec} {gs : List Nat}

theorem mem_symbols (hgs : ∀ g ∈ gs, g < 2 ^ groupBits c) {x : Byte} (hx : x ∈ gs.map (encLut c)) :
    x ≠ padChar ∧ (decLut c x).isSome := by
  obtain ⟨g, hg, rfl⟩ := List.mem_map.mp hx
  exact ⟨encLut_ne_pad c (hgs g hg), by simp [decLut_encLut c (hgs g hg)]⟩

theorem scan_groups (hgs : ∀ g ∈ gs, g < 2 ^ groupBits c) (p : Nat) :
    scan c 0 0 (gs.map (encLut c) ++ List.replicate p padChar) = .pads p :=
  scan_eq_pads_iff.mpr ⟨_, rfl, fun _ => mem_symbols hgs⟩

/-- A string whose scan finds no violation is spelt by groups and a pad count (R81). -/
theorem exists_groups_of_scan {p : Nat} {str : List Byte} (h : scan c 0 0 str = .pads p) :
    ∃ gs : List Nat, (∀ g ∈ gs, g < 2 ^ groupBits c) ∧ str = gs.map (encLut c) ++ List.replicate p padChar := by
  obtain ⟨syms, rfl, hsyms⟩ := scan_eq_pads_iff.mp h
  have hval : ∀ x ∈ syms, ∃ g, decLut c x = some g := fun x hx => Option.isSome_iff_exists.mp (hsyms x hx).2
  refine ⟨syms.map fun x => (decLut c x).getD 0, fun g hg => ?_, ?_⟩
  · obtain ⟨x, hx, rfl⟩ := List.mem_map.mp hg
    obtain ⟨g, e⟩ := hval x hx
    rw [e]
    exact (decLut_eq_some e).1
  · rw [List.map_map, List.append_cancel_right_eq]
    refine (List.map_id syms).symm.trans (List.map_congr_left fun x hx => ?_)
    obtain ⟨g, e⟩ := hval x hx
    simp [e, (decLut_eq_some e).2]

/-- The values read from a string are the groups behind its symbols (R80). -/
theorem symbolValue_groups (hgs : ∀ g ∈ gs, g < 2 ^ groupBits c) (tail : List Byte) {i : Nat} (hi : i < gs.length) :
    symbolValue c (gs.map (encLut c) ++ tail) i = gs[i] := by
  have hx : (gs.map (encLut c) ++ tail)[i]? = some (encLut c gs[i]) := by simp [List.getElem?_append_left, hi]
  simp [symbolValue, unmapSymbol, hx, decLut_encLut c (hgs _ (List.getElem_mem hi))]

theorem map_symbolValue_groups (hgs : ∀ g ∈ gs, g < 2 ^ groupBits c) (tail : List Byte) :
    (List.range gs.length).map (symbolValue c (gs.map (encLut c) ++ tail)) = gs := by
  refine List.ext_getElem (by simp) fun i h _ => ?_
  rw [List.length_map, List.length_range] at h
  simp [symbolValue_groups hgs tail h]

/-- Fewer than `k` bits are trailing where the pad count is one an encoder produces (R79, R81). -/
theorem trailingCount_lt {d p : Nat} (hp : p ∈ padSet c) (hlen : (d + p) % blockSize c = 0) :
    trailingCount c d < groupBits c := by
  cases c <;> simp only [padSet, List.mem_cons, List.not_mem_nil, or_false] at hp <;>
    simp only [trailingCount, groupBits, blockSize] at hlen ⊢ <;> omega

/-- The trailing-bits check of `CHECK`, said of the bits left over after the whole bytes (R81). -/
theorem trailing_check_iff (hgs : ∀ g ∈ gs, g < 2 ^ groupBits c) (tail : List Byte)
    (ht : trailingCount c gs.length ≤ groupBits c) :
    (trailingCount c gs.length > 0 ∧
      symbolValue c (gs.map (encLut c) ++ tail) (gs.length - 1) % 2 ^ trailingCount c gs.length ≠ 0) ↔
        valueOf (unpack (groupBits c) gs).2 ≠ 0 := by
  rcases List.eq_nil_or_concat' gs with rfl | ⟨init, g, rfl⟩
  · simp [trailingCount, unpack, groupStream]
  · have hlast := symbolValue_groups hgs tail (i := init.length) (by simp)
    rw [List.getElem_concat_length rfl] at hlast
    rw [List.length_append, List.length_singleton] at ht ⊢
    rw [valueOf_unpack_concat g rfl ht, Nat.add_sub_cancel, hlast, trailingCount]
    rcases Nat.eq_zero_or_pos (groupBits c * (init.length + 1) % 8) with h0 | hpos
    · simp [h0, Nat.mod_one]
    · simp [hpos]

/-- `CHECK` of symbols and pads in whole blocks: the pad count and the trailing bits decide (R81). -/
theorem checkString_groups (hgs : ∀ g ∈ gs, g < 2 ^ groupBits c) {p : Nat} (hlen : (gs.length + p) % blockSize c = 0) :
    checkString c (gs.map (encLut c) ++ List.replicate p padChar) =
      if p ∉ padSet c then .fail .padCount gs.length
      else if valueOf (unpack (groupBits c) gs).2 ≠ 0 then .fail .trailing (gs.length - 1)
      else .ok gs.length p := by
  unfold checkString
  simp only [List.length_append, List.length_map, List.length_replicate, hlen, scan_groups hgs, Nat.add_sub_cancel]
  by_cases hp : p ∈ padSet c
  · simp only [trailing_check_iff hgs _ (trailingCount_lt hp hlen).le, hp, not_true, if_false]
    rfl
  · simp [hp]

end

end Sys2Proof.Machine
end

section
/-! SUPPORT. The statements about the engine as a whole: encoding and decoding undo each other, lengths and characters. -/

namespace Sys2Proof.Machine

/-! ### What decodes to what -/

/-- A decode of symbols and pads that pass `CHECK` gives the whole bytes of the groups (R83). -/
theorem decodeString_groups {c : Codec} {gs : List Nat} (hgs : ∀ g ∈ gs, g < 2 ^ groupBits c) {p : Nat}
    (h : checkString c (gs.map (encLut c) ++ List.replicate p padChar) = .ok gs.length p) :
    decodeString c (gs.map (encLut c) ++ List.replicate p padChar) = .bytes (unpack (groupBits c) gs).1 :=
  decodeString_eq_bytes.mpr ⟨_, _, h, by rw [map_symbolValue_groups hgs]⟩

/-- The groups `gs` and `p` pads are the valid string of the bytes `b`: whole blocks, a pad count an encoder produces, and a
bitstream that is the bytes' own with zero bits after it (R66, R79). -/
structure Spells (c : Codec) (b : List Byte) (gs : List Nat) (p : Nat) : Prop where
  inRange : ∀ g ∈ gs, g < 2 ^ groupBits c
  blocks : (gs.length + p) % blockSize c = 0
  pads : p ∈ padSet c
  stream : groupStream (groupBits c) gs = byteStream b ++ List.replicate (trailingCount c gs.length) false

section
variable {c : Codec} {b : List Byte} {gs : List Nat} {p : Nat}

theorem Spells.unpack_eq (h : Spells c b gs p) :
    unpack (groupBits c) gs = (b, List.replicate (trailingCount c gs.length) false) :=
  unpack_eq_of_stream (by rw [List.length_replicate]; exact Nat.mod_lt _ (by decide)) h.stream

theorem Spells.decodeString_eq (h : Spells c b gs p) :
    decodeString c (gs.map (encLut c) ++ List.replicate p padChar) = .bytes b := by
  have hcheck := checkString_groups h.inRange h.blocks
  rw [h.unpack_eq, if_neg (not_not.mpr h.pads), valueOf_replicate_false, if_neg (by simp)] at hcheck
  rw [decodeString_groups h.inRange hcheck, h.unpack_eq]

/-- The number of pads after `d` symbols is the only one of `PADSET` that fills the block (R76, R79). -/
theorem padGen_of_blocks {d : Nat} (hp : p ∈ padSet c) (hlen : (d + p) % blockSize c = 0) :
    padGen (blockSize c) d = p := by
  have := padSet_lt_blockSize hp
  cases c <;> simp only [padGen, blockSize] at hlen this ⊢ <;> omega

theorem Spells.encodeBytes_eq (h : Spells c b gs p) :
    encodeBytes c b = gs.map (encLut c) ++ List.replicate p padChar := by
  have hpack := pack_of_stream_zeros h.inRange (trailingCount_lt h.pads h.blocks) h.stream
  simp only [encodeBytes, hpack, padGen_of_blocks h.pads h.blocks]
  rfl

/-- The pad count of an encoding is one of the codec's, its length a multiple of the block size, and its groups leave as many
bits over as zero bits were added (R74, R76, R79). -/
theorem encoding_counts (c : Codec) (n : Nat) :
    padGen (blockSize c) (groupCount (groupBits c) n) ∈ padSet c ∧
    (groupCount (groupBits c) n + padGen (blockSize c) (groupCount (groupBits c) n)) % blockSize c = 0 ∧
    groupCount (groupBits c) n * groupBits c - 8 * n = trailingCount c (groupCount (groupBits c) n) := by
  cases c <;> simp only [padSet, List.mem_cons, List.not_mem_nil, or_false, padGen, blockSize, groupCount, groupBits,
    trailingCount] <;> omega

/-- Every byte sequence has its valid string (R87). -/
theorem spells_pack (c : Codec) (b : List Byte) :
    Spells c b (pack (groupBits c) b) (padGen (blockSize c) (groupCount (groupBits c) b.length)) := by
  obtain ⟨hp, hlen, ht⟩ := encoding_counts c b.length
  refine ⟨fun g => pack_lt, by rwa [pack_length], hp, ?_⟩
  rw [groupStream_pack (groupBits_pos c), pack_length, ht]

/-- What a decode accepts is the valid string of the bytes it gives (R88). -/
theorem exists_spells_of_decodeString {str : List Byte} (h : decodeString c str = .bytes b) :
    ∃ gs p, Spells c b gs p ∧ str = gs.map (encLut c) ++ List.replicate p padChar := by
  obtain ⟨d, p, hcheck, -⟩ := decodeString_eq_bytes.mp h
  obtain ⟨hlen, hscan, hp, rfl, -⟩ := checkString_eq_ok.mp hcheck
  obtain ⟨gs, hgs, rfl⟩ := exists_groups_of_scan hscan
  rw [List.length_append, List.length_map, List.length_replicate] at hlen hcheck
  rw [Nat.add_sub_cancel] at hcheck
  obtain rfl : (unpack (groupBits c) gs).1 = b := DecodeResult.bytes.inj ((decodeString_groups hgs hcheck).symm.trans h)
  refine ⟨gs, p, ⟨hgs, hlen, hp, ?_⟩, rfl⟩
  have hzero : valueOf (unpack (groupBits c) gs).2 = 0 := by
    rw [checkString_groups hgs hlen, if_neg (not_not.mpr hp)] at hcheck
    by_contra hne
    rw [if_pos hne] at hcheck
    cases hcheck
  have htail := valueOf_eq_zero_iff.mp hzero
  rw [unpack_tail_length] at htail
  rw [groupStream_eq_unpack, htail]
  rfl

end

/-- Settles O42: an encoding is the valid string of its bytes. -/
theorem decodeOfEncodeIsTheBytes : Obligations.DecodeOfEncodeIsTheBytes := by
  intro c b
  have h := spells_pack c b
  rw [h.encodeBytes_eq]
  exact h.decodeString_eq

/-- Settles O43: the bytes a decode gives have one valid string. -/
theorem encodeOfDecodeIsTheString : Obligations.EncodeOfDecodeIsTheString := by
  intro c str b hdec
  obtain ⟨gs, p, h, rfl⟩ := exists_spells_of_decodeString hdec
  exact h.encodeBytes_eq

/-! ### Lengths and characters -/

/-- Settles O44. -/
theorem encodedLengthAndPads : Obligations.EncodedLengthAndPads := by
  intro c b
  have h := spells_pack c b
  refine ⟨encodeBytes_length_eq c b, _, _, h.encodeBytes_eq, fun hmem => (mem_symbols h.inRange hmem).1 rfl, ?_, ?_, ?_⟩
  · rw [List.length_map, pack_length, groupCount]
  · rintro rfl
    have hn : b.length % 5 < 5 := Nat.mod_lt _ (by decide)
    simp only [padGen, blockSize, groupCount, groupBits]
    interval_cases hm : b.length % 5 <;> simp <;> omega
  · rintro rfl
    have hn : b.length % 3 < 3 := Nat.mod_lt _ (by decide)
    simp only [padGen, blockSize, groupCount, groupBits]
    interval_cases hm : b.length % 3 <;> simp <;> omega

/-- The bytes of the symbols after the last full block of `d` (R84). -/
def restBytes : Codec → Nat → Nat
  | .base32, d => [0, 0, 1, 0, 2, 3, 0, 4].getD (d % 8) 0
  | .base64url, d => [0, 0, 1, 2].getD (d % 4) 0

/-- The decoded length by full blocks and a rest: the pad count leaves only the rests that carry whole bytes (R79, R84). -/
theorem decoded_length_by_blocks {c : Codec} {d p : Nat} (hp : p ∈ padSet c) (hlen : (d + p) % blockSize c = 0) :
    groupBits c * d / 8 = blockBytes c * (d / blockSize c) + restBytes c d := by
  cases c <;> simp only [padSet, List.mem_cons, List.not_mem_nil, or_false] at hp <;>
    simp only [blockBytes_base32, blockBytes_base64url, groupBits, blockSize, restBytes] at hlen ⊢
  case base32 =>
    rcases hp with rfl | rfl | rfl | rfl | rfl
    · have hd : d % 8 = 0 := by omega
      simp [hd]
      omega
    · have hd : d % 8 = 7 := by omega
      simp [hd]
      omega
    · have hd : d % 8 = 5 := by omega
      simp [hd]
      omega
    · have hd : d % 8 = 4 := by omega
      simp [hd]
      omega
    · have hd : d % 8 = 2 := by omega
      simp [hd]
      omega
  case base64url =>
    rcases hp with rfl | rfl | rfl
    · have hd : d % 4 = 0 := by omega
      simp [hd]
      omega
    · have hd : d % 4 = 3 := by omega
      simp [hd]
      omega
    · have hd : d % 4 = 2 := by omega
      simp [hd]
      omega

/-- Settles O45. -/
theorem decodedLength : Obligations.DecodedLength := by
  intro c str b d p hcheck hdec
  have hle := decodeString_length_le hdec
  obtain ⟨d', p', hcheck', rfl⟩ := decodeString_eq_bytes.mp hdec
  obtain ⟨rfl, rfl⟩ := CheckResult.ok.inj (hcheck'.symm.trans hcheck)
  obtain ⟨hlen, hscan, hp, hd, -⟩ := checkString_eq_ok.mp hcheck
  have hsum : d' + p' = str.length := by
    obtain ⟨gs, -, rfl⟩ := exists_groups_of_scan hscan
    simpa using hd
  rw [← hsum] at hlen
  refine ⟨?_, hsum, hle, ?_⟩ <;> rw [unpack_bytes_length, List.length_map, List.length_range]
  cases c <;> exact decoded_length_by_blocks hp hlen

/-- Every character of an encoding is a symbol or a pad (R90). -/
theorem mem_encodeBytes {c : Codec} {b : List Byte} {x : Byte} (hx : x ∈ encodeBytes c b) :
    (∃ g < 2 ^ groupBits c, x = encLut c g) ∨ x = padChar := by
  have h := spells_pack c b
  rw [h.encodeBytes_eq, List.mem_append, List.mem_map] at hx
  rcases hx with ⟨g, hg, rfl⟩ | hx
  · exact .inl ⟨g, h.inRange g hg, rfl⟩
  · exact .inr (List.eq_of_mem_replicate hx)

/-- Every character of a valid string is a symbol or a pad (R66). -/
theorem decLut_isSome_of_isValid {c : Codec} {str : List Byte} {x : Byte} (h : isValid c str = true) (hx : x ∈ str) :
    (decLut c x).isSome ∨ x = padChar := by
  obtain ⟨d, p, hcheck⟩ := isValid_eq_true.mp h
  obtain ⟨-, hscan, -⟩ := checkString_eq_ok.mp hcheck
  obtain ⟨gs, hgs, rfl⟩ := exists_groups_of_scan hscan
  rcases List.mem_append.mp hx with hx | hx
  · exact .inl (mem_symbols hgs hx).2
  · exact .inr (List.eq_of_mem_replicate hx)

/-- A character that is no symbol and no pad makes a string invalid. -/
theorem isValid_eq_false_of_mem {c : Codec} {str : List Byte} {x : Byte} (hx : x ∈ str) (hpad : x ≠ padChar)
    (hsym : decLut c x = none) : isValid c str = false := by
  refine eq_false_of_ne_true fun h => ?_
  rcases decLut_isSome_of_isValid h hx with h | h
  · simp [hsym] at h
  · exact hpad h

/-- Settles O46: each symbol is looked up in its table, and `+` and `/` are in neither. -/
theorem encodingUsesOnlyItsAlphabet : Obligations.EncodingUsesOnlyItsAlphabet := by
  refine ⟨fun b x hx => ?_, fun b x hx => ?_, fun c str h => ?_⟩
  · rcases mem_encodeBytes hx with ⟨g, hg, rfl⟩ | rfl
    · clear hx
      revert g
      decide
    · decide
  · rcases mem_encodeBytes hx with ⟨g, hg, rfl⟩ | rfl
    · clear hx
      revert g
      decide
    · decide
  · rcases h with h | h
    · exact isValid_eq_false_of_mem h (by decide) (by cases c <;> decide)
    · exact isValid_eq_false_of_mem h (by decide) (by cases c <;> decide)

end Sys2Proof.Machine
end

section
/-! SUPPORT. What the core's steps and the start of a command compute, one equation for each case. -/

namespace Sys2Proof.Machine

/-! ### The steps of the core, one equation for each case -/

section
variable {s : State}

theorem State.coreStep_eRun (hp : s.phase = .eRun) : s.coreStep = s.stepERun := by simp only [State.coreStep, hp]

theorem State.coreStep_eFlush (hp : s.phase = .eFlush) : s.coreStep = s.stepEFlush := by simp only [State.coreStep, hp]

theorem State.coreStep_ePad (hp : s.phase = .ePad) : s.coreStep = s.stepEPad := by simp only [State.coreStep, hp]

theorem State.coreStep_dRun (hp : s.phase = .dRun) : s.coreStep = s.stepDRun := by simp only [State.coreStep, hp]

theorem State.coreStep_dFinal (hp : s.phase = .dFinal) : s.coreStep = s.stepDFinal := by simp only [State.coreStep, hp]

/-- The symbol value of the short final chunk (R96). -/
def State.flushValue (s : State) : Nat :=
  s.acc.toNat * 2 ^ (groupBits s.codec - s.nbits.toNat) % 2 ^ groupBits s.codec

theorem State.stepEFlush_empty (h : s.nbits = 0) : s.stepEFlush = { s with phase := .ePad } := by
  simp [State.stepEFlush, h]

theorem State.stepEFlush_chunk (h : s.nbits ≠ 0) :
    s.stepEFlush = { s.emit (encLut s.codec s.flushValue) with nbits := 0, acc := 0, phase := .ePad } := by
  have hpos : 0 < s.nbits.toNat := Nat.pos_of_ne_zero fun e => h (BitVec.eq_of_toNat_eq e)
  simp only [State.stepEFlush, gt_iff_lt, hpos, if_true, Nat.shiftLeft_eq, State.flushValue]

theorem State.stepEPad_end (h : s.olen % blockSize s.codec = 0) : s.stepEPad = s.complete := if_neg (not_not.mpr h)

theorem State.stepEPad_pad (h : s.olen % blockSize s.codec ≠ 0) : s.stepEPad = s.emit padChar := if_pos h

theorem State.stepDRun_end (h : ¬ s.ipos < s.ilen) : s.stepDRun = { s with phase := .dFinal } := if_neg h

theorem State.stepDRun_pad (hlt : s.ipos < s.ilen) (hx : s.ibufAt s.ipos = padChar) :
    s.stepDRun = { s with npad := s.npad + 1, ipos := s.ipos + 1 } := by
  simp only [State.stepDRun, hlt, hx, if_true]

theorem State.stepDRun_char (hlt : s.ipos < s.ilen) (hx : s.ibufAt s.ipos ≠ padChar)
    (hv : decLut s.codec (s.ibufAt s.ipos) = none) : s.stepDRun = s.failCheck .char s.ipos := by
  simp only [State.stepDRun, hlt, hx, hv, if_true, if_false]

theorem State.stepDRun_padOrder (hlt : s.ipos < s.ilen) (hx : s.ibufAt s.ipos ≠ padChar)
    (hv : (decLut s.codec (s.ibufAt s.ipos)).isSome) (hn : 0 < s.npad) : s.stepDRun = s.failCheck .padOrder s.ipos := by
  obtain ⟨v, hv⟩ := Option.isSome_iff_exists.mp hv
  simp only [State.stepDRun, hlt, hx, hv, if_true, if_false, gt_iff_lt, hn]

theorem State.stepDRun_symbol (hlt : s.ipos < s.ilen) (hx : s.ibufAt s.ipos ≠ padChar) {v : Nat}
    (hv : decLut s.codec (s.ibufAt s.ipos) = some v) (hn : s.npad = 0) : s.stepDRun = s.takeSymbol v := by
  simp only [State.stepDRun, hlt, hx, hv, if_true, if_false, gt_iff_lt, hn, lt_irrefl]

theorem State.stepDFinal_padCount (h : s.npad ∉ padSet s.codec) :
    s.stepDFinal = s.failCheck .padCount (s.ilen - s.npad) := if_pos h

theorem State.stepDFinal_trailing (h : s.npad ∈ padSet s.codec) (ha : s.acc ≠ 0) :
    s.stepDFinal = s.failCheck .trailing (s.ilen - s.npad - 1) := by
  rw [State.stepDFinal, if_neg (not_not.mpr h), if_pos ha]

theorem State.stepDFinal_validate (h : s.npad ∈ padSet s.codec) (ha : s.acc = 0) (hop : s.opBits = Op.validate.bits) :
    s.stepDFinal = State.complete { s with status := setFlag s.status .valid } := by
  rw [State.stepDFinal, if_neg (not_not.mpr h), if_neg (not_not.mpr ha), if_pos hop]

theorem State.stepDFinal_decode (h : s.npad ∈ padSet s.codec) (ha : s.acc = 0) (hop : s.opBits = Op.decode.bits) :
    s.stepDFinal = s.complete := by
  rw [State.stepDFinal, if_neg (not_not.mpr h), if_neg (not_not.mpr ha), if_neg (by rw [hop]; decide)]

/-! ### A symbol taken into the window -/

/-- `ACC` with a symbol value appended (R98). -/
def State.window (s : State) (v : Nat) : BitVec 12 := (s.acc <<< groupBits s.codec) ||| BitVec.ofNat 12 v

/-- The window never overflows (R41). -/
theorem State.window_toNat {v : Nat} (hv : v < 2 ^ groupBits s.codec) (hacc : s.acc.toNat < 2 ^ s.nbits.toNat)
    (hn : s.nbits.toNat + groupBits s.codec ≤ 12) :
    (s.window v).toNat = s.acc.toNat * 2 ^ groupBits s.codec + v := acc_append_symbol hv hacc hn

/-- `s` after a symbol that leaves `n` bits of the window `w` (R98). -/
def State.keepWindow (s : State) (w n : Nat) : State :=
  { s with acc := BitVec.ofNat 12 (w % 2 ^ n), nbits := BitVec.ofNat 4 n, ipos := s.ipos + 1 }

theorem State.keepWindow_nbits (w : Nat) {n : Nat} (hn : n < 16) : (s.keepWindow w n).nbits.toNat = n :=
  Nat.mod_eq_of_lt hn

theorem State.keepWindow_acc (w : BitVec 12) (n : Nat) : (s.keepWindow w.toNat n).acc.toNat = w.toNat % 2 ^ n :=
  Nat.mod_eq_of_lt (lt_of_le_of_lt (Nat.mod_le _ _) w.isLt)

theorem State.takeSymbol_short {v : Nat} (h : s.nbits.toNat + groupBits s.codec < 8) :
    s.takeSymbol v =
      { s with
        acc := s.window v, nbits := BitVec.ofNat 4 (s.nbits.toNat + groupBits s.codec), ipos := s.ipos + 1 } := by
  simp only [State.takeSymbol, ge_iff_le, Nat.not_le.mpr h, if_false, State.window]

theorem State.takeSymbol_byte {v : Nat} (h : 8 ≤ s.nbits.toNat + groupBits s.codec) :
    s.takeSymbol v =
      (if s.opBits = Op.decode.bits
        then s.emit (BitVec.ofNat 8 ((s.window v).toNat / 2 ^ (s.nbits.toNat + groupBits s.codec - 8)))
        else s).keepWindow (s.window v).toNat (s.nbits.toNat + groupBits s.codec - 8) := by
  simp only [State.takeSymbol, ge_iff_le, h, if_true, State.window, State.keepWindow, Nat.shiftRight_eq_div_pow]
  split <;> rfl

end

/-! ### The start -/

section
variable {s : State} {c : Codec} {op : Op}

theorem exec_microStep (hb : s.busy = false) (hl : s.ilen ≤ s.params.inCap) (hv : s.params.level = .microStep)
    (c : Codec) (op : Op) : exec (commandInstr c op) s = .next (s.clear.start c op) := by
  rw [exec_commandInstr, State.runCommand_microStep c op hb hl hv]

/-- The block at the start of the micro-steps: `BUSY` alone, the phase that reads the input (R94). -/
def State.started (s : State) (c : Codec) (op : Op) (ph : Phase) : State :=
  { s.accepted c op with status := 0x01, phase := ph }

theorem State.started_eq (s : State) (c : Codec) (op : Op) (ph : Phase) :
    { s.accepted c op with status := setFlag 0x00 .busy, phase := ph } = s.started c op ph :=
  congrArg (fun w => { s.accepted c op with status := w, phase := ph }) busy_clearWord

theorem State.start_encode : s.clear.start c .encode = s.started c .encode .eRun := s.started_eq c .encode .eRun

theorem State.start_scan (hop : op ≠ .encode) (hm : s.ilen % blockSize c = 0) :
    s.clear.start c op = s.started c op .dRun := by
  rw [← s.started_eq]
  cases op with
  | encode => exact absurd rfl hop
  | decode => exact if_neg (not_not.mpr hm)
  | validate => exact if_neg (not_not.mpr hm)

theorem State.start_length (hop : op ≠ .encode) (hm : s.ilen % blockSize c ≠ 0) :
    s.clear.start c op = (s.accepted c op).failCheck .length s.ilen := by
  cases op with
  | encode => exact absurd rfl hop
  | decode => exact if_pos hm
  | validate => exact if_pos hm

end

/-! ### How a running command ends -/

section
variable {s : State}

theorem State.complete_of_underway (h : s.Underway) : s.complete = { s with status := 0x02, phase := .idle } := by
  rw [← h.complete_status]
  rfl

/-- `VALID` and then `COMPLETE` (R99, R101). -/
theorem State.complete_valid (h : s.status = 0x01) :
    State.complete { s with status := setFlag s.status .valid } = { s with status := 0x0A, phase := .idle } := by
  rw [h]
  exact congrArg (fun w => { s with status := w, phase := .idle }) valid_busyWord

/-- `ERR` and then `COMPLETE`, in a command that has not ended (R100). -/
theorem fail_word {w : Byte} (h : w = 0x00 ∨ w = 0x01) : setFlag (clearFlag (setFlag w .err) .busy) .done = 0x06 := by
  rcases h with rfl | rfl <;> decide

/-- The exception in a command that has not ended (R100, R121). -/
theorem State.Underway.raiseInvalidEncoding_eq (h : s.Underway) (cause : Cause) (pos : Nat) :
    ∃ (ec : BitVec 3) (ep dr : Nat), s.raiseInvalidEncoding cause pos =
        { s with errCause := ec, errPos := ep, draws := dr, olen := 0, status := 0x06, phase := .idle } ∧
      1 ≤ ec.toNat ∧ ec.toNat ≤ 5 ∧
      (s.params.errInfo = .reference → ec = cause.code ∧ ep = pos ∧ dr = s.draws) := by
  obtain ⟨ec, ep, dr, e, hlo, hhi, -, href⟩ := s.raiseInvalidEncoding_spec cause pos
  refine ⟨ec, ep, dr, ?_, hlo, hhi, href⟩
  rw [e, fail_word h.1]

end

end Sys2Proof.Machine
end

section
/-! SUPPORT. The statements about the start of a command and each step of the core. -/

namespace Sys2Proof.Machine

/-! ### The start -/

/-- Settles O19. -/
theorem commandStart : Obligations.CommandStart := by
  intro c op s hb hv
  refine ⟨fun hl => ?_, fun hl => ?_⟩
  · rw [exec_commandInstr, State.runCommand_long c op hb hl]
    exact congrArg (fun w => Host.Outcome.next { s.clear with status := w }) refuse_clearWord
  rw [exec_microStep hb hl hv]
  refine ⟨?_, fun hop hm => ?_, ?_, ?_⟩
  · rintro rfl
    rw [State.start_encode]
    rfl
  · rw [State.start_scan hop hm]
    rfl
  · rintro rfl hm
    rw [State.start_length (op := .validate) nofun hm, State.failCheck_validate _ _ (s.accepted_opBits c _),
      State.complete_of_underway (s.accepted_underway c _)]
    rfl
  · rintro rfl hm
    rw [State.start_length (op := .decode) nofun hm, State.failCheck_decode _ _ (s.accepted_opBits c _)]
    obtain ⟨ec, ep, dr, e, hlo, hhi, href⟩ := (s.accepted_underway c .decode).raiseInvalidEncoding_eq .length s.ilen
    rw [e]
    exact ⟨_, rfl, rfl, rfl, rfl, hlo, hhi, fun hr => ⟨(href hr).1, (href hr).2.1⟩⟩

/-! ### The encode -/

section
variable {s : State}

theorem State.loadByte_codec : s.loadByte.codec = s.codec := rfl

theorem State.loadByte_olen : s.loadByte.olen = s.olen := rfl

theorem State.loadByte_obuf : s.loadByte.obuf = s.obuf := rfl

theorem State.EncodeRunOk.loadByte_nbits (h : s.EncodeRunOk) : s.loadByte.nbits.toNat = s.nbits.toNat + 8 :=
  (h.window (s.ibufAt s.ipos)).1

theorem State.EncodeRunOk.loadByte_acc (h : s.EncodeRunOk) :
    s.loadByte.acc.toNat = s.acc.toNat * 256 + (s.ibufAt s.ipos).toNat := by
  have hn := h.nbits_le
  obtain ⟨⟨-, -, -, hacc⟩, -⟩ := h
  exact acc_append_byte _ hacc hn

/-- Three rounds are all the loop of `E_RUN` needs (log 16). -/
theorem State.EncodeRunOk.rounds_le (h : s.EncodeRunOk) : s.loadByte.nbits.toNat / groupBits s.loadByte.codec ≤ 3 := by
  have hn := h.nbits_le
  rw [h.loadByte_nbits, State.loadByte_codec]
  rcases groupBits_cases s.codec with e | e <;> rw [e] <;> omega

end

/-- Settles O20: the loop of `E_RUN` on the window with the byte appended. -/
theorem eRunStep : Obligations.ERunStep := by
  intro s hinv hp hpend
  rw [step_of_pending_nil hpend, State.coreStep_eRun hp]
  have hd := (State.datapathOk_eRun hp).mp hinv.datapath_ok
  refine ⟨fun hend => by rw [State.stepERun_of_end hend.not_lt], fun hlt => ?_⟩
  have hspec := State.drain_spec 3 s.loadByte hd.rounds_le (hd.window _).2
  simp only [State.loadByte_codec, State.loadByte_olen, State.loadByte_obuf, hd.loadByte_nbits, hd.loadByte_acc] at hspec
  obtain ⟨holen, hbits, hval, hnew, hold, -, -, hframe⟩ := hspec
  rw [State.stepERun_of_lt hlt]
  refine ⟨_, rfl, (congrArg State.ipos hframe :), holen, hbits, hval, hnew, hold, ?_⟩
  exact congrArg (fun t : State => { t with ipos := s.ipos, nbits := s.nbits, acc := s.acc }) hframe

/-- Settles O21. -/
theorem eFlushStep : Obligations.EFlushStep := by
  intro s hp hpend
  rw [step_of_pending_nil hpend, State.coreStep_eFlush hp]
  refine ⟨fun h => by rw [State.stepEFlush_empty h], fun h => ⟨_, rfl, ?_⟩⟩
  rw [State.stepEFlush_chunk h]
  exact ⟨rfl, Memory.readByte_writeByte_same _ _ _, fun a ha => Memory.readByte_writeByte_other _ _ ha, rfl⟩

/-- Settles O22. -/
theorem ePadStep : Obligations.EPadStep := by
  intro s hinv hp hpend
  have hu := (hinv.running (ne_of_eq_of_ne hp nofun)).underway
  rw [step_of_pending_nil hpend, State.coreStep_ePad hp]
  refine ⟨fun h => by rw [State.stepEPad_end h, State.complete_of_underway hu], fun h => ⟨_, rfl, ?_⟩⟩
  rw [State.stepEPad_pad h]
  exact ⟨rfl, Memory.readByte_writeByte_same _ _ _, fun a ha => Memory.readByte_writeByte_other _ _ ha, rfl⟩

/-! ### The decode and the validate -/

/-- Settles O23. -/
theorem dRunStep : Obligations.DRunStep := by
  intro s hinv hp hpend
  have hd := (State.datapathOk_dRun hp).mp hinv.datapath_ok
  rw [step_of_pending_nil hpend, State.coreStep_dRun hp]
  refine ⟨fun hend => by rw [State.stepDRun_end hend.not_lt], fun hlt hx => by rw [State.stepDRun_pad hlt hx],
    fun hlt hx v hv hn => ?_⟩
  obtain ⟨⟨-, -, -, hacc⟩, -⟩ := id hd
  have htwelve := hd.nbits_le
  have hwindow := State.window_toNat (decLut_eq_some hv).1 hacc htwelve
  rw [State.stepDRun_symbol hlt hx hv hn, ← hwindow]
  refine ⟨fun h => ?_, fun h => ?_⟩
  · rw [State.takeSymbol_short h]
    exact ⟨_, rfl, rfl, State.keepWindow_nbits (s := s) 0 (by omega), rfl⟩
  · rw [State.takeSymbol_byte h]
    refine ⟨_, rfl, State.keepWindow_acc _ _, State.keepWindow_nbits _ (by omega), fun hop => ?_, fun hop => ?_, ?_⟩
    · rw [if_pos hop]
      exact ⟨rfl, Memory.readByte_writeByte_same _ _ _, fun a ha => Memory.readByte_writeByte_other _ _ ha⟩
    · rw [if_neg (by rw [hop]; decide)]
      exact ⟨rfl, rfl⟩
    · split <;> rfl

/-- Settles O24. -/
theorem dFinalStep : Obligations.DFinalStep := by
  intro s hinv hp hpend hpad hacc
  have hrun := hinv.running (ne_of_eq_of_ne hp nofun)
  rw [step_of_pending_nil hpend, State.coreStep_dFinal hp]
  refine ⟨fun hop => ?_, fun hop => ?_⟩
  · rw [State.stepDFinal_decode hpad hacc hop, State.complete_of_underway hrun.underway]
  · rw [State.stepDFinal_validate hpad hacc hop, State.complete_valid hrun.status]

/-- The failing checks of `D_RUN` and `D_FINAL` call `FAIL` with their cause and position (R98, R99). -/
theorem State.coreStep_eq_failCheck {s : State} {cause : Cause} {pos : Nat}
    (h : (s.phase = .dRun ∧ s.ipos < s.ilen ∧ s.ibufAt s.ipos ≠ 0x3D ∧ pos = s.ipos ∧
        ((decLut s.codec (s.ibufAt s.ipos) = none ∧ cause = .char) ∨
         ((decLut s.codec (s.ibufAt s.ipos)).isSome ∧ 0 < s.npad ∧ cause = .padOrder))) ∨
     (s.phase = .dFinal ∧ s.npad ∉ padSet s.codec ∧ cause = .padCount ∧ pos = s.ilen - s.npad) ∨
     (s.phase = .dFinal ∧ s.npad ∈ padSet s.codec ∧ s.acc ≠ 0 ∧ cause = .trailing ∧ pos = s.ilen - s.npad - 1)) :
    s.phase ≠ .idle ∧ s.coreStep = s.failCheck cause pos := by
  rcases h with ⟨hp, hlt, hx, rfl, ⟨hv, rfl⟩ | ⟨hv, hn, rfl⟩⟩ | ⟨hp, hpad, rfl, rfl⟩ | ⟨hp, hpad, ha, rfl, rfl⟩
  · exact ⟨ne_of_eq_of_ne hp nofun, (State.coreStep_dRun hp).trans (State.stepDRun_char hlt hx hv)⟩
  · exact ⟨ne_of_eq_of_ne hp nofun, (State.coreStep_dRun hp).trans (State.stepDRun_padOrder hlt hx hv hn)⟩
  · exact ⟨ne_of_eq_of_ne hp nofun, (State.coreStep_dFinal hp).trans (State.stepDFinal_padCount hpad)⟩
  · exact ⟨ne_of_eq_of_ne hp nofun, (State.coreStep_dFinal hp).trans (State.stepDFinal_trailing hpad ha)⟩

/-- Settles O25. -/
theorem failingStepEndsTheCommand : Obligations.FailingStepEndsTheCommand := by
  intro s cause pos hinv hpend hfail
  obtain ⟨hp, e⟩ := State.coreStep_eq_failCheck hfail
  have hu := (hinv.running hp).underway
  rw [step_of_pending_nil hpend, e]
  refine ⟨fun hop => ?_, fun hop => ?_⟩
  · rw [State.failCheck_validate _ _ hop, State.complete_of_underway hu]
  · obtain ⟨ec, ep, dr, e, hlo, hhi, href⟩ := hu.raiseInvalidEncoding_eq cause pos
    rw [State.failCheck_decode _ _ hop, e]
    exact ⟨_, rfl, hlo, hhi, href, rfl⟩

end Sys2Proof.Machine
end

section
/-! SUPPORT. Runs of the core and what a running command leaves alone: what the two refinement statements have in common. -/

namespace Sys2Proof.Machine

/-! ### Runs of the core -/

/-- From `s` exactly `n` steps lead to `DONE = 1` and to what a host cannot tell apart from `a`, and all states before that
are busy (R102, R103). -/
def State.RunsTo (s : State) (n : Nat) (a : State) : Prop :=
  ∃ m : State, Sys2Proof.core.run n s = .next m ∧ m.done = true ∧ m.SameResults a ∧
    ∀ j < n, ∃ u : State, Sys2Proof.core.run j s = .next u ∧ u.busy = true

/-- What a running command leaves alone: a state without its results and its datapath. -/
def State.background (s : State) : State := { s.scrub with cur := s.cur, olen := 0, status := 0x00, phase := .idle }

section
variable {s z a : State} {n : Nat}

theorem State.RunsTo.zero (hd : s.done = true) (h : s.SameResults a) : s.RunsTo 0 a := ⟨s, rfl, hd, h, nofun⟩

theorem State.RunsTo.succ (hb : s.busy = true) (hp : s.pending = []) (h : s.coreStep.RunsTo n a) :
    s.RunsTo (n + 1) a := by
  obtain ⟨m, hrun, hd, hsame, hbusy⟩ := h
  have hstep := core_run_succ (step_of_pending_nil hp)
  refine ⟨m, (hstep n).trans hrun, hd, hsame, fun j hj => ?_⟩
  cases j with
  | zero => exact ⟨s, rfl, hb⟩
  | succ j =>
    obtain ⟨u, hu, hub⟩ := hbusy j (Nat.lt_of_succ_lt_succ hj)
    exact ⟨u, (hstep j).trans hu, hub⟩

/-- The background and the results are all a host can read of an idle block. -/
theorem State.SameResults.of_background (hb : s.background = a.background) (hst : s.status = a.status)
    (hp : s.phase = a.phase) (hr : s.result = a.result) : s.SameResults a := by
  have hl : s.olen = a.olen := by rw [← s.result_length, hr, a.result_length]
  have hscrub (t : State) :
      t.scrub = { t.background with cur := 0, olen := t.olen, status := t.status, phase := t.phase } := rfl
  exact ⟨by rw [hscrub s, hscrub a, hb, hl, hst, hp], hr⟩

/-! ### A running command and the block it was started on -/

/-- `s` is in the middle of a command that was accepted on the block `z`. -/
structure State.Tracks (s z : State) : Prop where
  background : s.background = z.background
  status : s.status = 0x01
  pending : s.pending = []

theorem State.Tracks.next {t : State} (h : s.Tracks z) (hb : t.background = s.background) (hst : t.status = s.status) :
    t.Tracks z where
  background := hb.trans h.background
  status := hst.trans h.status
  pending := (congrArg State.pending hb :).trans h.pending

theorem State.Tracks.step (h : s.Tracks z) (hn : s.coreStep.RunsTo n a) : s.RunsTo (n + 1) a :=
  .succ (by rw [State.busy, h.status]; decide) h.pending hn

theorem State.Tracks.input (h : s.Tracks z) : s.input = z.input :=
  (congrArg State.input h.background :)

theorem State.Tracks.ilen (h : s.Tracks z) : s.ilen = z.ilen :=
  (congrArg State.ilen h.background :)

theorem State.Tracks.codec (h : s.Tracks z) : s.codec = z.codec :=
  (congrArg State.codec h.background :)

theorem State.Tracks.opBits (h : s.Tracks z) : s.opBits = z.opBits :=
  (congrArg State.opBits h.background :)

/-- `t` is the block `z` with a command complete: `STATUS` holds `w`, and no error information was saved (R101). -/
structure State.Completes (t z : State) (w : Byte) : Prop where
  background : t.background = z.background
  status : t.status = w
  phase : t.phase = .idle

/-- Two completions of one command, with the same result. -/
theorem State.Completes.runsTo {w : Byte} (h : s.Completes z w) (ha : a.Completes z w) (hw : getFlag w .done = true)
    (hr : s.result = a.result) : s.RunsTo 0 a :=
  .zero (by rw [State.done, h.status, hw])
    (.of_background (h.background.trans ha.background.symm) (h.status.trans ha.status.symm)
      (h.phase.trans ha.phase.symm) hr)

/-- `COMPLETE` of a command that has not ended (R101). -/
theorem State.complete_completes (hb : s.background = z.background) (hst : s.status = 0x00 ∨ s.status = 0x01) :
    s.complete.Completes z 0x02 where
  background := hb
  status := by rcases hst with h | h <;> rw [State.complete_status, h] <;> decide
  phase := rfl

theorem State.Tracks.complete (h : s.Tracks z) : s.complete.Completes z 0x02 :=
  State.complete_completes h.background (.inr h.status)

/-- Each element emitted is the next of the result (R54). -/
theorem State.emit_result (s : State) (v : Byte) : (s.emit v).result = s.result ++ [some v] := by
  simp only [State.result, State.emit_olen, State.emit_obuf, List.range_succ, List.map_append, List.map_singleton,
    Memory.readByte_writeByte_same]
  congr 1
  refine List.map_congr_left fun i hi => Memory.readByte_writeByte_other _ _ ?_
  exact Nat.ne_of_lt (List.mem_range.mp hi)

end

/-- What the two refinement statements say of a command, once its micro-steps run to its architectural result. -/
theorem refines_of_runsTo {c : Codec} {op : Op} {s : State} {n : Nat} (hb : s.busy = false)
    (hv : s.params.level = .microStep) (hl : s.ilen ≤ s.params.inCap)
    (h : (s.clear.start c op).RunsTo n ((s.atLevel .architectural).clear.archCommand c op)) :
    ∃ a m₀ m, exec (commandInstr c op) (s.atLevel .architectural) = .next a ∧ exec (commandInstr c op) s = .next m₀ ∧
      Sys2Proof.core.run n m₀ = .next m ∧ m.done = true ∧ m.SameResults a ∧
      ∀ j < n, ∃ u : State, Sys2Proof.core.run j m₀ = .next u ∧ u.busy = true := by
  have harch : exec (commandInstr c op) (s.atLevel .architectural) =
      .next ((s.atLevel .architectural).clear.archCommand c op) := by
    rw [exec_commandInstr, State.runCommand_architectural (s := s.atLevel .architectural) c op hb hl rfl]
  obtain ⟨m, hrun⟩ := h
  exact ⟨_, _, m, harch, exec_microStep hb hl hv c op, hrun⟩

end Sys2Proof.Machine
end

section
/-! SUPPORT. The refinement of the encodes: the groups emitted and the bits held always spell the bytes read. -/

namespace Sys2Proof.Machine

/-! ### The groups emitted and the bits held spell the bytes read -/

/-- An encode has emitted the symbols of the groups `gs`, which with the bits it holds spell the bytes `b` (R74, R95). -/
structure State.Packs (s : State) (b : List Byte) (gs : List Nat) : Prop where
  inRange : ∀ g ∈ gs, g < 2 ^ groupBits s.codec
  result : s.result = (gs.map (encLut s.codec)).map some
  stream : groupStream (groupBits s.codec) gs ++ bitsOf s.nbits.toNat s.acc.toNat = byteStream b

section
variable {s : State} {b : List Byte} {gs : List Nat}

/-- One more group emitted, with the bits that are held after it. -/
theorem State.Packs.emit (h : s.Packs b gs) {g : Nat} (hg : g < 2 ^ groupBits s.codec) {nbits : BitVec 4}
    {acc : BitVec 12} {ph : Phase} {b' : List Byte}
    (hstream : groupStream (groupBits s.codec) gs ++ (bitsOf (groupBits s.codec) g ++ bitsOf nbits.toNat acc.toNat) =
      byteStream b') :
    { s.emit (encLut s.codec g) with nbits := nbits, acc := acc, phase := ph }.Packs b' (gs ++ [g]) where
  inRange := List.forall_mem_append.mpr ⟨h.inRange, List.forall_mem_singleton.mpr hg⟩
  result := by
    rw [List.map_append, List.map_append]
    exact (s.emit_result (encLut s.codec g)).trans (congrArg (· ++ _) h.result)
  stream := by
    rw [groupStream_append, groupStream_singleton, List.append_assoc]
    exact hstream

/-- A byte appended to the window (R95). -/
theorem State.Packs.loadByte (h : s.Packs b gs) (hd : s.EncodeRunOk) : s.loadByte.Packs (b ++ [s.ibufAt s.ipos]) gs where
  inRange := h.inRange
  result := h.result
  stream := by
    have hx := bitsOf_mul_add (k := 8) s.nbits.toNat s.acc.toNat (s.ibufAt s.ipos).isLt
    rw [hd.loadByte_nbits, hd.loadByte_acc, byteStream_append, byteStream_singleton, ← h.stream, List.append_assoc]
    exact congrArg _ hx

/-- The loop of `E_RUN` moves groups from the window to the result, and keeps the bits (R95). -/
theorem State.Packs.drain (n : Nat) (h : s.Packs b gs) : ∃ gs', (State.drain n s).Packs b gs' := by
  induction n generalizing s gs with
  | zero => exact ⟨gs, h⟩
  | succ n ih =>
    rw [State.drain_succ]
    split
    · rename_i hge
      refine ih (h.emit (Nat.mod_lt _ (Nat.two_pow_pos _)) ?_)
      have hleft : (BitVec.ofNat 4 (s.nbits.toNat - groupBits s.codec)).toNat = s.nbits.toNat - groupBits s.codec :=
        Nat.mod_eq_of_lt (by have := s.nbits.isLt; omega)
      have hlow : (BitVec.ofNat 12 (s.acc.toNat % 2 ^ (s.nbits.toNat - groupBits s.codec))).toNat =
          s.acc.toNat % 2 ^ (s.nbits.toNat - groupBits s.codec) :=
        Nat.mod_eq_of_lt (lt_of_le_of_lt (Nat.mod_le _ _) s.acc.isLt)
      rw [hleft, hlow, bitsOf_mod, bitsOf_mod, Nat.shiftRight_eq_div_pow, ← bitsOf_add, Nat.add_sub_cancel' hge, h.stream]
    · exact ⟨gs, h⟩

/-- The counts of a running encode after the loop of `E_RUN` (R95, R41). -/
theorem State.EncodeRunOk.drain (h : s.EncodeRunOk) (hlt : s.ipos < s.ilen) : (State.drain 3 s.loadByte).EncodeRunOk := by
  obtain ⟨m, obuf, nbits, acc, e, hm, hlow, hacc, -⟩ := h.drain_loadByte
  obtain ⟨⟨hl, -, hpad, -⟩, hop, hsum, -⟩ := h
  rw [e]
  refine ⟨⟨hl, hlt, Nat.le_succ_of_le hpad, hacc⟩, hop, ?_, hlow⟩
  change groupBits s.codec * (s.olen + m) + nbits.toNat = 8 * (s.ipos + 1)
  rw [Nat.mul_add]
  omega

/-- What an encode has emitted after `E_FLUSH`: the symbols of all groups, the short final chunk filled with zero bits
(R74, R96). -/
theorem State.Packs.stepEFlush_result (h : s.Packs b gs) (hn : s.nbits.toNat < groupBits s.codec) :
    s.stepEFlush.result = ((pack (groupBits s.codec) b).map (encLut s.codec)).map some := by
  have hk := groupBits_pos s.codec
  by_cases h0 : s.nbits = 0
  · have hpack : pack (groupBits s.codec) b = gs := by
      refine pack_of_stream_zeros (z := 0) h.inRange hk ?_
      rw [List.replicate_zero, List.append_nil, ← h.stream, h0]
      exact (List.append_nil _).symm
    rw [State.stepEFlush_empty h0, hpack]
    exact h.result
  · have hflush : s.flushValue < 2 ^ groupBits s.codec := Nat.mod_lt _ (Nat.two_pow_pos _)
    have hbits : bitsOf (groupBits s.codec) s.flushValue =
        bitsOf s.nbits.toNat s.acc.toNat ++ List.replicate (groupBits s.codec - s.nbits.toNat) false := by
      have hzeros := bitsOf_mul_add s.nbits.toNat s.acc.toNat (Nat.two_pow_pos (groupBits s.codec - s.nbits.toNat))
      rwa [Nat.add_sub_cancel' hn.le, Nat.add_zero, bitsOf_zero_value, ← bitsOf_mod] at hzeros
    have hpack : pack (groupBits s.codec) b = gs ++ [s.flushValue] := by
      refine pack_of_stream_zeros (z := groupBits s.codec - s.nbits.toNat) ?_ ?_ ?_
      · exact List.forall_mem_append.mpr ⟨h.inRange, List.forall_mem_singleton.mpr hflush⟩
      · have : s.nbits.toNat ≠ 0 := fun e => h0 (BitVec.eq_of_toNat_eq e)
        omega
      · rw [groupStream_append, groupStream_singleton, hbits, ← List.append_assoc, h.stream]
    rw [State.stepEFlush_chunk h0, hpack, List.map_append, List.map_append]
    exact (s.emit_result _).trans (congrArg (· ++ _) h.result)

end

/-- What `E_FLUSH` leaves alone (R96). -/
theorem State.stepEFlush_frame (s : State) :
    s.stepEFlush.background = s.background ∧ s.stepEFlush.status = s.status ∧ s.stepEFlush.codec = s.codec ∧
      s.stepEFlush.phase = .ePad := by
  by_cases h : s.nbits = 0
  · rw [State.stepEFlush_empty h]
    exact ⟨rfl, rfl, rfl, rfl⟩
  · rw [State.stepEFlush_chunk h]
    exact ⟨rfl, rfl, rfl, rfl⟩

theorem padGen_eq_zero_iff (c : Codec) (n : Nat) : padGen (blockSize c) n = 0 ↔ n % blockSize c = 0 := by
  cases c <;> simp only [padGen, blockSize] <;> omega

/-- Each pad is one of those still to come (R76). -/
theorem padGen_succ {c : Codec} {n : Nat} (h : n % blockSize c ≠ 0) :
    padGen (blockSize c) (n + 1) + 1 = padGen (blockSize c) n := by
  cases c <;> simp only [padGen, blockSize] at h ⊢ <;> omega

/-! ### The phases of an encode, the last one first -/

section
variable {s z a : State} {b : List Byte} {gs : List Nat}

/-- `E_PAD`: one step for each pad, and one to complete (R97, R103). -/
theorem State.Tracks.runsTo_ePad (h : s.Tracks z) (hp : s.phase = .ePad) (ha : a.Completes z 0x02) {q : Nat}
    (hq : padGen (blockSize s.codec) s.olen = q) (hr : a.result = s.result ++ List.replicate q (some padChar)) :
    s.RunsTo (q + 1) a := by
  induction q generalizing s with
  | zero =>
    have hmod := (padGen_eq_zero_iff s.codec s.olen).mp hq
    refine h.step ?_
    rw [State.coreStep_ePad hp, State.stepEPad_end hmod]
    exact h.complete.runsTo ha (by decide) (by rw [hr]; exact (List.append_nil _).symm)
  | succ q ih =>
    have hmod : s.olen % blockSize s.codec ≠ 0 := fun e => by simp [(padGen_eq_zero_iff _ _).mpr e] at hq
    refine h.step ?_
    rw [State.coreStep_ePad hp, State.stepEPad_pad hmod]
    refine ih (h.next rfl rfl) hp ?_ ?_
    · have := padGen_succ hmod
      rw [hq] at this
      exact Nat.succ.inj this
    · rw [hr, s.emit_result, List.replicate_succ, List.append_assoc]
      rfl

/-- `E_FLUSH`: one step (R96, R103). -/
theorem State.Tracks.runsTo_eFlush (h : s.Tracks z) (hp : s.phase = .eFlush) (ha : a.Completes z 0x02)
    (hpack : s.Packs b gs) (hn : s.nbits.toNat < groupBits s.codec) (hr : a.result = (encodeBytes s.codec b).map some) :
    s.RunsTo (padGen (blockSize s.codec) (groupCount (groupBits s.codec) b.length) + 2) a := by
  have hres := hpack.stepEFlush_result hn
  have hlen : s.stepEFlush.olen = groupCount (groupBits s.codec) b.length := by
    rw [← State.result_length, hres, List.length_map, List.length_map, pack_length]
  obtain ⟨hb, hst, hc, hph⟩ := s.stepEFlush_frame
  refine h.step ?_
  rw [State.coreStep_eFlush hp]
  refine (h.next hb hst).runsTo_ePad hph ha (by rw [hlen, hc]) ?_
  rw [hr, hres, encodeBytes, List.map_append, List.map_replicate, pack_length]
  rfl

/-- `E_RUN`: one step for each byte, and one at the end of the input (R95, R103). -/
theorem State.Tracks.runsTo_eRun (h : s.Tracks z) (hp : s.phase = .eRun) (ha : a.Completes z 0x02)
    (hpack : s.Packs (s.input.take s.ipos) gs) (hd : s.EncodeRunOk) (hr : a.result = (encodeBytes s.codec s.input).map some) 
    {r : Nat} (hleft : s.ilen - s.ipos = r) :
    s.RunsTo (r + padGen (blockSize s.codec) (groupCount (groupBits s.codec) s.ilen) + 3) a := by
  induction r generalizing s gs with
  | zero =>
    refine h.step ?_
    have hge : ¬ s.ipos < s.ilen := by omega
    rw [State.coreStep_eRun hp, State.stepERun_of_end hge]
    rw [List.take_of_length_le (by rw [s.input_length]; omega)] at hpack
    obtain ⟨-, -, -, hlow⟩ := hd
    have hrun := State.Tracks.runsTo_eFlush (s := { s with phase := .eFlush }) (h.next rfl rfl) rfl ha
      ⟨hpack.inRange, hpack.result, hpack.stream⟩ hlow hr
    rw [s.input_length] at hrun
    rw [Nat.zero_add]
    exact hrun
  | succ r ih =>
    have hlt : s.ipos < s.ilen := by omega
    obtain ⟨gs', hpack'⟩ := (hpack.loadByte hd).drain 3
    obtain ⟨obuf, olen, nbits, acc, e⟩ := State.drain_eq 3 s.loadByte
    have hd' := hd.drain hlt
    have htake : s.input.take s.ipos ++ [s.ibufAt s.ipos] = s.input.take (s.ipos + 1) := by
      rw [List.take_add_one, State.input_getElem? hlt]
      rfl
    rw [htake] at hpack'
    rw [show r + 1 + padGen (blockSize s.codec) (groupCount (groupBits s.codec) s.ilen) + 3 =
      r + padGen (blockSize s.codec) (groupCount (groupBits s.codec) s.ilen) + 3 + 1 by omega]
    refine h.step ?_
    rw [State.coreStep_eRun hp, State.stepERun_of_lt hlt]
    rw [e] at hpack' hd' ⊢
    exact ih (h.next rfl rfl) hp hpack' hd' hr (by show s.ilen - (s.ipos + 1) = r; omega)

end

/-- The architectural result of an encode (R105, R109). -/
theorem State.archEncode_completes (z : State) (c : Codec) :
    (z.archEncode c).Completes z 0x02 ∧ (z.archEncode c).result = (encodeBytes c z.input).map some :=
  ⟨⟨rfl, statusWord_done, rfl⟩, State.result_writeSeq _ _ rfl rfl⟩

/-- Settles O26: the phases of an encode, one after the other. -/
theorem encodeMicroStepsRefineTheArchitecture : Obligations.EncodeMicroStepsRefineTheArchitecture := by
  intro c s hb hv hp hl
  refine refines_of_runsTo hb hv hl ?_
  obtain ⟨ha, hr⟩ := ((s.atLevel .architectural).accepted c .encode).archEncode_completes c
  rw [State.start_encode]
  have htracks : (s.started c .encode .eRun).Tracks ((s.atLevel .architectural).accepted c .encode) := ⟨rfl, rfl, hp⟩
  have hd : (s.started c .encode .eRun).EncodeRunOk :=
    ⟨⟨hl, Nat.zero_le _, le_refl _, Nat.one_pos⟩, s.accepted_opBits c .encode, rfl, groupBits_pos _⟩
  have hpack : (s.started c .encode .eRun).Packs [] [] := ⟨nofun, rfl, rfl⟩
  have hc : (s.started c .encode .eRun).codec = c := s.accepted_codec c .encode
  have hrun := htracks.runsTo_eRun rfl ha hpack hd (by rw [hc]; exact hr) rfl
  rw [hc] at hrun
  exact hrun

end Sys2Proof.Machine
end

section
/-! SUPPORT. A decode and a validate by the bit: the bytes written and the bits held always spell the symbols read. -/

namespace Sys2Proof.Machine

/-! ### The bytes written and the bits held spell the symbols read -/

/-- What a decode has for its result after the bytes `out`; a validate has none (R98). -/
def State.written (s : State) (out : List Byte) : List (Option Byte) :=
  if s.opBits = Op.decode.bits then out.map some else []

/-- A decode or a validate has read the groups `gs`: their bitstream is the whole bytes `out`, which a decode has written, and
the bits it holds (R82, R98). -/
structure State.Unpacks (s : State) (gs : List Nat) (out : List Byte) : Prop where
  inRange : ∀ g ∈ gs, g < 2 ^ groupBits s.codec
  stream : groupStream (groupBits s.codec) gs = byteStream out ++ bitsOf s.nbits.toNat s.acc.toNat
  nbits_lt : s.nbits.toNat < 8
  acc_lt : s.acc.toNat < 2 ^ s.nbits.toNat
  result : s.result = s.written out

section
variable {s : State} {gs : List Nat} {out : List Byte}

theorem State.written_decode (h : s.opBits = Op.decode.bits) : s.written out = out.map some := if_pos h

theorem State.written_of_ne (h : s.opBits ≠ Op.decode.bits) : s.written out = [] := if_neg h

theorem State.Unpacks.unpack_eq (h : s.Unpacks gs out) :
    unpack (groupBits s.codec) gs = (out, bitsOf s.nbits.toNat s.acc.toNat) :=
  unpack_eq_of_stream (by rw [bitsOf_length]; exact h.nbits_lt) h.stream

/-- The bits held at the end are the trailing bits (R99). -/
theorem State.Unpacks.acc_eq_zero_iff (h : s.Unpacks gs out) :
    s.acc = 0 ↔ valueOf (unpack (groupBits s.codec) gs).2 = 0 := by
  rw [h.unpack_eq, valueOf_bitsOf, Nat.mod_eq_of_lt h.acc_lt]
  exact ⟨fun e => e ▸ rfl, fun e => BitVec.eq_of_toNat_eq e⟩

/-- One more group always fits the window (R41). -/
theorem State.Unpacks.window_fits (h : s.Unpacks gs out) : s.nbits.toNat + groupBits s.codec ≤ 12 := by
  have hlen := congrArg List.length h.stream
  have hn := h.nbits_lt
  simp only [groupStream_length, List.length_append, byteStream_length, bitsOf_length] at hlen
  rcases groupBits_cases s.codec with hk | hk <;> rw [hk] at hlen ⊢ <;> omega

/-- The window with a symbol value appended spells the groups read (R98). -/
theorem State.Unpacks.window_stream (h : s.Unpacks gs out) {v : Nat} (hv : v < 2 ^ groupBits s.codec) :
    groupStream (groupBits s.codec) (gs ++ [v]) =
      byteStream out ++ bitsOf (s.nbits.toNat + groupBits s.codec) (s.window v).toNat := by
  rw [State.window_toNat hv h.acc_lt h.window_fits, bitsOf_mul_add _ _ hv, groupStream_append, groupStream_singleton,
    h.stream, List.append_assoc]

/-- The window is kept whole where it is no longer than its bits. -/
theorem State.keepWindow_of_lt {w : BitVec 12} {n : Nat} (h : w.toNat < 2 ^ n) :
    s.keepWindow w.toNat n = { s with acc := w, nbits := BitVec.ofNat 4 n, ipos := s.ipos + 1 } := by
  rw [State.keepWindow, Nat.mod_eq_of_lt h, BitVec.ofNat_toNat, BitVec.setWidth_eq]

/-- The low bits of the window are held, after what was written of it (R98). -/
theorem State.Unpacks.keepWindow {w : BitVec 12} {n : Nat} (hn : n < 8) (hrange : ∀ g ∈ gs, g < 2 ^ groupBits s.codec)
    (hstream : groupStream (groupBits s.codec) gs = byteStream out ++ bitsOf n w.toNat)
    (hres : s.result = s.written out) : (s.keepWindow w.toNat n).Unpacks gs out := by
  have hbits : (s.keepWindow w.toNat n).nbits.toNat = n :=
    State.keepWindow_nbits _ (lt_trans hn (by decide))
  have hacc : (s.keepWindow w.toNat n).acc.toNat = w.toNat % 2 ^ n := State.keepWindow_acc _ _
  refine ⟨hrange, ?_, hbits.trans_lt hn, ?_, hres⟩
  · rw [hbits, hacc, bitsOf_mod]
    exact hstream
  · rw [hbits, hacc]
    exact Nat.mod_lt _ (Nat.two_pow_pos n)

/-- Taking a symbol (R98): a whole byte leaves the window, the rest is kept. -/
theorem State.Unpacks.takeSymbol (h : s.Unpacks gs out) {v : Nat} (hv : v < 2 ^ groupBits s.codec) :
    ∃ out', (s.takeSymbol v).Unpacks (gs ++ [v]) out' := by
  have hfits := h.window_fits
  have hwindow := h.window_stream hv
  have hrange : ∀ g ∈ gs ++ [v], g < 2 ^ groupBits s.codec :=
    List.forall_mem_append.mpr ⟨h.inRange, List.forall_mem_singleton.mpr hv⟩
  rcases Nat.lt_or_ge (s.nbits.toNat + groupBits s.codec) 8 with hlt | hge
  · have hlow : (s.window v).toNat < 2 ^ (s.nbits.toNat + groupBits s.codec) := by
      rw [State.window_toNat hv h.acc_lt hfits]
      exact window_lt h.acc_lt hv
    rw [State.takeSymbol_short hlt, ← State.keepWindow_of_lt hlow]
    exact ⟨out, .keepWindow hlt hrange hwindow h.result⟩
  · rw [State.takeSymbol_byte hge]
    generalize hx : BitVec.ofNat 8 ((s.window v).toNat / 2 ^ (s.nbits.toNat + groupBits s.codec - 8)) = x
    have hbyte : groupStream (groupBits s.codec) (gs ++ [v]) =
        byteStream (out ++ [x]) ++ bitsOf (s.nbits.toNat + groupBits s.codec - 8) (s.window v).toNat := by
      have hcut := bitsOf_add 8 (s.nbits.toNat + groupBits s.codec - 8) (s.window v).toNat
      rw [Nat.add_sub_cancel' hge, ← bitsOf_mod 8, ← BitVec.toNat_ofNat, hx] at hcut
      rw [hwindow, hcut, byteStream_append, byteStream_singleton, List.append_assoc]
    have hn : s.nbits.toNat + groupBits s.codec - 8 < 8 := by omega
    split
    · rename_i hop
      refine ⟨out ++ [x], .keepWindow hn hrange hbyte ?_⟩
      rw [s.emit_result, h.result, State.written_decode hop, State.written_decode (s := s.emit x) hop, List.map_append]
      rfl
    · rename_i hop
      refine ⟨out ++ [x], .keepWindow hn hrange hbyte ?_⟩
      rw [h.result, State.written_of_ne hop, State.written_of_ne hop]

end

/-- What taking a symbol leaves alone (R98). -/
theorem State.takeSymbol_frame (s : State) (v : Nat) :
    (s.takeSymbol v).background = s.background ∧ (s.takeSymbol v).status = s.status ∧ (s.takeSymbol v).phase = s.phase ∧
      (s.takeSymbol v).npad = s.npad ∧ (s.takeSymbol v).ipos = s.ipos + 1 := by
  rcases Nat.lt_or_ge (s.nbits.toNat + groupBits s.codec) 8 with hlt | hge
  · rw [State.takeSymbol_short hlt]
    exact ⟨rfl, rfl, rfl, rfl, rfl⟩
  · rw [State.takeSymbol_byte hge]
    split <;> exact ⟨rfl, rfl, rfl, rfl, rfl⟩

end Sys2Proof.Machine
end

section
/-! SUPPORT. The refinement of the decodes and the validates: the scan, its failures and its end. -/

namespace Sys2Proof.Machine

/-! ### What the architecture makes of a string, by the outcome of `CHECK` -/

section
variable {c : Codec} {z : State}

/-- The architectural end of a decode or a validate on the accepted block (R106, R107). -/
theorem State.archDecode_fail {cause : Cause} {pos : Nat} (h : checkString c z.input = .fail cause pos) :
    z.archDecode c = z.raiseInvalidEncoding cause pos := by
  simp only [State.archDecode, decodeString, h]

theorem State.archDecode_ok {out : List Byte} (h : decodeString c z.input = .bytes out) :
    (z.archDecode c).Completes z 0x02 ∧ (z.archDecode c).result = out.map some := by
  simp only [State.archDecode, h]
  exact ⟨⟨rfl, statusWord_done, rfl⟩, State.result_writeSeq _ _ rfl rfl⟩

theorem State.archValidate_completes : (z.archValidate c).Completes z (if isValid c z.input then 0x0A else 0x02) :=
  ⟨rfl, statusWord_valid _, rfl⟩

/-- The exception takes its error information from the parameters and the counter of free values, and leaves the same
results on every block of one background (R100, R121). -/
theorem State.raiseInvalidEncoding_sameResults {s z : State} (hb : s.background = z.background)
    (hs : s.status = 0x00 ∨ s.status = 0x01) (hz : z.status = 0x00 ∨ z.status = 0x01) (cause : Cause) (pos : Nat) :
    (s.raiseInvalidEncoding cause pos).SameResults (z.raiseInvalidEncoding cause pos) := by
  have hback (t : State) : (t.raiseInvalidEncoding cause pos).background =
      (t.background.raiseInvalidEncoding cause pos).background := by
    have herr : t.background.params.errInfo = t.params.errInfo := rfl
    simp only [State.raiseInvalidEncoding, State.saveErrInfo, herr]
    cases t.params.errInfo <;> rfl
  have hend (t : State) (ht : t.status = 0x00 ∨ t.status = 0x01) : (t.raiseInvalidEncoding cause pos).status = 0x06 ∧
      (t.raiseInvalidEncoding cause pos).phase = .idle ∧ (t.raiseInvalidEncoding cause pos).result = [] := by
    obtain ⟨ec, ep, dr, e, -⟩ := t.raiseInvalidEncoding_spec cause pos
    rw [e, fail_word ht]
    exact ⟨rfl, rfl, rfl⟩
  obtain ⟨hst, hp, hr⟩ := hend s hs
  obtain ⟨hst', hp', hr'⟩ := hend z hz
  exact .of_background (by rw [hback s, hb, ← hback z]) (hst.trans hst'.symm) (hp.trans hp'.symm) (hr.trans hr'.symm)

end

/-! ### How a scan ends -/

theorem scan_pads_append (c : Codec) (i p n : Nat) (rest : List Byte) :
    scan c i p (List.replicate n padChar ++ rest) = scan c (i + n) (p + n) rest := by
  induction n generalizing i p with
  | zero => rfl
  | succ n ih =>
    rw [List.replicate_succ, List.cons_append, scan, if_pos rfl, ih, Nat.add_right_comm, Nat.add_right_comm p]
    rfl

section
variable {c : Codec} {str : List Byte} (hl : str.length % blockSize c = 0)
include hl

theorem checkString_of_scan_fail {cause : Cause} {pos : Nat} (h : scan c 0 0 str = .fail cause pos) :
    checkString c str = .fail cause pos := by
  simp only [checkString, hl, h]
  rfl

theorem scanSteps_of_fail {cause : Cause} {pos : Nat} (h : scan c 0 0 str = .fail cause pos) :
    scanSteps c str = pos + 1 := by
  simp only [scanSteps, hl, h]
  rfl

theorem scanSteps_of_pads {p : Nat} (h : scan c 0 0 str = .pads p) : scanSteps c str = str.length + 2 := by
  simp only [scanSteps, hl, h]
  rfl

end

section
variable {c : Codec} {op : Op} {s s₀ : State}

/-- A failing check ends the command as the architecture does (R100, R106, R107). -/
theorem State.runsTo_failCheck (hop : op ≠ .encode) (hb : s.background = (s₀.accepted c op).background)
    (hst : s.status = 0x00 ∨ s.status = 0x01) (hr : op = .validate → s.result = []) {cause : Cause} {pos : Nat}
    (h : checkString c s₀.input = .fail cause pos) :
    (s.failCheck cause pos).RunsTo 0 (s₀.clear.archCommand c op) := by
  have hbits : s.opBits = op.bits := (congrArg State.opBits hb :).trans (s₀.accepted_opBits c op)
  cases op with
  | encode => exact absurd rfl hop
  | decode =>
    rw [State.failCheck_decode _ _ hbits]
    have ha : s₀.clear.archCommand c .decode = (s₀.accepted c .decode).raiseInvalidEncoding cause pos :=
      State.archDecode_fail h
    rw [ha]
    exact .zero (State.complete_ended _).2 (State.raiseInvalidEncoding_sameResults hb hst (.inl rfl) cause pos)
  | validate =>
    rw [State.failCheck_validate _ _ hbits]
    have ha := (s₀.accepted c .validate).archValidate_completes (c := c)
    have hv : isValid c s₀.input = false := by rw [isValid, h]
    rw [State.accepted_input, hv, if_neg (by decide)] at ha
    exact (State.complete_completes hb hst).runsTo ha (by decide) (hr rfl)

/-- A decode or a validate in the middle of the string `s₀.input`: it has read the symbols of `gs` and then `NPAD` pads, and
`rest` is left (R98). -/
structure State.Scanning (s s₀ : State) (c : Codec) (op : Op) (gs : List Nat) (rest : List Byte) : Prop where
  tracks : s.Tracks (s₀.accepted c op)
  unpacks : ∃ out, s.Unpacks gs out
  input : s₀.input = gs.map (encLut c) ++ (List.replicate s.npad padChar ++ rest)
  ipos : s.ipos = gs.length + s.npad

variable {gs : List Nat} {rest : List Byte}

theorem State.Scanning.codec (h : s.Scanning s₀ c op gs rest) : s.codec = c :=
  h.tracks.codec.trans (s₀.accepted_codec c op)

theorem State.Scanning.opBits (h : s.Scanning s₀ c op gs rest) : s.opBits = op.bits :=
  h.tracks.opBits.trans (s₀.accepted_opBits c op)

theorem State.Scanning.inRange (h : s.Scanning s₀ c op gs rest) : ∀ g ∈ gs, g < 2 ^ groupBits c := by
  obtain ⟨out, hout⟩ := h.unpacks
  exact h.codec ▸ hout.inRange

/-- What is read and what is left are the whole string. -/
theorem State.Scanning.ilen (h : s.Scanning s₀ c op gs rest) : s.ilen = s.ipos + rest.length := by
  have hlen := congrArg List.length h.input
  rw [← s₀.accepted_input c op, ← h.tracks.input, s.input_length] at hlen
  rw [hlen, h.ipos]
  simp only [List.length_append, List.length_map, List.length_replicate]
  omega

/-- The next character is the first that is left. -/
theorem State.Scanning.ibufAt {x : Byte} {xs : List Byte} (h : s.Scanning s₀ c op gs (x :: xs)) : s.ibufAt s.ipos = x := by
  have hlt : s.ipos < s.ilen := by rw [h.ilen, List.length_cons]; omega
  have hx := State.input_getElem? hlt
  rw [h.tracks.input, s₀.accepted_input, h.input, h.ipos, ← List.append_assoc,
    List.getElem?_append_right (by simp)] at hx
  rw [h.ipos]
  simpa using hx.symm

/-- What the scan of `CHECK` has found at this place. -/
theorem State.Scanning.scan_eq (h : s.Scanning s₀ c op gs rest) : scan c 0 0 s₀.input = scan c s.ipos s.npad rest := by
  rw [h.input, scan_symbols _ _ _ fun _ => mem_symbols h.inRange, scan_pads_append, List.length_map, h.ipos]
  simp only [Nat.zero_add]

theorem State.Scanning.result (h : s.Scanning s₀ c op gs rest) : op = .validate → s.result = [] := by
  rintro rfl
  obtain ⟨out, hout⟩ := h.unpacks
  rw [hout.result, State.written_of_ne (by rw [h.opBits]; decide)]

/-- A failing check on the way ends the command as the architecture does. -/
theorem State.Scanning.runsTo_fail (h : s.Scanning s₀ c op gs rest) (hop : op ≠ .encode) {cause : Cause} {pos : Nat}
    (hcheck : checkString c s₀.input = .fail cause pos) (hstep : s.coreStep = s.failCheck cause pos) :
    s.RunsTo 1 (s₀.clear.archCommand c op) := by
  refine h.tracks.step ?_
  rw [hstep]
  exact State.runsTo_failCheck hop h.tracks.background (.inr h.tracks.status) h.result hcheck

/-- A string that passes: the bytes of a decode, the answer 1 of a validate (R99, R101, R106, R107). -/
theorem State.Scanning.runsTo_pass (h : s.Scanning s₀ c op gs []) (hop : op ≠ .encode) (hp : s.phase = .dFinal)
    (hpad : s.npad ∈ padSet c) (hacc : s.acc = 0) (hcheck : checkString c s₀.input = .ok gs.length s.npad) :
    s.RunsTo 1 (s₀.clear.archCommand c op) := by
  have hbits := h.opBits
  have hpad' : s.npad ∈ padSet s.codec := by rwa [h.codec]
  have hin := h.input
  rw [List.append_nil] at hin
  refine h.tracks.step ?_
  rw [State.coreStep_dFinal hp]
  cases op with
  | encode => exact absurd rfl hop
  | decode =>
    obtain ⟨out, hout⟩ := h.unpacks
    have hdec : decodeString c s₀.input = .bytes out := by
      have hunpack := hout.unpack_eq
      rw [h.codec] at hunpack
      rw [hin] at hcheck ⊢
      rw [decodeString_groups h.inRange hcheck, hunpack]
    obtain ⟨ha, hr⟩ := State.archDecode_ok (z := s₀.accepted c .decode) hdec
    rw [State.stepDFinal_decode hpad' hacc hbits]
    exact h.tracks.complete.runsTo ha (by decide) ((hout.result.trans (State.written_decode hbits)).trans hr.symm)
  | validate =>
    have ha := (s₀.accepted c .validate).archValidate_completes (c := c)
    have hv : isValid c s₀.input = true := isValid_eq_true.mpr ⟨_, _, hcheck⟩
    rw [State.accepted_input, hv, if_pos rfl] at ha
    rw [State.stepDFinal_validate hpad' hacc hbits, State.complete_valid h.tracks.status]
    have hend : State.Completes { s with status := 0x0A, phase := .idle } (s₀.accepted c .validate) 0x0A :=
      ⟨h.tracks.background, rfl, rfl⟩
    exact hend.runsTo ha (by decide) (h.result rfl)

/-- `D_FINAL`: one step, which makes the last two checks of `CHECK` (R81, R99, R103). -/
theorem State.Scanning.runsTo_dFinal (h : s.Scanning s₀ c op gs []) (hop : op ≠ .encode) (hp : s.phase = .dFinal)
    (hblocks : s₀.ilen % blockSize c = 0) : s.RunsTo 1 (s₀.clear.archCommand c op) := by
  have hin := h.input
  rw [List.append_nil] at hin
  have hlen : s₀.ilen = gs.length + s.npad := by
    rw [← s₀.input_length, hin, List.length_append, List.length_map, List.length_replicate]
  have hilen : s.ilen = gs.length + s.npad := h.tracks.ilen.trans hlen
  rw [hlen] at hblocks
  have hcheck := checkString_groups h.inRange hblocks
  obtain ⟨out, hout⟩ := h.unpacks
  have hacc := hout.acc_eq_zero_iff
  rw [h.codec] at hacc
  rw [← hin] at hcheck
  by_cases hpad : s.npad ∈ padSet c
  · rw [if_neg (not_not.mpr hpad)] at hcheck
    by_cases ha : s.acc = 0
    · rw [if_neg (not_not.mpr (hacc.mp ha))] at hcheck
      exact h.runsTo_pass hop hp hpad ha hcheck
    · rw [if_pos (fun e => ha (hacc.mpr e))] at hcheck
      refine h.runsTo_fail hop hcheck ?_
      rw [State.coreStep_dFinal hp, State.stepDFinal_trailing (by rwa [h.codec]) ha, hilen, Nat.add_sub_cancel]
  · rw [if_pos hpad] at hcheck
    refine h.runsTo_fail hop hcheck ?_
    rw [State.coreStep_dFinal hp, State.stepDFinal_padCount (by rwa [h.codec]), hilen, Nat.add_sub_cancel]

/-! ### The steps of a scan -/

/-- A pad is counted (R98). -/
theorem State.Scanning.pad {xs : List Byte} (h : s.Scanning s₀ c op gs (padChar :: xs)) :
    State.Scanning { s with npad := s.npad + 1, ipos := s.ipos + 1 } s₀ c op gs xs where
  tracks := h.tracks.next rfl rfl
  unpacks := by
    obtain ⟨out, hout⟩ := h.unpacks
    exact ⟨out, hout.inRange, hout.stream, hout.nbits_lt, hout.acc_lt, hout.result⟩
  input := by
    rw [h.input, List.replicate_succ', List.append_assoc]
    rfl
  ipos := congrArg Nat.succ h.ipos

/-- A symbol is taken where no pad came before (R98). -/
theorem State.Scanning.symbol {x : Byte} {xs : List Byte} (h : s.Scanning s₀ c op gs (x :: xs)) {v : Nat}
    (hv : decLut c x = some v) (hn : s.npad = 0) : (s.takeSymbol v).Scanning s₀ c op (gs ++ [v]) xs := by
  obtain ⟨hb, hst, -, hpad, hpos⟩ := s.takeSymbol_frame v
  obtain ⟨hlt, hx⟩ := decLut_eq_some hv
  obtain ⟨out, hout⟩ := h.unpacks
  refine ⟨h.tracks.next hb hst, hout.takeSymbol (by rwa [h.codec]), ?_, ?_⟩
  · rw [h.input, hpad, hn, List.map_append, List.map_singleton, hx, List.append_assoc]
    rfl
  · rw [hpos, hpad, h.ipos, hn, List.length_append, List.length_singleton]

/-- `D_RUN`: one step for each character up to the first violation, and one at the end of the string (R98, R103). -/
theorem State.Scanning.runsTo_dRun (h : s.Scanning s₀ c op gs rest) (hop : op ≠ .encode) (hp : s.phase = .dRun)
    (hblocks : s₀.ilen % blockSize c = 0) :
    ∃ n, n + s.ipos = scanSteps c s₀.input ∧ s.RunsTo n (s₀.clear.archCommand c op) := by
  have hl : s₀.input.length % blockSize c = 0 := by rwa [s₀.input_length]
  have hscan := h.scan_eq
  induction rest generalizing s gs with
  | nil =>
    have hend : s.ilen = s.ipos := h.ilen
    have hlen : s.ilen = s₀.input.length := h.tracks.ilen.trans s₀.input_length.symm
    refine ⟨2, by rw [scanSteps_of_pads hl hscan, ← hlen, hend, Nat.add_comm], h.tracks.step ?_⟩
    rw [State.coreStep_dRun hp, State.stepDRun_end (by omega)]
    have hnext : State.Scanning { s with phase := .dFinal } s₀ c op gs [] := by
      obtain ⟨out, hout⟩ := h.unpacks
      exact ⟨h.tracks.next rfl rfl, ⟨out, hout.inRange, hout.stream, hout.nbits_lt, hout.acc_lt, hout.result⟩,
        h.input, h.ipos⟩
    exact hnext.runsTo_dFinal hop rfl hblocks
  | cons x xs ih =>
    have hlt : s.ipos < s.ilen := by rw [h.ilen, List.length_cons]; omega
    have hx := h.ibufAt
    have hstop {cause : Cause} (hfail : scan c 0 0 s₀.input = .fail cause s.ipos)
        (hstep : s.stepDRun = s.failCheck cause s.ipos) :
        ∃ n, n + s.ipos = scanSteps c s₀.input ∧ s.RunsTo n (s₀.clear.archCommand c op) :=
      ⟨1, by rw [scanSteps_of_fail hl hfail, Nat.add_comm],
        h.runsTo_fail hop (checkString_of_scan_fail hl hfail) ((State.coreStep_dRun hp).trans hstep)⟩
    have hgo {t : State} {gs' : List Nat} (hstep : s.stepDRun = t) (ht : t.Scanning s₀ c op gs' xs) (hph : t.phase = .dRun)
        (hpos : t.ipos = s.ipos + 1) :
        ∃ n, n + s.ipos = scanSteps c s₀.input ∧ s.RunsTo n (s₀.clear.archCommand c op) := by
      obtain ⟨n, hn, hrun⟩ := ih ht hph ht.scan_eq
      refine ⟨n + 1, by omega, h.tracks.step ?_⟩
      rwa [State.coreStep_dRun hp, hstep]
    rw [scan] at hscan
    by_cases hpad : x = padChar
    · subst hpad
      exact hgo (State.stepDRun_pad hlt hx) h.pad hp rfl
    · rw [if_neg hpad] at hscan
      rw [← hx] at hpad
      cases hv : decLut c x with
      | none =>
        simp only [unmapSymbol, hv] at hscan
        exact hstop hscan (State.stepDRun_char hlt hpad (by rw [hx, h.codec, hv]))
      | some v =>
        simp only [unmapSymbol, hv] at hscan
        have hsym : decLut s.codec (s.ibufAt s.ipos) = some v := by rw [hx, h.codec, hv]
        rcases Nat.eq_zero_or_pos s.npad with hn | hn
        · obtain ⟨-, -, hph, -, hpos⟩ := s.takeSymbol_frame v
          exact hgo (State.stepDRun_symbol hlt hpad hsym hn) (h.symbol hv hn) (hph.trans hp) hpos
        · rw [if_pos hn] at hscan
          exact hstop hscan (State.stepDRun_padOrder hlt hpad (by simp [hsym]) hn)

end

/-- Settles O27: the length check, then the scan. -/
theorem decodeMicroStepsRefineTheArchitecture : Obligations.DecodeMicroStepsRefineTheArchitecture := by
  intro c op s hop hb hv hp hl
  refine refines_of_runsTo hb hv hl ?_
  have hinput : (s.atLevel .architectural).input = s.input := rfl
  by_cases hm : s.ilen % blockSize c = 0
  · have hscanning : (s.started c op .dRun).Scanning (s.atLevel .architectural) c op [] s.input :=
      { tracks := ⟨rfl, rfl, hp⟩
        unpacks := ⟨[], nofun, rfl, Nat.zero_lt_succ 7, Nat.one_pos, by unfold State.written; split <;> rfl⟩
        input := rfl
        ipos := rfl }
    obtain ⟨n, hn, hrun⟩ := hscanning.runsTo_dRun hop rfl hm
    rw [State.start_scan hop hm]
    rw [hinput] at hn
    exact hn ▸ hrun
  · have hsteps : scanSteps c s.input = 0 := if_pos (by rwa [s.input_length])
    have hcheck : checkString c s.input = .fail .length s.ilen := by
      rw [checkString, if_pos (by rwa [s.input_length]), s.input_length]
    rw [State.start_length hop hm, hsteps]
    exact State.runsTo_failCheck (s := s.accepted c op) (s₀ := s.atLevel .architectural) hop rfl (.inl rfl)
      (fun _ => rfl) hcheck

end Sys2Proof.Machine
end

section
/-! SUPPORT. The results of the commands as transactions, for either codec, and the statements about Base32. -/

namespace Sys2Proof.Machine

/-! ### The transaction of an accepted command -/

section
variable {s : State}

theorem exec_architectural (hb : s.busy = false) (hl : s.ilen ≤ s.params.inCap) (hv : s.params.level = .architectural)
    (c : Codec) (op : Op) : exec (commandInstr c op) s = .next (s.clear.archCommand c op) := by
  rw [exec_commandInstr, State.runCommand_architectural c op hb hl hv]

/-- A command that completes leaves the input alone and, by the clear, no error information (R33, R101). -/
theorem State.Completes.of_accepted {c : Codec} {op : Op} {t : State} {w : Byte} (h : t.Completes (s.accepted c op) w) :
    t.errCause = 0 ∧ t.errPos = 0 ∧ t.phase = .idle ∧ t.ibuf = s.ibuf ∧ t.ilen = s.ilen :=
  ⟨(congrArg State.errCause h.background :), (congrArg State.errPos h.background :), h.phase,
    (congrArg State.ibuf h.background :), (congrArg State.ilen h.background :)⟩

/-! ### The two outcomes of a decode -/

/-- A decode that `CHECK` accepts completes with the whole bytes of its symbols (R83, R84). -/
theorem State.accepted_archDecode_ok {c : Codec} {d p : Nat} (h : checkString c s.input = .ok d p) :
    ∃ out, decodeString c s.input = .bytes out ∧
      ((s.accepted c .decode).archDecode c).Completes (s.accepted c .decode) 0x02 ∧
      ((s.accepted c .decode).archDecode c).result = out.map some ∧
      ((s.accepted c .decode).archDecode c).olen = groupBits c * d / 8 ∧ d = s.ilen - p := by
  obtain ⟨out, hdec⟩ : ∃ out, decodeString c s.input = .bytes out := ⟨_, decodeString_eq_bytes.mpr ⟨d, p, h, rfl⟩⟩
  obtain ⟨hcomp, hres⟩ := State.archDecode_ok (z := s.accepted c .decode) hdec
  obtain ⟨hlen, hsum, -, -⟩ := decodedLength c s.input out d p h hdec
  rw [s.input_length] at hsum
  refine ⟨out, hdec, hcomp, hres, ?_, by omega⟩
  rw [← State.result_length, hres, List.length_map, hlen]

/-- A decode that `CHECK` rejects takes the exception on the cleared block (R119, R121). -/
theorem State.accepted_archDecode_fail {c : Codec} {cause : Cause} {pos : Nat}
    (h : checkString c s.input = .fail cause pos) :
    ∃ (ec : BitVec 3) (ep dr : Nat), (s.accepted c .decode).archDecode c =
        { s.accepted c .decode with errCause := ec, errPos := ep, draws := dr, status := 0x06, phase := .idle } ∧
      1 ≤ ec.toNat ∧ ec.toNat ≤ 5 ∧ (s.params.errInfo = .reference → ec = cause.code ∧ ep = pos) := by
  obtain ⟨ec, ep, dr, e, hlo, hhi, href⟩ := (s.accepted_underway c .decode).raiseInvalidEncoding_eq cause pos
  refine ⟨ec, ep, dr, ?_, hlo, hhi, fun hr => ?_⟩
  · rw [State.archDecode_fail (z := s.accepted c .decode) h, e]
    rfl
  · obtain ⟨hec, hep, -⟩ := href hr
    exact ⟨hec, hep⟩

/-! ### The result of each command, for either codec -/

/-- The result of an encode (R105, R109). -/
theorem exec_encode_result (c : Codec) (hb : s.busy = false) (hl : s.ilen ≤ s.params.inCap)
    (hv : s.params.level = .architectural) :
    ∃ t, exec (commandInstr c .encode) s = .next t ∧ t.result = (encodeBytes c s.input).map some ∧
      t.olen = blockSize c * ((s.ilen + blockBytes c - 1) / blockBytes c) ∧
      t.status = 0x02 ∧ t.errCause = 0 ∧ t.errPos = 0 ∧ t.phase = .idle ∧ t.ibuf = s.ibuf ∧ t.ilen = s.ilen := by
  obtain ⟨hcomp, hres⟩ := (s.accepted c .encode).archEncode_completes c
  refine ⟨_, exec_architectural hb hl hv c .encode, hres, ?_, hcomp.status, hcomp.of_accepted⟩
  show (encodeBytes c s.input).length = _
  rw [encodeBytes_length_eq, s.input_length]

/-- The result of a decode (R106, R110). -/
theorem exec_decode_result (c : Codec) (hb : s.busy = false) (hl : s.ilen ≤ s.params.inCap)
    (hv : s.params.level = .architectural) :
    ∃ t, exec (commandInstr c .decode) s = .next t ∧ t.phase = .idle ∧ t.ibuf = s.ibuf ∧ t.ilen = s.ilen ∧
      (∀ d p, checkString c s.input = .ok d p →
        ∃ out, decodeString c s.input = .bytes out ∧ t.result = out.map some ∧ t.olen = groupBits c * d / 8 ∧
          d = s.ilen - p ∧ t.status = 0x02 ∧ t.errCause = 0 ∧ t.errPos = 0) ∧
      (∀ cause pos, checkString c s.input = .fail cause pos →
        t.olen = 0 ∧ t.status = 0x06 ∧ 1 ≤ t.errCause.toNat ∧ t.errCause.toNat ≤ 5 ∧
          (s.params.errInfo = .reference → t.errCause = cause.code ∧ t.errPos = pos)) := by
  refine ⟨(s.accepted c .decode).archDecode c, exec_architectural hb hl hv c .decode, ?_⟩
  cases hcheck : checkString c s.input with
  | ok d p =>
    obtain ⟨out, hdec, hcomp, hres, holen, hd⟩ := State.accepted_archDecode_ok hcheck
    obtain ⟨hec, hep, hphase, hibuf, hilen⟩ := hcomp.of_accepted
    refine ⟨hphase, hibuf, hilen, fun d' p' h => ?_, nofun⟩
    obtain ⟨rfl, rfl⟩ := CheckResult.ok.inj h
    exact ⟨out, hdec, hres, holen, hd, hcomp.status, hec, hep⟩
  | fail cause pos =>
    obtain ⟨ec, ep, dr, e, hlo, hhi, href⟩ := State.accepted_archDecode_fail hcheck
    rw [e]
    refine ⟨rfl, rfl, rfl, nofun, fun cause' pos' h => ?_⟩
    obtain ⟨rfl, rfl⟩ := CheckResult.fail.inj h
    exact ⟨rfl, rfl, hlo, hhi, href⟩

/-- The result of a validate (R107, R111). -/
theorem exec_validate_result (c : Codec) (hb : s.busy = false) (hl : s.ilen ≤ s.params.inCap)
    (hv : s.params.level = .architectural) :
    ∃ t, exec (commandInstr c .validate) s = .next t ∧ t.status = (if isValid c s.input then 0x0A else 0x02) ∧
      t.olen = 0 ∧ t.errCause = 0 ∧ t.errPos = 0 ∧ t.phase = .idle ∧ t.obuf = s.obuf ∧ t.ibuf = s.ibuf ∧
      t.ilen = s.ilen := by
  have hcomp : ((s.accepted c .validate).archValidate c).Completes (s.accepted c .validate) _ :=
    State.archValidate_completes
  obtain ⟨hec, hep, hphase, hibuf, hilen⟩ := hcomp.of_accepted
  exact ⟨_, exec_architectural hb hl hv c .validate, hcomp.status, rfl, hec, hep, hphase, rfl, hibuf, hilen⟩

end

/-! ### The Base32 commands -/

/-- Settles O9. -/
theorem enc32Result : Obligations.Enc32Result := fun _ => exec_encode_result .base32

/-- Settles O11. -/
theorem dec32Result : Obligations.Dec32Result := fun _ => exec_decode_result .base32

/-- Settles O13. -/
theorem val32Result : Obligations.Val32Result := fun _ => exec_validate_result .base32

end Sys2Proof.Machine
end

section
/-! SUPPORT. The statements about the Base64Url commands. -/

namespace Sys2Proof.Machine

/-- Settles O10: the result of an encode, with blocks of 3 bytes and 4 symbols. -/
theorem enc64uResult : Obligations.Enc64uResult := fun _ => exec_encode_result .base64url

/-- Settles O12: the result of a decode, with 6 bits to a symbol. -/
theorem dec64uResult : Obligations.Dec64uResult := fun _ => exec_decode_result .base64url

/-- Settles O14: the result of a validate. -/
theorem val64uResult : Obligations.Val64uResult := fun _ => exec_validate_result .base64url

end Sys2Proof.Machine
end


section
/-! SUPPORT. The validates against the decodes, for either codec. -/

namespace Sys2Proof.Machine

/-- The status a decode ends with says whether `CHECK` accepted the string (R106, R110). -/
theorem exec_decode_status {s : State} (c : Codec) (hb : s.busy = false) (hl : s.ilen ≤ s.params.inCap)
    (hv : s.params.level = .architectural) :
    ∃ t, exec (commandInstr c .decode) s = .next t ∧ t.status = if isValid c s.input then 0x02 else 0x06 := by
  obtain ⟨t, hexec, -, -, -, hok, hfail⟩ := exec_decode_result c hb hl hv
  refine ⟨t, hexec, ?_⟩
  unfold isValid
  cases hcheck : checkString c s.input with
  | ok d p =>
    obtain ⟨-, -, -, -, -, hstatus, -⟩ := hok d p hcheck
    exact hstatus
  | fail cause pos =>
    obtain ⟨-, hstatus, -⟩ := hfail cause pos hcheck
    exact hstatus

/-- Settles O15: `VALID` after the validate and `ERR` after the decode both report the one answer of `CHECK`. -/
theorem validateAgreesWithDecode : Obligations.ValidateAgreesWithDecode := by
  intro c s hb hl hv
  obtain ⟨v, hvexec, hvstatus, -⟩ := exec_validate_result c hb hl hv
  obtain ⟨d, hdexec, hdstatus⟩ := exec_decode_status c hb hl hv
  refine ⟨v, d, hvexec, hdexec, ?_⟩
  rw [hvstatus, hdstatus]
  cases isValid c s.input <;> decide

end Sys2Proof.Machine
end

section
/-! SUPPORT. The statements about the exceptions: no step stops, what is refused, what `CHECK` reports. -/

namespace Sys2Proof.Machine

/-! ### No step stops -/

/-- Settles O6: by the kind of the next event; the two exceptional outcomes of a command are next states (log 12). -/
theorem everyStepAnswersNext : Obligations.EveryStepAnswersNext := step_next

/-! ### Refused `CMD` writes -/

section
variable (s : State)

/-- The command-start clear and the refusal together (R33, R123). -/
theorem State.clear_refuseIllcmd : s.clear.refuseIllcmd =
    { s with olen := 0, status := 0x12, errCause := 0, errPos := 0, ipos := 0, acc := 0, nbits := 0, npad := 0 } := by
  have hstatus : setFlag (setFlag 0x00 .illcmd) .done = 0x12 := by decide
  simp only [State.refuseIllcmd, State.clear, hstatus]

theorem State.runReserved_eq : s.runReserved =
    if s.busy then s
    else { s with olen := 0, status := 0x12, errCause := 0, errPos := 0, ipos := 0, acc := 0, nbits := 0, npad := 0 } := by
  rw [State.runReserved, State.clear_refuseIllcmd]

end

/-- Settles O8: the meaning of each reserved row is the same, whatever its open bits. -/
theorem reservedRowsAreRefused : Obligations.ReservedRowsAreRefused := by
  intro s
  have h : Host.Outcome.next (φ := Fault) (ρ := Refusal) s.runReserved = .next _ := congrArg _ s.runReserved_eq
  exact ⟨fun _ => h, fun _ => h, fun _ _ => h, fun _ _ => h, fun _ _ => h, fun _ _ => h⟩

/-- A word read as a command is one of the six (R63). -/
theorem mem_six_of_decodeWord {w : Byte} {c : Codec} {op : Op} (h : decodeWord w = commandInstr c op) :
    w ∈ [0x00#8, 0x01#8, 0x02#8, 0x04#8, 0x05#8, 0x06#8] := by
  have hwf : (commandInstr c op).wf = true := by cases c <;> cases op <;> rfl
  rw [(decodeWord_eq_iff hwf w).mp h]
  cases c <;> cases op <;> decide

/-- Settles O7: a command is refused for its length, every other word for itself. -/
theorem refusedCommandWrites : Obligations.RefusedCommandWrites := by
  intro s w hb hrefused
  rw [← s.clear_refuseIllcmd]
  rcases exec_command_or_reserved (decodeWord w) with ⟨c, op, hcommand⟩ | hreserved
  · have hlong := hrefused.resolve_left (not_not.mpr (mem_six_of_decodeWord hcommand))
    rw [hcommand, exec_commandInstr, s.runCommand_long c op hb hlong]
  · rw [hreserved, State.runReserved_idle hb]

/-! ### The scan, taken up at an index -/

/-- The scan of `CHECK` from index `n` on, the pads below `n` counted (R81). -/
def scanFrom (c : Codec) (str : List Byte) (n : Nat) : ScanResult :=
  scan c n ((str.take n).count padChar) (str.drop n)

section
variable {c : Codec} {str : List Byte} {n : Nat}

theorem padAt_iff (hn : n < str.length) : padAt str n ↔ str[n] = padChar := by
  rw [padAt, List.getElem?_eq_getElem hn, Option.some_inj]

theorem symbolAt_iff (hn : n < str.length) : symbolAt c str n ↔ (decLut c str[n]).isSome := by
  simp [symbolAt, List.getElem?_eq_getElem hn]

theorem symbolAt.lt (h : symbolAt c str n) : n < str.length := by
  obtain ⟨x, hx, -⟩ := h
  exact (List.getElem?_eq_some_iff.mp hx).1

theorem charViolation_iff (hn : n < str.length) :
    charViolation c str n ↔ str[n] ≠ padChar ∧ decLut c str[n] = none := by
  rw [charViolation, padAt_iff hn, symbolAt_iff hn, Option.not_isSome_iff_eq_none]
  exact and_iff_right hn

/-- A pad was counted below `n` exactly when one stands there. -/
theorem count_take_pos_iff : 0 < (str.take n).count padChar ↔ ∃ j < n, padAt str j := by
  simp only [List.count_pos_iff, List.mem_take_iff_getElem, padAt, List.getElem?_eq_some_iff]
  grind

theorem scanFrom_zero : scanFrom c str 0 = scan c 0 0 str := rfl

theorem scanFrom_length : scanFrom c str str.length = .pads (str.count padChar) := by
  rw [scanFrom, List.take_length, List.drop_length, scan]

theorem scanFrom_of_pad (hn : n < str.length) (hx : str[n] = padChar) : scanFrom c str n = scanFrom c str (n + 1) := by
  rw [scanFrom, scanFrom, List.drop_eq_getElem_cons hn, scan, if_pos hx, List.take_add_one, List.count_append]
  simp [hn, hx]

theorem scanFrom_of_char (h : charViolation c str n) : scanFrom c str n = .fail .char n := by
  obtain ⟨hpad, hnone⟩ := (charViolation_iff h.1).mp h
  rw [scanFrom, List.drop_eq_getElem_cons h.1, scan, if_neg hpad, unmapSymbol, hnone]

theorem scanFrom_of_symbol (h : symbolAt c str n) :
    scanFrom c str n =
      if 0 < (str.take n).count padChar then .fail .padOrder n else scanFrom c str (n + 1) := by
  have hsome := (symbolAt_iff h.lt).mp h
  have hpad := ne_pad_of_isSome hsome
  obtain ⟨g, hg⟩ := Option.isSome_iff_exists.mp hsome
  have hcount : (str.take (n + 1)).count padChar = (str.take n).count padChar := by
    rw [List.take_add_one, List.count_append]
    simp [h.lt, hpad]
  rw [scanFrom, scanFrom, List.drop_eq_getElem_cons h.lt, scan, if_neg hpad, unmapSymbol, hg, hcount]

theorem scanFrom_of_padOrder (h : padOrderViolation c str n) : scanFrom c str n = .fail .padOrder n := by
  obtain ⟨hsym, hbelow⟩ := h
  rw [scanFrom_of_symbol hsym, if_pos (count_take_pos_iff.mpr hbelow)]

/-- The scan goes past an index that violates neither check. -/
theorem scanFrom_succ (hn : n < str.length) (hchar : ¬ charViolation c str n) (horder : ¬ padOrderViolation c str n) :
    scanFrom c str n = scanFrom c str (n + 1) := by
  by_cases hpad : str[n] = padChar
  · exact scanFrom_of_pad hn hpad
  · have hsym : symbolAt c str n := by
      by_contra hsym
      exact hchar ⟨hn, mt (padAt_iff hn).mp hpad, hsym⟩
    rw [scanFrom_of_symbol hsym, if_neg fun hbelow => horder ⟨hsym, count_take_pos_iff.mp hbelow⟩]

/-- The scan reaches an index below which there is no violation. -/
theorem scan_eq_scanFrom (h : cleanBelow c str n) (hn : n ≤ str.length) : scan c 0 0 str = scanFrom c str n := by
  induction n with
  | zero => exact scanFrom_zero.symm
  | succ n ih =>
    obtain ⟨hchar, horder⟩ := h n (Nat.lt_succ_self n)
    rw [ih (fun i hi => h i (hi.trans (Nat.lt_succ_self n))) (Nat.le_of_succ_le hn), scanFrom_succ hn hchar horder]

end

/-! ### What `CHECK` reports -/

/-- The check of the scan that index `i` violates (R119). -/
inductive Violates (c : Codec) (str : List Byte) (i : Nat) : Cause → Prop
  | char (h : charViolation c str i) : Violates c str i .char
  | padOrder (h : padOrderViolation c str i) : Violates c str i .padOrder

/-- D, the data symbols of a string in which the scan finds no violation: all that is no pad (R81). -/
abbrev dataCount (str : List Byte) : Nat := str.length - str.count padChar

/-- The outcomes of `CHECK`, one constructor for each condition: a length that is no multiple of B, the first violation of
the scan, a pad count or trailing bits no encoder produces, acceptance (R119). -/
inductive Reports (c : Codec) (str : List Byte) : CheckResult → Prop
  | length (hl : str.length % blockSize c ≠ 0) : Reports c str (.fail .length str.length)
  | violation {cause : Cause} {pos : Nat} (hl : str.length % blockSize c = 0) (hbelow : cleanBelow c str pos)
      (hviol : Violates c str pos cause) : Reports c str (.fail cause pos)
  | padCount (hl : str.length % blockSize c = 0) (hclean : cleanBelow c str str.length)
      (hp : str.count padChar ∉ padSet c) : Reports c str (.fail .padCount (dataCount str))
  | trailing (hl : str.length % blockSize c = 0) (hclean : cleanBelow c str str.length)
      (hp : str.count padChar ∈ padSet c) (ht : 0 < trailingCount c (dataCount str))
      (hne : symbolValue c str (dataCount str - 1) % 2 ^ trailingCount c (dataCount str) ≠ 0) :
      Reports c str (.fail .trailing (dataCount str - 1))
  | ok (hl : str.length % blockSize c = 0) (hclean : cleanBelow c str str.length) (hp : str.count padChar ∈ padSet c)
      (ht : 0 < trailingCount c (dataCount str) →
        symbolValue c str (dataCount str - 1) % 2 ^ trailingCount c (dataCount str) = 0) :
      Reports c str (.ok (dataCount str) (str.count padChar))

section
variable {c : Codec} {str : List Byte}

theorem Violates.lt {i : Nat} {cause : Cause} (h : Violates c str i cause) : i < str.length := by
  cases h with
  | char h => exact h.1
  | padOrder h => exact h.1.lt

theorem Violates.scanFrom_eq {i : Nat} {cause : Cause} (h : Violates c str i cause) :
    scanFrom c str i = .fail cause i := by
  cases h with
  | char h => exact scanFrom_of_char h
  | padOrder h => exact scanFrom_of_padOrder h

/-- A string is free of violations, or one of them is the first. -/
theorem clean_or_first_violation (c : Codec) (str : List Byte) :
    cleanBelow c str str.length ∨ ∃ pos cause, cleanBelow c str pos ∧ Violates c str pos cause := by
  classical
  by_cases h : ∃ i cause, Violates c str i cause
  · obtain ⟨cause, hviol⟩ := Nat.find_spec h
    refine .inr ⟨Nat.find h, cause, fun i hi => ?_, hviol⟩
    have hnone := Nat.find_min h hi
    exact ⟨fun hc => hnone ⟨_, .char hc⟩, fun ho => hnone ⟨_, .padOrder ho⟩⟩
  · exact .inl fun i _ => ⟨fun hc => h ⟨i, _, .char hc⟩, fun ho => h ⟨i, _, .padOrder ho⟩⟩

theorem checkString_of_partial_block (hl : str.length % blockSize c ≠ 0) :
    checkString c str = .fail .length str.length := if_pos hl

/-- Past the scan, the pad count and the trailing bits decide (R81, checks 4 and 5). -/
theorem checkString_of_clean (hl : str.length % blockSize c = 0) (hclean : cleanBelow c str str.length) :
    checkString c str =
      if str.count padChar ∉ padSet c then .fail .padCount (dataCount str)
      else if trailingCount c (dataCount str) > 0 ∧
        symbolValue c str (dataCount str - 1) % 2 ^ trailingCount c (dataCount str) ≠ 0 then
        .fail .trailing (dataCount str - 1)
      else .ok (dataCount str) (str.count padChar) := by
  have hscan := (scan_eq_scanFrom hclean (le_refl _)).trans scanFrom_length
  simp only [checkString, hl, hscan]
  rfl

/-- Where there is a first violation, `CHECK` reports it (R81, checks 2 and 3). -/
theorem checkString_of_first_violation {cause : Cause} {pos : Nat} (hl : str.length % blockSize c = 0)
    (hbelow : cleanBelow c str pos) (hviol : Violates c str pos cause) : checkString c str = .fail cause pos :=
  checkString_of_scan_fail hl ((scan_eq_scanFrom hbelow hviol.lt.le).trans hviol.scanFrom_eq)

/-- The outcome of `CHECK` meets its condition. -/
theorem checkString_reports (c : Codec) (str : List Byte) : Reports c str (checkString c str) := by
  by_cases hl : str.length % blockSize c = 0
  · rcases clean_or_first_violation c str with hclean | ⟨pos, cause, hbelow, hviol⟩
    · rw [checkString_of_clean hl hclean]
      split
      · next hp => exact .padCount hl hclean hp
      · next hp =>
        split
        · next ht => exact .trailing hl hclean (not_not.mp hp) ht.1 ht.2
        · next ht => exact .ok hl hclean (not_not.mp hp) fun hpos => not_not.mp fun hne => ht ⟨hpos, hne⟩
    · rw [checkString_of_first_violation hl hbelow hviol]
      exact .violation hl hbelow hviol
  · rw [checkString_of_partial_block hl]
    exact .length hl

/-- The conditions exclude each other: whichever holds, its outcome is the one of `CHECK`. -/
theorem Reports.checkString_eq {r : CheckResult} (h : Reports c str r) : checkString c str = r := by
  cases h with
  | length hl => exact checkString_of_partial_block hl
  | violation hl hbelow hviol => exact checkString_of_first_violation hl hbelow hviol
  | padCount hl hclean hp => rw [checkString_of_clean hl hclean, if_pos hp]
  | trailing hl hclean hp ht hne =>
    rw [checkString_of_clean hl hclean, if_neg (not_not.mpr hp), if_pos ⟨ht, hne⟩]
  | ok hl hclean hp ht =>
    rw [checkString_of_clean hl hclean, if_neg (not_not.mpr hp), if_neg fun h => h.2 (ht h.1)]

theorem checkString_eq_iff {r : CheckResult} : checkString c str = r ↔ Reports c str r :=
  ⟨fun h => h ▸ checkString_reports c str, Reports.checkString_eq⟩

end

/-- Settles O48: each outcome is reported exactly under its own constructor of `Reports`. -/
theorem checkReportsTheFirstViolation : Obligations.CheckReportsTheFirstViolation := by
  refine ⟨⟨rfl, rfl, rfl, rfl, rfl⟩, fun c str pos => ?_⟩
  simp only [checkString_eq_iff]
  refine ⟨?length, ?char, ?padOrder, ?padCount, ?trailing, ?ok⟩
  case length =>
    refine ⟨fun h => ?_, fun ⟨hl, hpos⟩ => hpos ▸ .length hl⟩
    cases h with
    | length hl => exact ⟨hl, rfl⟩
    | violation _ _ hviol => cases hviol
  case char =>
    refine ⟨fun h => ?_, fun ⟨hl, hbelow, hviol⟩ => .violation hl hbelow (.char hviol)⟩
    cases h with
    | violation hl hbelow hviol =>
      cases hviol with
      | char hviol => exact ⟨hl, hbelow, hviol⟩
  case padOrder =>
    refine ⟨fun h => ?_, fun ⟨hl, hbelow, hviol⟩ => .violation hl hbelow (.padOrder hviol)⟩
    cases h with
    | violation hl hbelow hviol =>
      cases hviol with
      | padOrder hviol => exact ⟨hl, hbelow, hviol⟩
  case padCount =>
    refine ⟨fun h => ?_, fun ⟨⟨hl, hclean⟩, hp, hpos⟩ => hpos ▸ .padCount hl hclean hp⟩
    cases h with
    | violation _ _ hviol => cases hviol
    | padCount hl hclean hp => exact ⟨⟨hl, hclean⟩, hp, rfl⟩
  case trailing =>
    refine ⟨fun h => ?_, fun ⟨⟨hl, hclean⟩, hp, ht, hne, hpos⟩ => hpos ▸ .trailing hl hclean hp ht hne⟩
    cases h with
    | violation _ _ hviol => cases hviol
    | trailing hl hclean hp ht hne => exact ⟨⟨hl, hclean⟩, hp, ht, hne, rfl⟩
  case ok =>
    refine ⟨fun h => ?_, fun ⟨⟨hl, hclean⟩, hp, ht⟩ => .ok hl hclean hp ht⟩
    cases h with
    | ok hl hclean hp ht => exact ⟨⟨hl, hclean⟩, hp, ht⟩

end Sys2Proof.Machine
end

section
/-! SUPPORT. The statements about `Reset`, ignored host writes, the end of a running command and data cut at block
boundaries. -/

namespace Sys2Proof.Machine

/-! ### A running command without host events -/

/-- With no event pending the core moves until the block is idle, and then `DONE` is set (R101, R145). -/
theorem State.exists_run_done {s : State} (hinv : s.Inv) (hp : s.pending = []) (hrun : s.RunningOrDone) :
    ∃ n ≤ s.stepsLeft, ∃ t : State, Sys2Proof.core.run n s = .next t ∧ t.busy = false ∧ t.done = true := by
  induction hk : s.stepsLeft using Nat.strong_induction_on generalizing s with
  | _ k ih =>
    subst hk
    by_cases hphase : s.phase = .idle
    · have hbusy : s.busy = false := eq_false_of_ne_true fun hb => hinv.busy_iff.2.mp hb hphase
      exact ⟨0, Nat.zero_le _, s, rfl, hbusy, hrun.resolve_left fun h => h hphase⟩
    · obtain ⟨hrun', hlt⟩ := Progress.coreStep hphase
      have hstep := step_of_pending_nil hp
      have hp' : s.coreStep.pending = [] := (CoreFrame.coreStep s).pending.trans hp
      obtain ⟨n, hn, t, ht, hdone⟩ := ih _ hlt (stepKeepsInv _ _ hinv hstep) hp' hrun' rfl
      exact ⟨n + 1, by omega, t, (core_run_succ hstep n).trans ht, hdone⟩

/-- Settles O30. -/
theorem runningCommandCompletes : Obligations.RunningCommandCompletes := by
  intro s hinv hb hp
  obtain ⟨n, hn, h⟩ := State.exists_run_done hinv hp (.inl (hinv.busy_iff.2.mp hb))
  exact ⟨n, hn.trans s.stepsLeft_le, h⟩

/-! ### Reset and ignored writes -/

/-- Settles O33: `Reset` sets every register and both buffers, whatever they hold, so that what it leaves of the state are
the model's own fields. -/
theorem resetEvent : Obligations.ResetEvent := by
  intro s rest hp
  rw [step_of_pending_reset hp]
  rfl

section
variable {s : State}

theorem State.hostWriteReg_of_ne {reg : Nat} (h : reg ≠ regIlen) (v : Nat) : s.hostWriteReg reg v = s :=
  if_neg fun hw => h hw.1

theorem State.hostWriteIbuf_of_le {i : Nat} (h : s.params.inCap ≤ i) (v : Byte) : s.hostWriteIbuf i v = s :=
  if_neg fun hw => Nat.not_lt.mpr h hw.1

/-- While a command runs a write to any register, `CMD` included, is only taken (R138). -/
theorem State.hostOp_write_of_busy (hb : s.busy = true) (reg v : Nat) (rest : List Event) :
    s.hostOp (.write reg v) rest = .next { s with pending := rest } := by
  have hb' : { s with pending := rest }.busy = true := hb
  by_cases hreg : reg = regCmd
  · exact (if_pos hreg).trans (exec_of_busy hb' _)
  · exact (if_neg hreg).trans (congrArg Host.Outcome.next (State.hostWriteReg_of_busy hb' reg v))

/-- A write to a register other than `CMD` and `ILEN` is only taken (R52, R144). -/
theorem State.hostOp_write_of_ne {reg : Nat} (hcmd : reg ≠ regCmd) (hilen : reg ≠ regIlen) (v : Nat) (rest : List Event) :
    s.hostOp (.write reg v) rest = .next { s with pending := rest } :=
  (if_neg hcmd).trans (congrArg Host.Outcome.next (State.hostWriteReg_of_ne hilen v))

end

/-- Settles O34. -/
theorem ignoredHostWrites : Obligations.IgnoredHostWrites := by
  intro s rest
  refine ⟨fun reg v hp h => ?_, fun i v hp h => ?_, fun i v hp => ?_⟩ <;> rw [step_of_pending_host hp]
  · rcases h with hb | ⟨hcmd, hilen⟩
    · exact State.hostOp_write_of_busy hb reg v rest
    · exact State.hostOp_write_of_ne hcmd hilen v rest
  · refine congrArg Host.Outcome.next ?_
    rcases h with hb | hi
    · exact State.hostWriteIbuf_of_busy (s := { s with pending := rest }) hb i v
    · exact State.hostWriteIbuf_of_le (s := { s with pending := rest }) hi v
  · rfl

/-! ### Data cut at block boundaries -/

section
variable {c : Codec} {b : List Byte} {gs hs : List Nat} {p : Nat}

/-- Whole blocks of symbols carry whole bytes (R9). -/
theorem groupBits_mul_of_blocks {d : Nat} (h : d % blockSize c = 0) : 8 * (groupBits c * d / 8) = groupBits c * d := by
  cases c <;> simp only [groupBits, blockSize] at h ⊢ <;> omega

/-- Whole blocks before the last symbols leave the number of trailing bits as it is (R81). -/
theorem trailingCount_add {d : Nat} (h : d % blockSize c = 0) (n : Nat) : trailingCount c (d + n) = trailingCount c n := by
  rw [trailingCount, Nat.mul_add, ← groupBits_mul_of_blocks h, Nat.mul_add_mod, trailingCount]

theorem trailingCount_of_blocks {d : Nat} (h : d % blockSize c = 0) : trailingCount c d = 0 :=
  (trailingCount_add h 0).trans (by simp [trailingCount])

/-- The number of pads of whole blocks of bytes (R78). -/
theorem padGen_of_blockBytes {n : Nat} (h : n % blockBytes c = 0) :
    padGen (blockSize c) (groupCount (groupBits c) n) = 0 := by
  cases c <;> simp only [blockBytes_base32, blockBytes_base64url] at h <;>
    simp only [padGen, blockSize, groupCount, groupBits] <;> omega

/-- A string without pads ends at a byte boundary, so a valid string may follow it: their bitstreams join. -/
theorem Spells.append {a : List Byte} (ha : Spells c a gs 0) (hb : Spells c b hs p) : Spells c (a ++ b) (gs ++ hs) p where
  inRange g hg := (List.mem_append.mp hg).elim (ha.inRange g) (hb.inRange g)
  blocks := by
    have hgs : gs.length % blockSize c = 0 := ha.blocks
    rw [List.length_append, Nat.add_assoc, ← Nat.mod_add_mod, hgs, Nat.zero_add, hb.blocks]
  pads := hb.pads
  stream := by
    have hgs : gs.length % blockSize c = 0 := ha.blocks
    rw [groupStream_append, ha.stream, hb.stream, trailingCount_of_blocks hgs, List.length_append, trailingCount_add hgs,
      byteStream_append, List.replicate_zero, List.append_nil, List.append_assoc]

/-- The bytes of a valid string cut where whole blocks of its symbols end: the cut is one of the bitstream (R140). -/
theorem Spells.split (h : Spells c b (gs ++ hs) p) (hblocks : gs.length % blockSize c = 0) :
    ∃ u v, b = u ++ v ∧ Spells c u gs 0 ∧ Spells c v hs p := by
  have hrange := List.forall_mem_append.mp h.inRange
  have hcut := groupBits_mul_of_blocks hblocks
  have hstream := h.stream
  rw [List.length_append, trailingCount_add hblocks, groupStream_append] at hstream
  set n := groupBits c * gs.length / 8
  have hn : n ≤ b.length := by
    have hlen := congrArg List.length hstream
    have htail : trailingCount c hs.length < 8 := Nat.mod_lt _ (by decide)
    simp only [List.length_append, groupStream_length, byteStream_length, List.length_replicate] at hlen
    omega
  rw [← List.take_append_drop n b, byteStream_append, List.append_assoc] at hstream
  obtain ⟨hu, hv⟩ := List.append_inj hstream (by simp [hn, hcut])
  refine ⟨b.take n, b.drop n, (List.take_append_drop n b).symm, ⟨hrange.1, hblocks, ?_, ?_⟩, ⟨hrange.2, ?_, h.pads, hv⟩⟩
  · cases c <;> decide
  · rw [hu, trailingCount_of_blocks hblocks, List.replicate_zero, List.append_nil]
  · have := h.blocks
    rwa [List.length_append, Nat.add_assoc, ← Nat.mod_add_mod, hblocks, Nat.zero_add] at this

/-- An encoding of whole blocks has no pads, so that what follows it continues its bitstream. -/
theorem encodeBytes_append {x : List Byte} (hx : x.length % blockBytes c = 0) (y : List Byte) :
    encodeBytes c (x ++ y) = encodeBytes c x ++ encodeBytes c y := by
  have hsx := spells_pack c x
  rw [padGen_of_blockBytes hx] at hsx
  have hsy := spells_pack c y
  rw [(hsx.append hsy).encodeBytes_eq, hsx.encodeBytes_eq, hsy.encodeBytes_eq, List.map_append,
    List.replicate_zero, List.append_nil, List.append_assoc]

/-- Where a valid string is cut at a block boundary, the first part has symbols only, or the second part is empty: the pads
are fewer than a block. -/
theorem decodeString_split {x y : List Byte} (hx : x.length % blockSize c = 0)
    (h : decodeString c (x ++ y) = .bytes b) :
    ∃ u v, decodeString c x = .bytes u ∧ decodeString c y = .bytes v ∧ b = u ++ v := by
  obtain ⟨gs, p, hspells, hstr⟩ := exists_spells_of_decodeString h
  rcases List.append_eq_append_iff.mp hstr with ⟨rest, hsyms, rfl⟩ | ⟨pads, rfl, hpads⟩
  · obtain ⟨gs, hs, rfl, rfl, rfl⟩ := List.map_eq_append_iff.mp hsyms
    obtain ⟨u, v, rfl, hu, hv⟩ := hspells.split (by simpa using hx)
    have hdec := hu.decodeString_eq
    rw [List.replicate_zero, List.append_nil] at hdec
    exact ⟨u, v, hdec, hv.decodeString_eq, rfl⟩
  · obtain rfl : y = [] := by
      have hlen := congrArg List.length hpads
      have hblocks := hspells.blocks
      have hp := padSet_lt_blockSize hspells.pads
      simp only [List.length_append, List.length_map, List.length_replicate] at hx hlen
      rw [hlen, ← Nat.add_assoc, ← Nat.mod_add_mod, hx, Nat.zero_add, Nat.mod_eq_of_lt (by omega)] at hblocks
      exact List.eq_nil_of_length_eq_zero hblocks
    rw [List.append_nil] at h
    have hnil : decodeString c [] = .bytes [] := by cases c <;> decide
    exact ⟨b, [], h, hnil, (List.append_nil b).symm⟩

end

/-- Settles O51. -/
theorem piecesCutAtBlocksJoin : Obligations.PiecesCutAtBlocksJoin :=
  fun _ _ y => ⟨fun hx => encodeBytes_append hx y, fun _ => decodeString_split⟩

end Sys2Proof.Machine
end
